-- ==== Sys2Proof/Word.lean ====
section
/-!
DEFINITION. The block's machine words and the split of an exact natural number into a word and
what exceeds it (00_scope.md R10: arithmetic is exact, every truncation is written out).
-/
namespace Sys2Proof

/-- The atomic unit of the representation, `W` = 64 bits (R8, R13). -/
abbrev Word := BitVec 64

/-- A 16-bit address or length field of an argument register (R36). -/
abbrev Half := BitVec 16

/-- A stream byte, an exit code, a fault code, or one byte lane of a word (R73, R77). -/
abbrev Byte := BitVec 8

/-- `n mod 2^64` as a word. -/
def lowWord (n : Nat) : Word := BitVec.ofNat 64 n

/-- `n >> 64`, the part of `n` that a word cannot hold; it is itself a word whenever `n < 2^128`. -/
def highWord (n : Nat) : Word := BitVec.ofNat 64 (n / 2 ^ 64)

end Sys2Proof
end

