-- ==== Sys2Proof/Config.lean ====
section
/-!
DEFINITION. The build parameters of the block (00_scope.md R8) and the free values: what the spec
calls unspecified and gives to "any value" (93_implementation_defined.md). A free value has no body,
so nothing can be proved of which value it is.
-/
namespace Sys2Proof

/-- The parameters of one build (R8): `N`, `BUF_WORDS`, and the OPEN platform parameter `MMIO_BASE`.
They are a constant field of State, so that a statement about every state is one about every build. -/
structure Params where
  /-- `N`, the operand word count. -/
  n : Nat
  /-- `BUF_WORDS`, the words in `BUFRAM`. -/
  bufWords : Nat
  /-- `MMIO_BASE`, the bus address of the register window. -/
  mmioBase : Nat
deriving DecidableEq, Repr

/-- The spec's defaults, `N` = 128 and `BUF_WORDS` = `4 N` = 512 (R8).
DESIGN CHOICE (log entry 2, unsafe where a claim rests on it): `MMIO_BASE` = 0, which the spec leaves OPEN. -/
def Params.default : Params := { n := 128, bufWords := 512, mmioBase := 0 }

/-- FREE VALUE (log entry 3, safe): the byte that occasion `id` leaves at byte address `a` of `BUFRAM`,
where the spec says the content is unspecified (R370 after a reset, R229 after a termination). -/
opaque Config.freeRam : Nat → Nat → Byte

/-- FREE VALUE (log entry 3, safe): the word that occasion `id` (a reset, or the end of a
MUL_LONG) leaves in `SCR[k]` (R43, R370). -/
opaque Config.freeScr : Nat → Nat → Word

/-- FREE VALUE (log entry 3, safe): the byte that occasion `id` (a reset, or the end of a
FORMAT) leaves in `FMT_BUF[k]` (R44, R370). -/
opaque Config.freeFmt : Nat → Nat → Byte

end Sys2Proof
end

