-- ==== Sys2Proof/Syntax.lean ====
section
/-!
DEFINITION. The ten commands (30_encoding.md R104), the operand fields they take from the argument
registers (R101), and the six fault codes (60_exceptions.md R330).
-/
namespace Sys2Proof

/-- One constructor per row of spec/opcode_table.json. A command has no operand inside `CMD` but the
`NL` bit of `FORMAT` (R103); the others come from the argument registers (R101). -/
inductive Instr where
  | zeroFill                -- ZERO_FILL, opcode 0x01
  | copy                    -- COPY, opcode 0x02
  | isZero                  -- IS_ZERO, opcode 0x03
  | addShort                -- ADD_SHORT, opcode 0x10
  | mulShort                -- MUL_SHORT, opcode 0x11
  | divShort                -- DIV_SHORT, opcode 0x12
  | addLong                 -- ADD_LONG, opcode 0x20
  | mulLong                 -- MUL_LONG, opcode 0x21
  | parse                   -- PARSE, opcode 0x30
  | format (nl : Bool)      -- FORMAT (nl = false) and FORMAT.NL (nl = true), opcode 0x31
deriving DecidableEq, Repr

/-- The argument registers `ARG_A`, `ARG_B`, `ARG_P`, `ARG_LEN`, `ARG_W` (10_state.md R36), and the
operand fields `A`, `B`, `P`, `LEN`, `Wd` a command latches from them (R101). -/
structure Args where
  a : Half
  b : Half
  p : Half
  len : Half
  w : Word
deriving DecidableEq, Repr

/-- The fault codes of R330. -/
inductive FaultCode where
  | illegalOpcode
  | reservedField
  | length
  | bounds
  | aliasing
  | divideByZero
deriving DecidableEq, Repr

end Sys2Proof
end

