-- ==== Sys2Proof/WellFormed.lean ====
section
/-!
DEFINITION. Well-formedness of what the spec constrains before any command runs: the three fields of a
`CMD64` value (30_encoding.md R100, R105) and the build parameters (00_scope.md R8). Every term of
`Instr` is well-formed by construction: a command has no field that could be out of range.
-/
namespace Sys2Proof

/-- The fields of a `CMD64` value (R100). -/
structure Cmd64 where
  /-- `OPC`, bits 7:0. -/
  opc : Byte
  /-- `NL`, bit 8. -/
  nl : Bool
  /-- bits 63:9. -/
  reserved : BitVec 55
deriving DecidableEq, Repr

/-- The opcode is one of the ten of R104. -/
def Cmd64.opcodeAssigned (f : Cmd64) : Bool :=
  [0x01, 0x02, 0x03, 0x10, 0x11, 0x12, 0x20, 0x21, 0x30, 0x31].contains f.opc

/-- The reserved bits are zero (R100, R105). -/
def Cmd64.reservedClear (f : Cmd64) : Bool := f.reserved == 0

/-- `NL` is set with `FORMAT` only (R100, R105). -/
def Cmd64.nlPermitted (f : Cmd64) : Bool := !f.nl || f.opc == 0x31

/-- The value is a legal command word: no fault of R105. -/
def Cmd64.wellFormed (f : Cmd64) : Bool := f.opcodeAssigned && f.reservedClear && f.nlPermitted

/-- The constraints `1 ≤ N ≤ 16383` and `4 N ≤ BUF_WORDS ≤ 65536` (R8). -/
def Params.wellFormed (p : Params) : Bool :=
  decide (1 ≤ p.n) && decide (p.n ≤ 16383) && decide (4 * p.n ≤ p.bufWords)
    && decide (p.bufWords ≤ 65536)

end Sys2Proof
end

