-- ==== Sys2Proof/Decode.lean ====
section
/-!
DEFINITION. The decoder of `CMD` values, total on all 2^64 of them (30_encoding.md R110), and the
encoder, both from the opcode map of R104.
-/
namespace Sys2Proof

/-- What R110's `Decode` returns. -/
inductive Decoded where
  | command (i : Instr)
  | fault (code : FaultCode)
deriving DecidableEq, Repr

/-- The fields of a `CMD64` value (R100). -/
def Cmd64.ofWord (v : Word) : Cmd64 :=
  { opc := v.extractLsb' 0 8, nl := v.getLsbD 8, reserved := v.extractLsb' 9 55 }

/-- The `CMD64` value with these fields (R100). -/
def Cmd64.toWord (f : Cmd64) : Word := (f.reserved ++ BitVec.ofBool f.nl ++ f.opc : BitVec 64)

/-- The opcode map of R104. `none` is an illegal opcode. -/
def opcodeInstr (opc : Byte) (nl : Bool) : Option Instr :=
  if opc = 0x01 then some .zeroFill
  else if opc = 0x02 then some .copy
  else if opc = 0x03 then some .isZero
  else if opc = 0x10 then some .addShort
  else if opc = 0x11 then some .mulShort
  else if opc = 0x12 then some .divShort
  else if opc = 0x20 then some .addLong
  else if opc = 0x21 then some .mulLong
  else if opc = 0x30 then some .parse
  else if opc = 0x31 then some (.format nl)
  else none

/-- `Decode(v)` of R110: an illegal opcode is found first, then a reserved field. -/
def decode (v : Word) : Decoded :=
  let f := Cmd64.ofWord v
  match opcodeInstr f.opc f.nl with
  | none => .fault .illegalOpcode
  | some i =>
    if f.reserved ≠ 0 then .fault .reservedField
    else if f.nl = true ∧ f.opc ≠ 0x31 then .fault .reservedField
    else .command i

/-- The opcode of a command (R104). -/
def Instr.opcode : Instr → Byte
  | .zeroFill => 0x01
  | .copy => 0x02
  | .isZero => 0x03
  | .addShort => 0x10
  | .mulShort => 0x11
  | .divShort => 0x12
  | .addLong => 0x20
  | .mulLong => 0x21
  | .parse => 0x30
  | .format _ => 0x31

/-- The `NL` bit of a command (R100). -/
def Instr.nlBit : Instr → Bool
  | .format nl => nl
  | .zeroFill | .copy | .isZero | .addShort | .mulShort | .divShort | .addLong | .mulLong | .parse => false

/-- The fields of a command's `CMD64` value. -/
def Instr.cmd64 (i : Instr) : Cmd64 := { opc := i.opcode, nl := i.nlBit, reserved := 0 }

/-- The `CMD64` value of a command (R104). -/
def encode (i : Instr) : Word := i.cmd64.toWord

/-- The host's view of the decoder: the command in an instruction whose `nbits` table bits are `w`. A
command is one 64-bit `CMD` value (R106), so the bits are the value's own. -/
def decodeTableWord (nbits w : Nat) : Option Instr :=
  match decode (BitVec.ofNat 64 (w % 2 ^ nbits)) with
  | .command i => some i
  | .fault _ => none

end Sys2Proof
end

