-- ==== Sys2Proof/Machine/State.lean ====
section
/-!
DEFINITION. The state of the block and of its host side as plain data (10_state.md R30 to R48,
20_memory.md R89 to R91), its value right after reset (70_reset_and_hazards.md R370), and the reasons a
step can stop.
-/
namespace Sys2Proof.Machine

/-- `STATUS` (R34), field by field. Bits 7 and 63:16 are reserved, read zero and hold nothing. -/
structure Status where
  busy : Bool
  done : Bool
  fault : Bool
  term : Bool
  trunc : Bool
  zero : Bool
  haz : Bool
  faultCode : Byte
deriving DecidableEq, Repr

/-- An item of stream `IN` (R89): `Byte(b)`, or the item the spec calls `End`. -/
inductive InItem where
  | byte (b : Byte)
  | endItem
deriving DecidableEq, Repr

/-- The parse states of R42. -/
inductive ParseState where
  | accumulating
  | invalidCharacter
  | done
  | terminated
deriving DecidableEq, Repr

/-- Where the sequencer stands inside a running command: which loop of the command's pseudocode it is
in. The word index, the carry and the counts stand in `Running`. -/
inductive Phase where
  /-- The one word loop of ZERO_FILL, COPY, IS_ZERO, ADD_SHORT, MUL_SHORT, DIV_SHORT, ADD_LONG. -/
  | words
  /-- MUL_LONG step 0: clear the product (R190). -/
  | mulClear
  /-- MUL_LONG step 1: zero the scratch. -/
  | mulZero
  /-- MUL_LONG step 2: copy the factor a into the scratch. -/
  | mulLoad
  /-- MUL_LONG step 3: multiply the scratch by one word of b. -/
  | mulTimes
  /-- MUL_LONG step 4: add the scratch into the product. -/
  | mulAdd
  /-- PARSE zero-initialises its destination (R221). -/
  | parseClear
  /-- PARSE takes the next item (R220, `Accumulating`). -/
  | parseRead
  /-- The multiply loop of the digit step for digit value `d` (R222). -/
  | parseTimes (d : Word)
  /-- The add loop of the digit step (R222). -/
  | parseAdd
  /-- PARSE writes the diagnostic for the invalid byte `x` (R227, `InvalidCharacter`). -/
  | parseDiag (x : Byte)
  /-- PARSE discards the rest of the line (R227, `InvalidCharacter`). -/
  | parseSkip
  /-- FORMAT divides its buffer by 10 (R240). -/
  | fmtDivide
  /-- FORMAT tests its buffer for zero (R240). -/
  | fmtTest
  /-- FORMAT emits its digits (R240). -/
  | fmtEmit
  /-- FORMAT emits the newline (R240). -/
  | fmtNewline
deriving DecidableEq, Repr

/-- The record `c` of `BUSY(c)` (R41). -/
structure Running where
  /-- The command. -/
  op : Instr
  /-- The argument values latched at acceptance (R121). -/
  args : Args
  phase : Phase
  /-- The current word (or byte) index of the loop. -/
  idx : Nat
  /-- The word index `i` of the second factor, MUL_LONG only (R190). -/
  outer : Nat
  /-- The loop-carried carry, borrow or remainder; the running flag of a zero test. -/
  carry : Word
  /-- The digit count `n` of PARSE and FORMAT. -/
  count : Nat
  /-- Whether a non-zero carry-out has been discarded so far (`t` of R221, `mc`, `ac` of R190). -/
  trunc : Bool
deriving DecidableEq, Repr

/-- The sequencer's three states (R41). -/
inductive Sequencer where
  | idle
  | busy (c : Running)
  | terminated
deriving DecidableEq, Repr

/-- What the host can do to the block (45_driver_sequence.md R309). -/
inductive HostAction where
  /-- A read of `width` bits at bus address `addr`. -/
  | read (addr width : Nat)
  /-- A write of `width` bits at bus address `addr`; `data` is the 64-bit value of an admitted one. -/
  | write (addr width : Nat) (data : Word)
  /-- Delivery of the next item of `IN` (R89). -/
  | deliver (item : InItem)
  /-- The host becomes ready to accept `k` more bytes of `OUT` (R91). -/
  | readyOut (k : Nat)
  /-- The host becomes ready to accept `k` more bytes of `DIAG` (R91). -/
  | readyDiag (k : Nat)
  /-- Reset is asserted (R371). -/
  | reset
deriving DecidableEq, Repr

/-- An entry of the agenda: a host action and its place among the sequencer's turns (log entry 1). -/
inductive Event where
  /-- The action takes effect once the sequencer has come to rest: idle, terminated, or held on a stream. -/
  | rest (a : HostAction)
  /-- The action takes effect now, also while the sequencer could still move. -/
  | now (a : HostAction)
  /-- The sequencer takes one turn before the next entry. -/
  | turn
deriving DecidableEq, Repr

/-- The bus response to a host access. -/
inductive Reply where
  /-- No access since reset. -/
  | none
  /-- The data of an admitted read. -/
  | data (v : Word)
  /-- An admitted write. -/
  | ack
  /-- A refused access: the error response of R75. -/
  | busError
  /-- An address outside the window: the block does not respond (R80). -/
  | undecoded
deriving DecidableEq, Repr

/-- Everything the spec gives the machine (R30), the streams (R89, R91), and the host's side of them. -/
structure State where
  /-- The build parameters; `PARAM` (R33) shows `n` and `bufWords`. They never change. -/
  params : Params
  /-- `BUFRAM` (R46): byte `8 k + j` is byte lane `j` of word `k` (R73). Only bytes written since the last reset are listed. -/
  bufram : List Host.Cell
  /-- `STATUS` (R34). -/
  status : Status
  /-- `ARG_A`, `ARG_B`, `ARG_P`, `ARG_LEN`, `ARG_W` (R36). -/
  args : Args
  /-- `RESULT` (R37). -/
  result : Word
  /-- `EXIT.CODE` (R38). -/
  exit : Byte
  /-- `SCR` (R43): the words `SCR[k]` the running command has written; the others are unspecified. -/
  scr : List (Nat × Word)
  /-- `FMT_BUF` (R44): the bytes `FMT_BUF[k]` the running command has written; the others are unspecified. -/
  fmtBuf : List Host.Cell
  /-- The sequencer (R41). -/
  seq : Sequencer
  /-- `IN` (R89): the items the host has delivered and no command has taken, oldest first. -/
  input : List InItem
  /-- `OUT` (R91): every byte emitted so far, oldest first. -/
  output : List Byte
  /-- `DIAG` (R91): every byte emitted so far, oldest first. -/
  diag : List Byte
  /-- How many more `OUT` bytes the host is ready to accept (R91, R309). -/
  outReady : Nat
  /-- How many more `DIAG` bytes the host is ready to accept (R91, R309). -/
  diagReady : Nat
  /-- What the host does next, in its issue order (R84), placed among the sequencer's turns. -/
  agenda : List Event
  /-- The bus response to the last host access (R75, R78). -/
  reply : Reply
  /-- The model's own: the occasion that left the unspecified content of unwritten `BUFRAM` bytes (log entry 3). -/
  epoch : Nat
  /-- The model's own: the occasion that left the unspecified content of `SCR` (log entry 3). -/
  scrEpoch : Nat
  /-- The model's own: the occasion that left the unspecified content of `FMT_BUF` (log entry 3). -/
  fmtEpoch : Nat
  /-- The model's own: the last occasion number used for free values (log entry 3). -/
  fresh : Nat
deriving DecidableEq, Repr

/-- Why a step can stop. No instruction and no host action ends in a fault: the block's own faults
(R330) and terminations (R340) are next states. -/
inductive Fault where
  /-- Raised by a sequencer turn whose `Running` record is no record of an accepted command (its
  arguments fail R120, or its phase is not one of its command's). It keeps a turn from touching a word
  that does not exist (R71). Safe: no state that a run reaches has such a record (log entry 6). -/
  | strayCommand
deriving DecidableEq, Repr

/-- Why an instruction can be refused. -/
inductive Refusal where
  /-- An instruction without a meaning, raised by an arm of exec. Safe. No arm raises it now. -/
  | notModelled (mnemonic : String)
deriving DecidableEq, Repr

/-- The state right after reset (R370), at the spec's default parameters (R8), with nothing delivered,
nothing emitted and nothing planned by the host. `BUFRAM`, `SCR` and `FMT_BUF` list no cell: their
content is unspecified (free values, log entry 3). -/
def State.reset : State where
  params := Params.default
  bufram := []
  status :=
    { busy := false, done := false, fault := false, term := false, trunc := false, zero := false,
      haz := false, faultCode := 0 }
  args := { a := 0, b := 0, p := 0, len := 0, w := 0 }
  result := 0
  exit := 0
  scr := []
  fmtBuf := []
  seq := .idle
  input := []
  output := []
  diag := []
  outReady := 0
  diagReady := 0
  agenda := []
  reply := .none
  epoch := 0
  scrEpoch := 0
  fmtEpoch := 0
  fresh := 0

/-! Named updates, one per field. Laws/State.lean says what each leaves of every field. -/

/-- Replace `bufram`. -/
def State.setBufram (s : State) (v : List Host.Cell) : State := { s with bufram := v }

/-- Replace `status`. -/
def State.setStatus (s : State) (v : Status) : State := { s with status := v }

/-- Replace `args`. -/
def State.setArgs (s : State) (v : Args) : State := { s with args := v }

/-- Replace `result`. -/
def State.setResult (s : State) (v : Word) : State := { s with result := v }

/-- Replace `exit`. -/
def State.setExit (s : State) (v : Byte) : State := { s with exit := v }

/-- Replace `scr`. -/
def State.setScr (s : State) (v : List (Nat × Word)) : State := { s with scr := v }

/-- Replace `fmtBuf`. -/
def State.setFmtBuf (s : State) (v : List Host.Cell) : State := { s with fmtBuf := v }

/-- Replace `seq`. -/
def State.setSeq (s : State) (v : Sequencer) : State := { s with seq := v }

/-- Replace `input`. -/
def State.setInput (s : State) (v : List InItem) : State := { s with input := v }

/-- Replace `output`. -/
def State.setOutput (s : State) (v : List Byte) : State := { s with output := v }

/-- Replace `diag`. -/
def State.setDiag (s : State) (v : List Byte) : State := { s with diag := v }

/-- Replace `outReady`. -/
def State.setOutReady (s : State) (v : Nat) : State := { s with outReady := v }

/-- Replace `diagReady`. -/
def State.setDiagReady (s : State) (v : Nat) : State := { s with diagReady := v }

/-- Replace `agenda`. -/
def State.setAgenda (s : State) (v : List Event) : State := { s with agenda := v }

/-- Replace `reply`. -/
def State.setReply (s : State) (v : Reply) : State := { s with reply := v }

/-- Replace `epoch`. -/
def State.setEpoch (s : State) (v : Nat) : State := { s with epoch := v }

/-- Replace `scrEpoch`. -/
def State.setScrEpoch (s : State) (v : Nat) : State := { s with scrEpoch := v }

/-- Replace `fmtEpoch`. -/
def State.setFmtEpoch (s : State) (v : Nat) : State := { s with fmtEpoch := v }

/-- Replace `fresh`. -/
def State.setFresh (s : State) (v : Nat) : State := { s with fresh := v }

end Sys2Proof.Machine
end

