-- ==== Sys2Proof/Machine/Flags.lean ====
section
/-!
DEFINITION. Every computation over `STATUS`: its register value and its write (10_state.md R34), and what
acceptance, completion, a fault, a termination and a dropped access do to it (30_encoding.md R121 to
R123, 60_exceptions.md R331, R340, 20_memory.md R76).
-/
namespace Sys2Proof

/-- The code written to `STATUS.FAULT_CODE` (R330). -/
def FaultCode.code : FaultCode → Byte
  | .illegalOpcode => 0x01
  | .reservedField => 0x02
  | .length => 0x03
  | .bounds => 0x04
  | .aliasing => 0x05
  | .divideByZero => 0x06

namespace Machine

/-- The value a read of `STATUS` returns (R34). -/
def Status.word (t : Status) : Word :=
  (0#48 ++ t.faultCode ++ 0#1 ++ BitVec.ofBool t.haz ++ BitVec.ofBool t.zero ++ BitVec.ofBool t.trunc
    ++ BitVec.ofBool t.term ++ BitVec.ofBool t.fault ++ BitVec.ofBool t.done ++ BitVec.ofBool t.busy : BitVec 64)

/-- A `CMD` write is dropped while `BUSY`, `FAULT` or `TERM` is 1 (R122). -/
def Status.blocked (t : Status) : Bool := t.busy || t.fault || t.term

/-- An access was dropped: `HAZ` (R76, R122). -/
def Status.withHaz (t : Status) : Status := { t with haz := true }

/-- A fault: `FAULT`, `FAULT_CODE`, and `DONE` = 0 (R331). -/
def Status.withFault (t : Status) (code : FaultCode) : Status :=
  { t with fault := true, faultCode := code.code, done := false }

/-- The return from a fault: `FAULT` and `FAULT_CODE` cleared (R34, R335). -/
def Status.withoutFault (t : Status) : Status := { t with fault := false, faultCode := 0 }

/-- A write to `STATUS`: bits 2 and 6 are write-one-to-clear, every other bit is ignored (R34). -/
def Status.write (t : Status) (v : Word) : Status :=
  let u := if v.getLsbD 2 then t.withoutFault else t
  if v.getLsbD 6 then { u with haz := false } else u

/-- A command starts: `BUSY` = 1, `DONE` = 0 (R121). -/
def Status.started (t : Status) : Status := { t with busy := true, done := false }

/-- A command completes with these outputs (R123, R40). -/
def Status.completed (t : Status) (trunc zero : Bool) : Status :=
  { t with busy := false, done := true, trunc := trunc, zero := zero }

/-- The block terminates (R340). -/
def Status.terminated (t : Status) : Status := { t with busy := false, done := false, term := true }

/-- `TRUNC` of a carry-out: whether a non-zero carry-out is discarded (R34, R40). -/
def carryLost (c : Word) : Bool := decide (c ≠ 0)

end Machine
end Sys2Proof
end

