-- ==== Sys2Proof/Machine/Operands.lean ====
section
/-!
DEFINITION. The operands of every command: the ranges it touches (30_encoding.md R102), bounds and
overlap (20_memory.md R71), and the argument checks in their order (R120).
-/
namespace Sys2Proof.Machine

/-- The words `base` to `base + count - 1` of `BUFRAM` (R71). -/
structure Range where
  base : Nat
  count : Nat
deriving DecidableEq, Repr

/-- In bounds, computed without wrap-around; an empty range too needs `base ≤ BUF_WORDS` (R71). -/
def Range.inBounds (r : Range) (p : Params) : Bool := decide (r.base + r.count ≤ p.bufWords)

/-- Overlap of two ranges; an empty range overlaps nothing (R71). -/
def Range.overlaps (r q : Range) : Bool :=
  decide (0 < r.count) && decide (0 < q.count) && decide (r.base < q.base + q.count)
    && decide (q.base < r.base + r.count)

/-- `(A, LEN)` (R102). -/
def Args.rangeA (x : Args) : Range := { base := x.a.toNat, count := x.len.toNat }

/-- `(B, LEN)` (R102). -/
def Args.rangeB (x : Args) : Range := { base := x.b.toNat, count := x.len.toNat }

/-- `(P, 2 LEN)`, the count computed exactly (R102, R103). -/
def Args.rangeP (x : Args) : Range := { base := x.p.toNat, count := 2 * x.len.toNat }

/-- The ranges each command touches (R102). -/
def ranges (i : Instr) (x : Args) : List Range :=
  match i with
  | .zeroFill => [Args.rangeA x]
  | .copy => [Args.rangeA x, Args.rangeB x]
  | .isZero => [Args.rangeA x]
  | .addShort => [Args.rangeA x]
  | .mulShort => [Args.rangeA x]
  | .divShort => [Args.rangeA x]
  | .addLong => [Args.rangeA x, Args.rangeB x]
  | .mulLong => [Args.rangeA x, Args.rangeB x, Args.rangeP x]
  | .parse => [Args.rangeA x]
  | .format _ => [Args.rangeA x]

/-- Check 3 of R120: `MUL_LONG` with `LEN > N`, `FORMAT` with `LEN > 2 N`. -/
def lengthFails (i : Instr) (x : Args) (p : Params) : Bool :=
  match i with
  | .mulLong => decide (p.n < x.len.toNat)
  | .format _ => decide (2 * p.n < x.len.toNat)
  | .zeroFill | .copy | .isZero | .addShort | .mulShort | .divShort | .addLong | .parse => false

/-- Check 4 of R120: some range of the command is not in bounds. -/
def boundsFails (i : Instr) (x : Args) (p : Params) : Bool :=
  (ranges i x).any (fun r => !r.inBounds p)

/-- Check 5 of R120: `COPY` and `ADD_LONG` with overlapping ranges, `MUL_LONG` with its product over a
factor. The two factors may overlap each other (R197). -/
def aliasFails (i : Instr) (x : Args) : Bool :=
  match i with
  | .copy => (Args.rangeA x).overlaps (Args.rangeB x)
  | .addLong => (Args.rangeA x).overlaps (Args.rangeB x)
  | .mulLong => (Args.rangeP x).overlaps (Args.rangeA x) || (Args.rangeP x).overlaps (Args.rangeB x)
  | .zeroFill | .isZero | .addShort | .mulShort | .divShort | .parse | .format _ => false

/-- Check 6 of R120: `DIV_SHORT` with `Wd = 0`. -/
def divisorFails (i : Instr) (x : Args) : Bool :=
  match i with
  | .divShort => decide (x.w = 0)
  | .zeroFill | .copy | .isZero | .addShort | .mulShort | .addLong | .mulLong | .parse | .format _ => false

/-- The argument checks of R120 after decoding, in their order: the first that fails gives the code. -/
def check (i : Instr) (x : Args) (p : Params) : Option FaultCode :=
  if lengthFails i x p then some .length
  else if boundsFails i x p then some .bounds
  else if aliasFails i x then some .aliasing
  else if divisorFails i x then some .divideByZero
  else none

end Sys2Proof.Machine
end

