-- ==== Sys2Proof/Machine/Ops.lean ====
section
/-!
DEFINITION. The named operations over the state: memory cells, `BUFRAM` words, the internal buffers, the
streams, raising a fault and returning from it, terminating, starting and completing a command, and the
word loop every command's pseudocode is made of (00_scope.md R11).
-/
namespace Sys2Proof.Machine

/-! ### Cells: a list of keys and values, keys strictly rising -/

/-- The value listed at `k`, if any. -/
def cellGet {α : Type} (k : Nat) : List (Nat × α) → Option α
  | [] => none
  | (j, v) :: rest => if k = j then some v else cellGet k rest

/-- List `v` at `k`, in place of what was listed there. -/
def cellPut {α : Type} (k : Nat) (v : α) : List (Nat × α) → List (Nat × α)
  | [] => [(k, v)]
  | (j, u) :: rest =>
    if k < j then (k, v) :: (j, u) :: rest
    else if k = j then (k, v) :: rest
    else (j, u) :: cellPut k v rest

/-- The canonical form: every key lies in `[lo, hi)` and the keys strictly rise. -/
def cellsWf {α : Type} (lo hi : Nat) : List (Nat × α) → Bool
  | [] => true
  | (j, _) :: rest => decide (lo ≤ j) && decide (j < hi) && cellsWf (j + 1) hi rest

/-! ### BUFRAM -/

/-- The canonical form of `BUFRAM`: addresses strictly rising, none beyond `BUF_WORDS` words. Memory itself
lists no value for an unwritten byte (its content is a free value, R370), so no listed entry equals one. -/
def Memory.wf (p : Params) (m : List Host.Cell) : Bool := cellsWf 0 (8 * p.bufWords) m

/-- Byte address `a` of `BUFRAM`. A byte nothing has written since the reset is a free value (R370). -/
def State.readByte (s : State) (a : Nat) : Byte := (cellGet a s.bufram).getD (Config.freeRam s.epoch a)

/-- Write byte address `a` of `BUFRAM`. -/
def State.writeByte (s : State) (a : Nat) (b : Byte) : State := s.setBufram (cellPut a b s.bufram)

/-- `MemRead(k, 1)` (R11): byte lane `j` of word `k` is byte `8 k + j` and carries bits `8 j + 7 : 8 j` (R73). -/
def State.readWord (s : State) (k : Nat) : Word :=
  (s.readByte (8 * k + 7) ++ s.readByte (8 * k + 6) ++ s.readByte (8 * k + 5) ++ s.readByte (8 * k + 4)
    ++ s.readByte (8 * k + 3) ++ s.readByte (8 * k + 2) ++ s.readByte (8 * k + 1) ++ s.readByte (8 * k) : BitVec 64)

/-- Byte lane `j` of a word (R73). -/
def lane (v : Word) (j : Nat) : Byte := v.extractLsb' (8 * j) 8

/-- `MemWrite(k, 1, v)` (R11). -/
def State.writeWord (s : State) (k : Nat) (v : Word) : State :=
  (((((((s.writeByte (8 * k) (lane v 0)).writeByte (8 * k + 1) (lane v 1)).writeByte (8 * k + 2) (lane v 2)).writeByte
    (8 * k + 3) (lane v 3)).writeByte (8 * k + 4) (lane v 4)).writeByte (8 * k + 5) (lane v 5)).writeByte
    (8 * k + 6) (lane v 6)).writeByte (8 * k + 7) (lane v 7)

/-- `Val(a, L)` (R11, R12): the number a word buffer holds, least significant word first. -/
def State.val (s : State) (a : Nat) : Nat → Nat
  | 0 => 0
  | n + 1 => (s.readWord a).toNat + 2 ^ 64 * s.val (a + 1) n

/-- List a free value of occasion `id` at the byte addresses `base` to `base + n - 1`. -/
def freeBytes (id base : Nat) : Nat → List Host.Cell → List Host.Cell
  | 0, m => m
  | n + 1, m => freeBytes id base n (cellPut (base + n) (Config.freeRam id (base + n)) m)

/-- The words of a range become unspecified (R229): every byte a fresh free value. -/
def State.unspecify (s : State) (r : Range) : State :=
  (s.setBufram (freeBytes (s.fresh + 1) (8 * r.base) (8 * r.count) s.bufram)).setFresh (s.fresh + 1)

/-! ### The internal buffers -/

/-- `SCR[k]` (R43). -/
def State.readScr (s : State) (k : Nat) : Word := (cellGet k s.scr).getD (Config.freeScr s.scrEpoch k)

/-- `SCR[k] <- v`. -/
def State.writeScr (s : State) (k : Nat) (v : Word) : State := s.setScr (cellPut k v s.scr)

/-- `FMT_BUF[k]` (R44). -/
def State.readFmt (s : State) (k : Nat) : Byte := (cellGet k s.fmtBuf).getD (Config.freeFmt s.fmtEpoch k)

/-- `FMT_BUF[k] <- b`. -/
def State.writeFmt (s : State) (k : Nat) (b : Byte) : State := s.setFmtBuf (cellPut k b s.fmtBuf)

/-- `SCR` becomes unspecified, as it is between commands (R43, R196): every word a fresh free value. -/
def State.forgetScr (s : State) : State := ((s.setScr []).setScrEpoch (s.fresh + 1)).setFresh (s.fresh + 1)

/-- `FMT_BUF` becomes unspecified, as it is between commands (R44): every byte a fresh free value. -/
def State.forgetFmt (s : State) : State := ((s.setFmtBuf []).setFmtEpoch (s.fresh + 1)).setFresh (s.fresh + 1)

/-- The largest `d` below `acc + 2^k` with `10^d ≤ v`, given `10^acc ≤ v`: one bit of `d` at a time. -/
def log10From (v : Nat) : Nat → Nat → Nat
  | 0, acc => acc
  | k + 1, acc => log10From v k (if 10 ^ (acc + 2 ^ k) ≤ v then acc + 2 ^ k else acc)

/-- `DIGCAP`, the number of decimal digits of `2^(128 N) - 1` (R8). -/
def digcap (p : Params) : Nat := log10From (2 ^ (128 * p.n) - 1) 20 0 + 1

/-! ### Streams -/

/-- Append a byte to `OUT`; the host has accepted it (R91). -/
def State.outWrite (s : State) (b : Byte) : State :=
  (s.setOutput (s.output ++ [b])).setOutReady (s.outReady - 1)

/-- Append a byte to `DIAG`; the host has accepted it (R91). -/
def State.diagWrite (s : State) (b : Byte) : State :=
  (s.setDiag (s.diag ++ [b])).setDiagReady (s.diagReady - 1)

/-- The host delivers an item of `IN`. After `End` the stream stays closed: no item is admitted (R89, log entry 8). -/
def State.deliver (s : State) (it : InItem) : State :=
  if s.input.contains .endItem then s else s.setInput (s.input ++ [it])

/-! ### Faults -/

/-- `raise Fault(code)` (R331): the three `STATUS` fields and nothing else. -/
def State.raiseFault (s : State) (code : FaultCode) : State := s.setStatus (s.status.withFault code)

/-- The return from a fault (R335, R346): the host clears `FAULT`, and with it `FAULT_CODE`. -/
def State.clearFault (s : State) : State := s.setStatus s.status.withoutFault

/-- A dropped access (R76, R122): `HAZ` and nothing else. -/
def State.drop (s : State) : State := s.setStatus s.status.withHaz

/-! ### The life of a command -/

/-- The loop a command starts in. -/
def firstPhase : Instr → Phase
  | .mulLong => .mulClear
  | .parse => .parseClear
  | .format _ => .fmtDivide
  | .zeroFill | .copy | .isZero | .addShort | .mulShort | .divShort | .addLong => .words

/-- The loop-carried value a command starts with: the addend for ADD_SHORT (R140), the flag 1 for
IS_ZERO (R270), else 0. -/
def firstCarry (i : Instr) (x : Args) : Word :=
  match i with
  | .addShort => x.w
  | .isZero => 1
  | .zeroFill | .copy | .mulShort | .divShort | .addLong | .mulLong | .parse | .format _ => 0

/-- The sequencer's record of a command just accepted (R121, R41). -/
def Running.start (i : Instr) (x : Args) : Running :=
  { op := i, args := x, phase := firstPhase i, idx := 0, outer := 0, carry := firstCarry i x, count := 0,
    trunc := false }

/-- The record as it enters another loop of its command: word index and carry at 0. -/
def Running.goto (r : Running) (ph : Phase) : Running := { r with phase := ph, idx := 0, carry := 0 }

/-- The command runs on with this record. -/
def State.run (s : State) (r : Running) : State := s.setSeq (.busy r)

/-- A command starts (R121). -/
def State.begin (s : State) (r : Running) : State := (s.setStatus s.status.started).run r

/-- A command completes with its outputs (R123, R40). -/
def State.complete (s : State) (result : Word) (trunc zero : Bool) : State :=
  ((s.setResult result).setStatus (s.status.completed trunc zero)).setSeq .idle

/-- `Terminate(code)` of a PARSE with arguments `x` (R340); its destination becomes unspecified (R229). -/
def State.terminate (s : State) (x : Args) (code : Byte) : State :=
  (((s.setStatus s.status.terminated).setExit code).setSeq .terminated).unspecify (Args.rangeA x)

/-- A `CMD` write that decodes to `i` (R121, R122): dropped while the block is blocked, a fault where an
argument check fails, else the command starts and `body` runs it. -/
def command (i : Instr) (body : Running → State → State) (s : State) : State :=
  if s.status.blocked then s.drop
  else
    match check i s.args s.params with
    | some code => s.raiseFault code
    | none => body (Running.start i s.args) (s.begin (Running.start i s.args))

/-- A `CMD` write whose command starts and does not run yet. -/
def accept (i : Instr) (s : State) : State := command i (fun _ t => t) s

/-- A `CMD` write that decodes to a fault (R105, R121, R122). -/
def rejectWord (code : FaultCode) (s : State) : State :=
  if s.status.blocked then s.drop else s.raiseFault code

/-! ### The word loop -/

/-- One word of a loop: from the word index and the loop-carried value to the next one. -/
abbrev WordBody := Nat → Word → State → Word × State

/-- `for i in lo..lo+n-1`, threading the loop-carried value. -/
def forWords (body : WordBody) : Nat → Nat → Word → State → Word × State
  | 0, _, c, s => (c, s)
  | n + 1, i, c, s => forWords body n (i + 1) (body i c s).1 (body i c s).2

end Sys2Proof.Machine
end

