-- ==== Sys2Proof/Machine/Buffer.lean ====
section
/-!
DEFINITION. The buffer utilities ZERO_FILL, COPY and IS_ZERO (44_buffer_utilities.md): for each the word
step of its loop, its completion, and its meaning.
-/
namespace Sys2Proof.Machine

/-- `MemWrite(base + i, 1, 0)`: ZERO_FILL (R280), and the zeroing of PARSE (R221) and MUL_LONG (R190). -/
def zeroWord (base : Nat) : WordBody := fun i c s => (c, s.writeWord (base + i) 0)

/-- `MemWrite(dst + i, 1, MemRead(src + i, 1))` (R275). -/
def copyWord (dst src : Nat) : WordBody := fun i c s => (c, s.writeWord (dst + i) (s.readWord (src + i)))

/-- `if MemRead(base + i, 1) != 0: z <- 0`, with the flag `z` as the loop-carried value (R270). -/
def testWord (base : Nat) : WordBody := fun i c s => (if s.readWord (base + i) = 0 then c else 0, s)

/-- ZERO_FILL completes: RESULT = 0, TRUNC = 0, ZERO = 0 (R280). -/
def zeroFillDone (_ : Word) (s : State) : State := s.complete 0 false false

/-- COPY completes: RESULT = 0, TRUNC = 0, ZERO = 0 (R275). -/
def copyDone (_ : Word) (s : State) : State := s.complete 0 false false

/-- IS_ZERO completes: RESULT and ZERO are the flag, TRUNC = 0 (R270). -/
def isZeroDone (z : Word) (s : State) : State := s.complete z false (decide (z ≠ 0))

/-- A command that is one word loop over `len` words: from its first carry to its completion. -/
def oneLoop (word : Args → WordBody) (done : Word → State → State) (r : Running) (s : State) : State :=
  done (forWords (word r.args) r.args.len.toNat 0 r.carry s).1 (forWords (word r.args) r.args.len.toNat 0 r.carry s).2

/-- The word step of ZERO_FILL. -/
def zeroFillWord (x : Args) : WordBody := zeroWord x.a.toNat

/-- The word step of COPY: destination `A`, source `B` (R102). -/
def copyArgsWord (x : Args) : WordBody := copyWord x.a.toNat x.b.toNat

/-- The word step of IS_ZERO. -/
def isZeroWord (x : Args) : WordBody := testWord x.a.toNat

/-- ZERO_FILL (R280). -/
def execZeroFill (s : State) : Host.Outcome State Fault Refusal :=
  .next (command .zeroFill (oneLoop zeroFillWord zeroFillDone) s)

/-- COPY (R275, R276). -/
def execCopy (s : State) : Host.Outcome State Fault Refusal :=
  .next (command .copy (oneLoop copyArgsWord copyDone) s)

/-- IS_ZERO (R270). -/
def execIsZero (s : State) : Host.Outcome State Fault Refusal :=
  .next (command .isZero (oneLoop isZeroWord isZeroDone) s)

end Sys2Proof.Machine
end

