-- ==== Sys2Proof/Machine/Short.lean ====
section
/-!
DEFINITION. Short arithmetic: ADD_SHORT, MUL_SHORT and DIV_SHORT (41_short_arithmetic.md). Every step
computes an exact natural number and splits it into the word that stays and the carry that moves on.
-/
namespace Sys2Proof.Machine

/-- One word of an addition with carry `c` into word `base + i` (R140). -/
def addWord (base : Nat) : WordBody := fun i c s =>
  let n := (s.readWord (base + i)).toNat + c.toNat
  (highWord n, s.writeWord (base + i) (lowWord n))

/-- One word of a multiplication by `w` with incoming carry `c` (R150). -/
def mulWord (base : Nat) (w : Word) : WordBody := fun i c s =>
  let n := (s.readWord (base + i)).toNat * w.toNat + c.toNat
  (highWord n, s.writeWord (base + i) (lowWord n))

/-- One word of a division by `w` with incoming remainder `c`: the `i`-th word from the top of `len`
words, so that the words go from `len - 1` down to 0 (R160). -/
def divWord (base len : Nat) (w : Word) : WordBody := fun i c s =>
  let k := base + (len - 1 - i)
  let d := c.toNat * 2 ^ 64 + (s.readWord k).toNat
  (lowWord (d % w.toNat), s.writeWord k (lowWord (d / w.toNat)))

/-- ADD_SHORT completes: RESULT is the carry-out, TRUNC says it is not 0, ZERO = 0 (R140). -/
def addShortDone (c : Word) (s : State) : State := s.complete c (carryLost c) false

/-- MUL_SHORT completes: RESULT is the carry-out word, TRUNC says it is not 0, ZERO = 0 (R150). -/
def mulShortDone (c : Word) (s : State) : State := s.complete c (carryLost c) false

/-- DIV_SHORT completes: RESULT is the remainder, TRUNC = 0, ZERO = 0 (R160). -/
def divShortDone (c : Word) (s : State) : State := s.complete c false false

/-- The word step of ADD_SHORT; the addend is the first carry (R140). -/
def addShortWord (x : Args) : WordBody := addWord x.a.toNat

/-- The word step of MUL_SHORT. -/
def mulShortWord (x : Args) : WordBody := mulWord x.a.toNat x.w

/-- The word step of DIV_SHORT. -/
def divShortWord (x : Args) : WordBody := divWord x.a.toNat x.len.toNat x.w

/-- ADD_SHORT (R140). -/
def execAddShort (s : State) : Host.Outcome State Fault Refusal :=
  .next (command .addShort (oneLoop addShortWord addShortDone) s)

/-- MUL_SHORT (R150). -/
def execMulShort (s : State) : Host.Outcome State Fault Refusal :=
  .next (command .mulShort (oneLoop mulShortWord mulShortDone) s)

/-- DIV_SHORT (R160, R163). -/
def execDivShort (s : State) : Host.Outcome State Fault Refusal :=
  .next (command .divShort (oneLoop divShortWord divShortDone) s)

end Sys2Proof.Machine
end

