-- ==== Sys2Proof/Machine/Decimal.lean ====
section
/-!
DEFINITION. The decimal codec: PARSE and FORMAT (43_decimal_codec.md).
-/
namespace Sys2Proof.Machine

/-- The newline byte (R224). -/
def newline : Byte := 0x0A

/-! ### PARSE -/

/-- What the state `Accumulating` does with one item (R220). -/
inductive ParseMove where
  /-- `End` before any digit: `InputExhausted` (R225). -/
  | exhausted
  /-- The numeral is complete (R221, R226). -/
  | complete
  /-- A digit of this value (R222). -/
  | digit (d : Word)
  /-- An invalid byte (R224, R227). -/
  | invalid (x : Byte)
deriving DecidableEq, Repr

/-- The rows of R220 for the state `Accumulating` after `n` digits. -/
def parseMove (n : Nat) : InItem → ParseMove
  | .endItem => if n = 0 then .exhausted else .complete
  | .byte b =>
    if b = newline then .complete
    else if 0x30 ≤ b.toNat ∧ b.toNat ≤ 0x39 then .digit (lowWord (b.toNat - 0x30))
    else .invalid b

/-- What is left of `IN` once its first item is taken: `End` stays (R89, R231). -/
def restOf : InItem → List InItem → List InItem
  | .endItem, rest => .endItem :: rest
  | .byte _, rest => rest

/-- The word step of PARSE's zeroing. -/
def parseClearWord (x : Args) : WordBody := zeroWord x.a.toNat

/-- The word step of the digit step's multiplication by 10 (R222). -/
def parseTimesWord (x : Args) : WordBody := mulWord x.a.toNat 10

/-- The word step of the digit step's addition (R222). -/
def parseAddWord (x : Args) : WordBody := addWord x.a.toNat

/-- `DigitStep(a, L, d)` (R222): times 10, plus `d`; whether a non-zero carry-out was discarded. -/
def digitStep (x : Args) (d : Word) (s : State) : Bool × State :=
  let m := forWords (parseTimesWord x) x.len.toNat 0 0 s
  let p := forWords (parseAddWord x) x.len.toNat 0 d m.2
  (carryLost m.1 || carryLost p.1, p.2)

/-- The bytes of "Invalid character: " (R228). -/
def diagLead : List Byte :=
  [0x49, 0x6E, 0x76, 0x61, 0x6C, 0x69, 0x64, 0x20, 0x63, 0x68, 0x61, 0x72, 0x61, 0x63, 0x74, 0x65,
    0x72, 0x3A, 0x20]

/-- The 21 bytes of the diagnostic for the invalid byte `x` (R227, R228). -/
def diagnostic (x : Byte) : List Byte := diagLead ++ [x, newline]

/-- PARSE completes: RESULT is the digit count mod 2^64, TRUNC the flag gathered, ZERO = 0 (R221). -/
def parseDone (n : Nat) (t : Bool) (s : State) : State := s.complete (lowWord n) t false

/-- Discard items up to and including the next newline, or up to `End` (R227), then `Terminate(1)`; held
when no item is there (R90). -/
def skipLine (r : Running) : List InItem → State → State
  | [], s => s.run (r.goto .parseSkip)
  | .endItem :: _, s => s.terminate r.args 1
  | .byte b :: rest, s =>
    if b = newline then (s.setInput rest).terminate r.args 1 else skipLine r rest (s.setInput rest)

/-- Emit diagnostic bytes while the host accepts them (R91); how far it came. -/
def emitDiag : List Byte → Nat → State → Nat × State
  | [], k, s => (k, s)
  | b :: rest, k, s => if s.diagReady = 0 then (k, s) else emitDiag rest (k + 1) (s.diagWrite b)

/-- `Diagnose(x)` (R227): the diagnostic, then the rest of the line; held where the host does not accept. -/
def diagnose (r : Running) (x : Byte) (s : State) : State :=
  let p := emitDiag (diagnostic x) 0 s
  if p.1 < (diagnostic x).length then p.2.run { r.goto (.parseDiag x) with idx := p.1 }
  else skipLine r p.2.input p.2

/-- The loop of R221 over the items there are, `r` counting digits and truncation; held when no item is
left (R90). -/
def parseItems : Running → List InItem → State → State
  | r, [], s => s.run (r.goto .parseRead)
  | r, it :: rest, s =>
    match parseMove r.count it with
    | .exhausted => s.terminate r.args 2
    | .complete => parseDone r.count r.trunc (s.setInput (restOf it rest))
    | .digit d =>
      let q := digitStep r.args d (s.setInput rest)
      parseItems { r with count := r.count + 1, trunc := r.trunc || q.1 } rest q.2
    | .invalid x => diagnose r x (s.setInput rest)

/-- All of PARSE after its start. -/
def parseRun (r : Running) (s : State) : State :=
  let s0 := (forWords (parseClearWord r.args) r.args.len.toNat 0 0 s).2
  parseItems r s0.input s0

/-- PARSE (R221). -/
def execParse (s : State) : Host.Outcome State Fault Refusal :=
  .next (command .parse parseRun s)

/-! ### FORMAT -/

/-- The word step of FORMAT's division by 10 (R240). -/
def formatDivWord (x : Args) : WordBody := divWord x.a.toNat x.len.toNat 10

/-- The word step of FORMAT's zero test (R240, R270). -/
def formatTestWord (x : Args) : WordBody := testWord x.a.toNat

/-- The digit byte of a remainder (R243). -/
def digitByte (r : Word) : Byte := BitVec.ofNat 8 (0x30 + r.toNat)

/-- Place the `n`-th digit from the end of `FMT_BUF`: `FMT_BUF[DIGCAP - n] <- 0x30 + r` (R240). -/
def placeDigit (n : Nat) (r : Word) (s : State) : State :=
  s.writeFmt (digcap s.params - n) (digitByte r)

/-- The do-while loop of R240 for at most `fuel` divisions: the digit count, and the state. A buffer of
`L` words is zero after at most `64 L + 1` divisions by 10. -/
def formatDigits (x : Args) : Nat → Nat → State → Nat × State
  | 0, n, s => (n, s)
  | fuel + 1, n, s =>
    let q := forWords (formatDivWord x) x.len.toNat 0 0 s
    let s1 := placeDigit (n + 1) q.1 q.2
    let z := forWords (formatTestWord x) x.len.toNat 0 1 s1
    if z.1 = 0 then formatDigits x fuel (n + 1) z.2 else (n + 1, z.2)

/-- The digit bytes still to emit, from the `k`-th of `n`. -/
def emittedDigit (n k : Nat) (s : State) : Byte := s.readFmt (digcap s.params - n + k)

/-- Emit digits `k` to `k + m - 1` of `n` while the host accepts them (R240, R91); how far it came. -/
def emitDigits (n : Nat) : Nat → Nat → State → Nat × State
  | 0, k, s => (k, s)
  | m + 1, k, s => if s.outReady = 0 then (k, s) else emitDigits n m (k + 1) (s.outWrite (emittedDigit n k s))

/-- FORMAT completes: RESULT is the digit count, TRUNC = 0, ZERO = 0 (R240), and `FMT_BUF` is unspecified
again (R44). -/
def formatDone (n : Nat) (s : State) : State := (s.complete (lowWord n) false false).forgetFmt

/-- After the last digit: the newline if it is asked for (R240), held where the host does not accept. -/
def formatTail (r : Running) (s : State) : State :=
  if r.op.nlBit then
    if s.outReady = 0 then s.run (r.goto .fmtNewline) else formatDone r.count (s.outWrite newline)
  else formatDone r.count s

/-- All of FORMAT after its start. -/
def formatRun (r : Running) (s : State) : State :=
  let q := formatDigits r.args (64 * r.args.len.toNat + 1) 0 s
  let r1 := { r with count := q.1 }
  let p := emitDigits q.1 q.1 0 q.2
  if p.1 < q.1 then p.2.run { r1.goto .fmtEmit with idx := p.1 } else formatTail r1 p.2

/-- FORMAT, and FORMAT.NL with `nl` (R240). -/
def execFormat (nl : Bool) (s : State) : Host.Outcome State Fault Refusal :=
  .next (command (.format nl) formatRun s)

end Sys2Proof.Machine
end

