-- ==== Sys2Proof/Machine/Long.lean ====
section
/-!
DEFINITION. Long arithmetic: ADD_LONG and MUL_LONG (42_long_arithmetic.md).
-/
namespace Sys2Proof.Machine

/-- One word of the addition of a source buffer into a destination buffer (R180). -/
def addLongWord (x : Args) : WordBody := fun i c s =>
  let n := (s.readWord (x.a.toNat + i)).toNat + (s.readWord (x.b.toNat + i)).toNat + c.toNat
  (highWord n, s.writeWord (x.a.toNat + i) (lowWord n))

/-- ADD_LONG completes: RESULT is the carry-out, TRUNC says it is not 0, ZERO = 0 (R180). -/
def addLongDone (c : Word) (s : State) : State := s.complete c (carryLost c) false

/-- ADD_LONG (R180, R182). -/
def execAddLong (s : State) : Host.Outcome State Fault Refusal :=
  .next (command .addLong (oneLoop addLongWord addLongDone) s)

/-! ### MUL_LONG, step by step (R190) -/

/-- Step 0: clear one word of the product. -/
def productClearWord (x : Args) : WordBody := zeroWord x.p.toNat

/-- Step 1: `SCR[k] <- 0`. -/
def scratchZeroWord : WordBody := fun k c s => (c, s.writeScr k 0)

/-- Step 2: `SCR[k] <- MemRead(a + k, 1)`. -/
def scratchLoadWord (x : Args) : WordBody := fun k c s => (c, s.writeScr k (s.readWord (x.a.toNat + k)))

/-- Step 3: `q <- SCR[k] * m + c`, with `m` the word `i` of the second factor. -/
def scratchMulWord (x : Args) (i : Nat) : WordBody := fun k c s =>
  let q := (s.readScr k).toNat * (s.readWord (x.b.toNat + i)).toNat + c.toNat
  (highWord q, s.writeScr k (lowWord q))

/-- Step 4: add `SCR[k]` into word `i + k` of the product. -/
def productAddWord (x : Args) (i : Nat) : WordBody := fun k c s =>
  let n := (s.readWord (x.p.toNat + i + k)).toNat + (s.readScr k).toNat + c.toNat
  (highWord n, s.writeWord (x.p.toNat + i + k) (lowWord n))

/-- Steps 1 to 4 for the word `i` of the second factor; the flag gathers the carry-outs `mc` and `ac`. -/
def mulRow (x : Args) (i : Nat) (t : Bool) (s : State) : Bool × State :=
  let len := x.len.toNat
  let s1 := (forWords scratchZeroWord (len + 1) 0 0 s).2
  let s2 := (forWords (scratchLoadWord x) len 0 0 s1).2
  let m := forWords (scratchMulWord x i) (len + 1) 0 0 s2
  let p := forWords (productAddWord x i) (len + 1) 0 0 m.2
  (t || carryLost m.1 || carryLost p.1, p.2)

/-- `for i in lo..lo+n-1` of steps 1 to 4. -/
def mulRows (x : Args) : Nat → Nat → Bool → State → Bool × State
  | 0, _, t, s => (t, s)
  | n + 1, i, t, s => mulRows x n (i + 1) (mulRow x i t s).1 (mulRow x i t s).2

/-- MUL_LONG completes: RESULT = 0, TRUNC gathers the internal carry-outs, ZERO = 0 (R190), and `SCR` is
unspecified again (R43). -/
def mulLongDone (t : Bool) (s : State) : State := (s.complete 0 t false).forgetScr

/-- All of MUL_LONG after its start. -/
def mulLongRun (r : Running) (s : State) : State :=
  let s0 := (forWords (productClearWord r.args) (2 * r.args.len.toNat) 0 0 s).2
  let p := mulRows r.args r.args.len.toNat 0 false s0
  mulLongDone p.1 p.2

/-- MUL_LONG (R190, R197). -/
def execMulLong (s : State) : Host.Outcome State Fault Refusal :=
  .next (command .mulLong mulLongRun s)

end Sys2Proof.Machine
end

