-- ==== Sys2Proof/Machine/Sequencer.lean ====
section
/-!
DEFINITION. The sequencer turn by turn (10_state.md R41, R42): one word operation or one stream item a
turn, from the record of the running command. It is built of the same word steps and completions as the
meanings in Buffer, Short, Long and Decimal; a host action that the agenda places during a command falls
between two turns.
-/
namespace Sys2Proof.Machine

/-- The phases of MUL_LONG. -/
def Phase.ofMulLong : Phase → Bool
  | .mulClear | .mulZero | .mulLoad | .mulTimes | .mulAdd => true
  | .words | .parseClear | .parseRead | .parseTimes _ | .parseAdd | .parseDiag _ | .parseSkip
  | .fmtDivide | .fmtTest | .fmtEmit | .fmtNewline => false

/-- The phases of PARSE. -/
def Phase.ofParse : Phase → Bool
  | .parseClear | .parseRead | .parseTimes _ | .parseAdd | .parseDiag _ | .parseSkip => true
  | .words | .mulClear | .mulZero | .mulLoad | .mulTimes | .mulAdd
  | .fmtDivide | .fmtTest | .fmtEmit | .fmtNewline => false

/-- The phases of FORMAT; the newline belongs to FORMAT.NL only. -/
def Phase.ofFormat (nl : Bool) : Phase → Bool
  | .fmtDivide | .fmtTest | .fmtEmit => true
  | .fmtNewline => nl
  | .words | .mulClear | .mulZero | .mulLoad | .mulTimes | .mulAdd
  | .parseClear | .parseRead | .parseTimes _ | .parseAdd | .parseDiag _ | .parseSkip => false

/-- The phases a command goes through. -/
def Phase.fits (ph : Phase) (i : Instr) : Bool :=
  match i with
  | .zeroFill | .copy | .isZero | .addShort | .mulShort | .divShort | .addLong => decide (ph = .words)
  | .mulLong => ph.ofMulLong
  | .parse => ph.ofParse
  | .format nl => ph.ofFormat nl

/-- The phases of MUL_LONG that work on one word of the second factor. -/
def Phase.inRow : Phase → Bool
  | .mulZero | .mulLoad | .mulTimes | .mulAdd => true
  | .words | .mulClear | .parseClear | .parseRead | .parseTimes _ | .parseAdd | .parseDiag _ | .parseSkip
  | .fmtDivide | .fmtTest | .fmtEmit | .fmtNewline => false

/-- The record is one of an accepted command: its arguments pass R120, its phase is one of its command's,
and a row of MUL_LONG is a row of the factor. -/
def Running.wellFormed (r : Running) (p : Params) : Bool :=
  decide (check r.op r.args p = none) && r.phase.fits r.op
    && (!r.phase.inRow || decide (r.outer < r.args.len.toNat))

/-- The parse state of a running PARSE (R42). `Done` and `Terminated` end the command in the same turn. -/
def Running.parseState (r : Running) : Option ParseState :=
  match r.phase with
  | .parseClear | .parseRead | .parseTimes _ | .parseAdd => some .accumulating
  | .parseDiag _ | .parseSkip => some .invalidCharacter
  | .words | .mulClear | .mulZero | .mulLoad | .mulTimes | .mulAdd
  | .fmtDivide | .fmtTest | .fmtEmit | .fmtNewline => none

/-- The command is held on a stream (R90, R91, R353): it needs an item or an acceptance of the host. -/
def Running.held (r : Running) (s : State) : Bool :=
  match r.phase with
  | .parseRead | .parseSkip => s.input.isEmpty
  | .parseDiag x => decide (r.idx < (diagnostic x).length) && decide (s.diagReady = 0)
  | .fmtEmit => decide (r.idx < r.count) && decide (s.outReady = 0)
  | .fmtNewline => decide (s.outReady = 0)
  | .words | .mulClear | .mulZero | .mulLoad | .mulTimes | .mulAdd | .parseClear | .parseTimes _ | .parseAdd
  | .fmtDivide | .fmtTest => false

/-- One turn of a word loop over `len` words: the next word, or, past the last one, what follows the loop. -/
def loopTurn (body : WordBody) (len : Nat) (after : Running → State → State) (r : Running) (s : State) : State :=
  if r.idx < len then
    let q := body r.idx r.carry s
    q.2.run { r with idx := r.idx + 1, carry := q.1 }
  else after r s

/-- A turn of a command that is one word loop. -/
def oneLoopTurn (word : Args → WordBody) (done : Word → State → State) (r : Running) (s : State) : State :=
  loopTurn (word r.args) r.args.len.toNat (fun r s => done r.carry s) r s

/-- Enter the row of word `i` of the second factor, or complete after the last (R190). -/
def mulNext (i : Nat) (r : Running) (s : State) : State :=
  if i < r.args.len.toNat then s.run { r.goto .mulZero with outer := i } else mulLongDone r.trunc s

/-- PARSE in `Accumulating` takes an item (R220, R221). -/
def parseTake (r : Running) (s : State) : State :=
  match s.input with
  | [] => s
  | it :: rest =>
    match parseMove r.count it with
    | .exhausted => s.terminate r.args 2
    | .complete => parseDone r.count r.trunc (s.setInput (restOf it rest))
    | .digit d => (s.setInput rest).run (r.goto (.parseTimes d))
    | .invalid x => (s.setInput rest).run (r.goto (.parseDiag x))

/-- PARSE in `InvalidCharacter` discards an item or terminates (R220, R227). -/
def parseDiscard (r : Running) (s : State) : State :=
  match s.input with
  | [] => s
  | .endItem :: _ => s.terminate r.args 1
  | .byte b :: rest =>
    if b = newline then (s.setInput rest).terminate r.args 1 else s.setInput rest

/-- PARSE writes the next byte of its diagnostic (R227). -/
def diagTurn (x : Byte) (r : Running) (s : State) : State :=
  match (diagnostic x)[r.idx]? with
  | some b => (s.diagWrite b).run { r with idx := r.idx + 1 }
  | none => s.run (r.goto .parseSkip)

/-- FORMAT emits the next digit, or goes on to the newline or its completion (R240). -/
def emitTurn (r : Running) (s : State) : State :=
  if r.idx < r.count then
    (s.outWrite (emittedDigit r.count r.idx s)).run { r with idx := r.idx + 1 }
  else if r.op.nlBit then s.run (r.goto .fmtNewline)
  else formatDone r.count s

/-- One turn of the running command. -/
def turn (r : Running) (s : State) : State :=
  let len := r.args.len.toNat
  match r.phase with
  | .words =>
    match r.op with
    | .zeroFill => oneLoopTurn zeroFillWord zeroFillDone r s
    | .copy => oneLoopTurn copyArgsWord copyDone r s
    | .isZero => oneLoopTurn isZeroWord isZeroDone r s
    | .addShort => oneLoopTurn addShortWord addShortDone r s
    | .mulShort => oneLoopTurn mulShortWord mulShortDone r s
    | .divShort => oneLoopTurn divShortWord divShortDone r s
    | .addLong => oneLoopTurn addLongWord addLongDone r s
    | .mulLong | .parse | .format _ => s
  | .mulClear => loopTurn (productClearWord r.args) (2 * len) (mulNext 0) r s
  | .mulZero => loopTurn scratchZeroWord (len + 1) (fun r s => s.run (r.goto .mulLoad)) r s
  | .mulLoad => loopTurn (scratchLoadWord r.args) len (fun r s => s.run (r.goto .mulTimes)) r s
  | .mulTimes =>
    loopTurn (scratchMulWord r.args r.outer) (len + 1)
      (fun r s => s.run ({ r with trunc := r.trunc || carryLost r.carry }.goto .mulAdd)) r s
  | .mulAdd =>
    loopTurn (productAddWord r.args r.outer) (len + 1)
      (fun r s => mulNext (r.outer + 1) { r with trunc := r.trunc || carryLost r.carry } s) r s
  | .parseClear => loopTurn (parseClearWord r.args) len (fun r s => s.run (r.goto .parseRead)) r s
  | .parseRead => parseTake r s
  | .parseTimes d =>
    loopTurn (parseTimesWord r.args) len
      (fun r s => s.run { r.goto .parseAdd with carry := d, trunc := r.trunc || carryLost r.carry }) r s
  | .parseAdd =>
    loopTurn (parseAddWord r.args) len
      (fun r s => s.run ({ r with count := r.count + 1, trunc := r.trunc || carryLost r.carry }.goto .parseRead)) r s
  | .parseDiag x => diagTurn x r s
  | .parseSkip => parseDiscard r s
  | .fmtDivide =>
    loopTurn (formatDivWord r.args) len
      (fun r s => (placeDigit (r.count + 1) r.carry s).run
        { r.goto .fmtTest with carry := 1, count := r.count + 1 }) r s
  | .fmtTest =>
    loopTurn (formatTestWord r.args) len
      (fun r s => s.run (r.goto (if r.carry = 0 then .fmtDivide else .fmtEmit))) r s
  | .fmtEmit => emitTurn r s
  | .fmtNewline => formatDone r.count (s.outWrite newline)

/-- Whether the sequencer can move: a command runs and is not held (R41, R353). -/
def State.movable (s : State) : Bool :=
  match s.seq with
  | .idle => false
  | .busy r => !r.held s
  | .terminated => false

/-- The sequencer's turn: the running command moves on, unless it is held; idle and terminated, it
waits (R370, R341). -/
def sequencerTurn (s : State) : Host.Outcome State Fault Refusal :=
  match s.seq with
  | .idle => .next s
  | .busy r =>
    if r.wellFormed s.params then .next (if r.held s then s else turn r s) else .fault .strayCommand
  | .terminated => .next s

end Sys2Proof.Machine
end

