-- ==== Sys2Proof/Machine/Window.lean ====
section
/-!
DEFINITION. The register window (20_memory.md R75, R76, R79 to R81; 10_state.md R33 to R38): where a bus
address leads, what a host read returns, and what a host write other than one to `CMD` does.
-/
namespace Sys2Proof.Machine

/-- What a window offset names (R79). -/
inductive Target where
  | param
  | status
  | cmd
  | argA
  | argB
  | argP
  | argLen
  | argW
  | result
  | exit
  | ram (k : Nat)
  | reserved
deriving DecidableEq, Repr

/-- Where an access leads: to a target, to the error response of R75, or outside the window (R80). -/
inductive Decoding where
  | target (t : Target)
  | refused
  | outside
deriving DecidableEq, Repr

/-- The window is `0x90000` bytes long (R79). -/
def windowBytes : Nat := 0x90000

/-- The offset of `BUFRAM` word 0 (R79). -/
def ramOffset : Nat := 0x10000

/-- The map of R79 for an offset in the window that is a multiple of 8. -/
def targetAt (p : Params) (off : Nat) : Target :=
  if off = 0x000 then .param
  else if off = 0x008 then .status
  else if off = 0x010 then .cmd
  else if off = 0x018 then .argA
  else if off = 0x020 then .argB
  else if off = 0x028 then .argP
  else if off = 0x030 then .argLen
  else if off = 0x038 then .argW
  else if off = 0x040 then .result
  else if off = 0x048 then .exit
  else if ramOffset ≤ off ∧ (off - ramOffset) / 8 < p.bufWords then .ram ((off - ramOffset) / 8)
  else .reserved

/-- Decode an access of `width` bits at bus address `addr`: outside the window it is not the block's (R80);
inside, it must be 64 bits wide at an offset that is a multiple of 8 (R75). -/
def decodeAccess (p : Params) (addr width : Nat) : Decoding :=
  if addr < p.mmioBase ∨ p.mmioBase + windowBytes ≤ addr then .outside
  else if width ≠ 64 ∨ (addr - p.mmioBase) % 8 ≠ 0 then .refused
  else .target (targetAt p (addr - p.mmioBase))

/-- The value of `PARAM`: `BUF_WORDS` in bits 31:0 and `N` in bits 63:32 (R33). -/
def paramWord (p : Params) : Word := (BitVec.ofNat 32 p.n ++ BitVec.ofNat 32 p.bufWords : BitVec 64)

/-- The data a read of a target returns (R33 to R38, R80; R76 for a `BUFRAM` word while busy). -/
def readValue (t : Target) (s : State) : Word :=
  match t with
  | .param => paramWord s.params
  | .status => s.status.word
  | .cmd => 0
  | .argA => s.args.a.setWidth 64
  | .argB => s.args.b.setWidth 64
  | .argP => s.args.p.setWidth 64
  | .argLen => s.args.len.setWidth 64
  | .argW => s.args.w
  | .result => s.result
  | .exit => s.exit.setWidth 64
  | .ram k => if s.status.busy then 0 else s.readWord k
  | .reserved => 0

/-- The one side effect of a read: `HAZ` for a `BUFRAM` word while busy (R76, R81). -/
def readEffect (t : Target) (s : State) : State :=
  match t with
  | .ram _ => if s.status.busy then s.drop else s
  | .param | .status | .cmd | .argA | .argB | .argP | .argLen | .argW | .result | .exit | .reserved => s

/-- A host read. -/
def hostRead (addr width : Nat) (s : State) : State :=
  match decodeAccess s.params addr width with
  | .target t => (readEffect t s).setReply (.data (readValue t s))
  | .refused => s.setReply .busError
  | .outside => s.setReply .undecoded

/-- A store that the busy rule drops (R76). -/
def unlessBusy (store : State → State) (s : State) : State := if s.status.busy then s.drop else store s

/-- What a write of `v` to a target other than `CMD` does (R33 to R38, R76, R80). The low 16 bits of an
`ARG_*` register are live (R36). -/
def writeTarget (t : Target) (v : Word) (s : State) : State :=
  match t with
  | .status => s.setStatus (s.status.write v)
  | .argA => unlessBusy (fun s => s.setArgs { s.args with a := v.setWidth 16 }) s
  | .argB => unlessBusy (fun s => s.setArgs { s.args with b := v.setWidth 16 }) s
  | .argP => unlessBusy (fun s => s.setArgs { s.args with p := v.setWidth 16 }) s
  | .argLen => unlessBusy (fun s => s.setArgs { s.args with len := v.setWidth 16 }) s
  | .argW => unlessBusy (fun s => s.setArgs { s.args with w := v }) s
  | .ram k => unlessBusy (fun s => s.writeWord k v) s
  | .param | .cmd | .result | .exit | .reserved => s

end Sys2Proof.Machine
end

