-- ==== Sys2Proof/Machine/Agenda.lean ====
section
/-!
DEFINITION. The host's actions and their place among the sequencer's turns (45_driver_sequence.md R309,
20_memory.md R84, 70_reset_and_hazards.md R371). The meaning of a command is the argument `ex`;
Step.lean gives it exec.
-/
namespace Sys2Proof.Machine

/-- Reset (R370, R371): every register at its reset value, the content of the memories unspecified anew,
the parameters kept. The streams and the agenda are the host's and stay as they are. -/
def State.afterReset (s : State) : State :=
  { State.reset with
    params := s.params, input := s.input, output := s.output, diag := s.diag, outReady := s.outReady,
    diagReady := s.diagReady, agenda := s.agenda, epoch := s.fresh + 1, scrEpoch := s.fresh + 1,
    fmtEpoch := s.fresh + 1, fresh := s.fresh + 1 }

/-- The agenda's next entry falls during the command that starts now. -/
def State.overlapped (s : State) : Bool :=
  match s.agenda with
  | .now _ :: _ => true
  | .turn :: _ => true
  | .rest _ :: _ => false
  | [] => false

/-- A host write of `v` to `CMD` (R121, R122): decode it (R110); a command runs to its end or to a hold,
or only starts where the host's next action falls during it. -/
def writeCmd (ex : Instr → State → Host.Outcome State Fault Refusal) (v : Word) (s : State) :
    Host.Outcome State Fault Refusal :=
  match decode v with
  | .fault code => .next (rejectWord code s)
  | .command i => if s.overlapped then .next (accept i s) else ex i s

/-- A host write (R75, R79, R80). -/
def hostWrite (ex : Instr → State → Host.Outcome State Fault Refusal) (addr width : Nat) (v : Word) (s : State) :
    Host.Outcome State Fault Refusal :=
  match decodeAccess s.params addr width with
  | .target .cmd => writeCmd ex v (s.setReply .ack)
  | .target t => .next (writeTarget t v (s.setReply .ack))
  | .refused => .next (s.setReply .busError)
  | .outside => .next (s.setReply .undecoded)

/-- A host action (R309). -/
def act (ex : Instr → State → Host.Outcome State Fault Refusal) (a : HostAction) (s : State) :
    Host.Outcome State Fault Refusal :=
  match a with
  | .read addr width => .next (hostRead addr width s)
  | .write addr width v => hostWrite ex addr width v s
  | .deliver it => .next (s.deliver it)
  | .readyOut k => .next (s.setOutReady (s.outReady + k))
  | .readyDiag k => .next (s.setDiagReady (s.diagReady + k))
  | .reset => .next s.afterReset

/-- One step: the agenda's next entry takes effect, or the sequencer takes a turn. -/
def stepWith (ex : Instr → State → Host.Outcome State Fault Refusal) (s : State) :
    Host.Outcome State Fault Refusal :=
  match s.agenda with
  | [] => sequencerTurn s
  | .turn :: rest => sequencerTurn (s.setAgenda rest)
  | .now a :: rest => act ex a (s.setAgenda rest)
  | .rest a :: rest => if s.movable then sequencerTurn s else act ex a (s.setAgenda rest)

/-- The host's next action is the write of a `CMD` value whose table bits are `w` (R121), and nothing
else is planned, so that the command the value holds runs at once. -/
def placeCommand (s : State) (nbits w : Nat) : State :=
  s.setAgenda [.now (.write (s.params.mmioBase + 0x010) 64 (BitVec.ofNat 64 (w % 2 ^ nbits)))]

end Sys2Proof.Machine
end

