-- ==== Sys2Proof/Machine/Dispatch.lean ====
section
/-!
DEFINITION. One arm per command: what a `CMD` write that decodes to it does, up to its end or to the
point where it is held on a stream.
-/
namespace Sys2Proof.Machine

def exec (i : Instr) (s : State) : Host.Outcome State Fault Refusal :=
  match i with
  | .zeroFill => Sys2Proof.Machine.execZeroFill s
  | .copy => Sys2Proof.Machine.execCopy s
  | .isZero => Sys2Proof.Machine.execIsZero s
  | .addShort => Sys2Proof.Machine.execAddShort s
  | .mulShort => Sys2Proof.Machine.execMulShort s
  | .divShort => Sys2Proof.Machine.execDivShort s
  | .addLong => Sys2Proof.Machine.execAddLong s
  | .mulLong => Sys2Proof.Machine.execMulLong s
  | .parse => Sys2Proof.Machine.execParse s
  | .format nl => Sys2Proof.Machine.execFormat nl s

end Sys2Proof.Machine
end

