-- ==== Sys2Proof/Machine/Step.lean ====
section
/-!
DEFINITION. The step of the machine: Agenda.lean's step with exec as the meaning of a command.
-/
namespace Sys2Proof.Machine

/-- One step of the block and its host. -/
def step (s : State) : Host.Outcome State Fault Refusal := stepWith exec s

/-- The state whose very next step is the host's write to `CMD` of a value whose table bits are `w`. The
block fetches no instruction (R32); a program is a host program, loaded from outside into the agenda
(log entry 9). -/
def State.withFetchWord (s : State) (nbits w : Nat) : State := placeCommand s nbits w

end Sys2Proof.Machine
end

