-- ==== Sys2Proof/Machine/Driver.lean ====
section
/-!
DEFINITION. The host as a program: command lines and pseudo-instructions and what they expand to
(30_encoding.md R107 to R109), a host that runs them against the block, and the driver program with the
ends of its run (45_driver_sequence.md R300 to R310). It adds nothing to the block.
-/
namespace Sys2Proof.Machine

/-- A named register of the window (R79). -/
inductive RegName where
  | param
  | status
  | cmd
  | argA
  | argB
  | argP
  | argLen
  | argW
  | result
  | exit
deriving DecidableEq, Repr

/-- The offset of a register (R79). -/
def RegName.offset : RegName → Nat
  | .param => 0x000
  | .status => 0x008
  | .cmd => 0x010
  | .argA => 0x018
  | .argB => 0x020
  | .argP => 0x028
  | .argLen => 0x030
  | .argW => 0x038
  | .result => 0x040
  | .exit => 0x048

/-- The command lines of R107, operands in the order of the syntax. -/
inductive CommandLine where
  | zeroFill (a len : Half)
  | copy (dst src len : Half)
  | isZero (a len : Half)
  | addShort (a len : Half) (w : Word)
  | mulShort (a len : Half) (w : Word)
  | divShort (a len : Half) (w : Word)
  | addLong (dst src len : Half)
  | mulLong (p a b len : Half)
  | parse (a len : Half)
  | format (a len : Half)
  | formatNl (a len : Half)
deriving DecidableEq, Repr

/-- The command of a line (R107). -/
def CommandLine.instr : CommandLine → Instr
  | .zeroFill _ _ => .zeroFill
  | .copy _ _ _ => .copy
  | .isZero _ _ => .isZero
  | .addShort _ _ _ => .addShort
  | .mulShort _ _ _ => .mulShort
  | .divShort _ _ _ => .divShort
  | .addLong _ _ _ => .addLong
  | .mulLong _ _ _ _ => .mulLong
  | .parse _ _ => .parse
  | .format _ _ => .format false
  | .formatNl _ _ => .format true

/-- The argument registers a line sets (R107), the others as they are. -/
def CommandLine.args (c : CommandLine) (x : Args) : Args :=
  match c with
  | .zeroFill a len => { x with a := a, len := len }
  | .copy dst src len => { x with a := dst, b := src, len := len }
  | .isZero a len => { x with a := a, len := len }
  | .addShort a len w => { x with a := a, len := len, w := w }
  | .mulShort a len w => { x with a := a, len := len, w := w }
  | .divShort a len w => { x with a := a, len := len, w := w }
  | .addLong dst src len => { x with a := dst, b := src, len := len }
  | .mulLong p a b len => { x with a := a, b := b, p := p, len := len }
  | .parse a len => { x with a := a, len := len }
  | .format a len => { x with a := a, len := len }
  | .formatNl a len => { x with a := a, len := len }

/-- The operands of a line, separated by commas. -/
def operandText : List Nat → String
  | [] => ""
  | [k] => toString k
  | k :: rest => toString k ++ ", " ++ operandText rest

/-- The text of a line (R107), numbers in decimal. -/
def CommandLine.text : CommandLine → String
  | .zeroFill a len => "ZERO_FILL " ++ operandText [a.toNat, len.toNat]
  | .copy dst src len => "COPY " ++ operandText [dst.toNat, src.toNat, len.toNat]
  | .isZero a len => "IS_ZERO " ++ operandText [a.toNat, len.toNat]
  | .addShort a len w => "ADD_SHORT " ++ operandText [a.toNat, len.toNat, w.toNat]
  | .mulShort a len w => "MUL_SHORT " ++ operandText [a.toNat, len.toNat, w.toNat]
  | .divShort a len w => "DIV_SHORT " ++ operandText [a.toNat, len.toNat, w.toNat]
  | .addLong dst src len => "ADD_LONG " ++ operandText [dst.toNat, src.toNat, len.toNat]
  | .mulLong p a b len => "MUL_LONG " ++ operandText [p.toNat, a.toNat, b.toNat, len.toNat]
  | .parse a len => "PARSE " ++ operandText [a.toNat, len.toNat]
  | .format a len => "FORMAT " ++ operandText [a.toNat, len.toNat]
  | .formatNl a len => "FORMAT.NL " ++ operandText [a.toNat, len.toNat]

/-- A line without its comment, which `;` starts (R107). -/
def withoutComment (l : List Char) : List Char := l.takeWhile (fun c => c != ';')

/-- Without the spaces at both ends. -/
def stripSpaces (l : List Char) : List Char :=
  ((l.dropWhile (fun c => c == ' ')).reverse.dropWhile (fun c => c == ' ')).reverse

/-- The parts between the commas. -/
def commaParts : List Char → List (List Char)
  | [] => [[]]
  | c :: rest =>
    if c = ',' then [] :: commaParts rest
    else
      match commaParts rest with
      | [] => [[c]]
      | part :: parts => (c :: part) :: parts

/-- The value of a digit character. -/
def charValue (c : Char) : Option Nat :=
  if 48 ≤ c.toNat ∧ c.toNat ≤ 57 then some (c.toNat - 48)
  else if 97 ≤ c.toNat ∧ c.toNat ≤ 102 then some (c.toNat - 87)
  else if 65 ≤ c.toNat ∧ c.toNat ≤ 70 then some (c.toNat - 55)
  else none

/-- The number that digit characters give in a base, after the value read so far. -/
def numberFrom (base : Nat) : Nat → List Char → Option Nat
  | acc, [] => some acc
  | acc, c :: rest =>
    match charValue c with
    | some d => if d < base then numberFrom base (base * acc + d) rest else none
    | none => none

/-- A number: decimal, or hexadecimal with `0x` (R107). -/
def numberOf : List Char → Option Nat
  | [] => none
  | '0' :: 'x' :: c :: rest => numberFrom 16 0 (c :: rest)
  | c :: rest => numberFrom 10 0 (c :: rest)

/-- All the operands, if each is a number. -/
def operandsOf : List (List Char) → Option (List Nat)
  | [] => some []
  | part :: parts =>
    match numberOf (stripSpaces part), operandsOf parts with
    | some k, some ks => some (k :: ks)
    | _, _ => none

/-- The line of a mnemonic and its operands; an address or length has 16 bits, a word 64 (R103). -/
def CommandLine.build (name : List Char) (ks : List Nat) : Option CommandLine :=
  let half : Nat → Half := BitVec.ofNat 16
  let word : Nat → Word := BitVec.ofNat 64
  match ks with
  | [a, len] =>
    if ¬(a < 2 ^ 16 ∧ len < 2 ^ 16) then none
    else if name = "ZERO_FILL".toList then some (.zeroFill (half a) (half len))
    else if name = "IS_ZERO".toList then some (.isZero (half a) (half len))
    else if name = "PARSE".toList then some (.parse (half a) (half len))
    else if name = "FORMAT".toList then some (.format (half a) (half len))
    else if name = "FORMAT.NL".toList then some (.formatNl (half a) (half len))
    else none
  | [x, y, z] =>
    if ¬(x < 2 ^ 16 ∧ y < 2 ^ 16) then none
    else if name = "COPY".toList ∧ z < 2 ^ 16 then some (.copy (half x) (half y) (half z))
    else if name = "ADD_LONG".toList ∧ z < 2 ^ 16 then some (.addLong (half x) (half y) (half z))
    else if name = "ADD_SHORT".toList ∧ z < 2 ^ 64 then some (.addShort (half x) (half y) (word z))
    else if name = "MUL_SHORT".toList ∧ z < 2 ^ 64 then some (.mulShort (half x) (half y) (word z))
    else if name = "DIV_SHORT".toList ∧ z < 2 ^ 64 then some (.divShort (half x) (half y) (word z))
    else none
  | [p, a, b, len] =>
    if name = "MUL_LONG".toList ∧ p < 2 ^ 16 ∧ a < 2 ^ 16 ∧ b < 2 ^ 16 ∧ len < 2 ^ 16 then
      some (.mulLong (half p) (half a) (half b) (half len))
    else none
  | _ => none

/-- Read a line of R107: mnemonic first, then operands separated by commas, then maybe a comment. -/
def CommandLine.ofText (l : List Char) : Option CommandLine :=
  let body := stripSpaces (withoutComment l)
  let name := body.takeWhile (fun c => c != ' ')
  match operandsOf (commaParts (body.drop name.length)) with
  | some ks => CommandLine.build name ks
  | none => none

/-- A host write of a named register (R109, `WR`). -/
def writeReg (base : Nat) (r : RegName) (v : Word) : HostAction := .write (base + r.offset) 64 v

/-- A host read of a named register (R109, `RD`). -/
def readReg (base : Nat) (r : RegName) : HostAction := .read (base + r.offset) 64

/-- The argument writes of a line, in the order `ARG_A`, `ARG_B`, `ARG_P`, `ARG_LEN`, `ARG_W` (R108). -/
def CommandLine.argWrites (base : Nat) (c : CommandLine) : List HostAction :=
  let half := fun (r : RegName) (v : Half) => writeReg base r (v.setWidth 64)
  match c with
  | .zeroFill a len => [half .argA a, half .argLen len]
  | .copy dst src len => [half .argA dst, half .argB src, half .argLen len]
  | .isZero a len => [half .argA a, half .argLen len]
  | .addShort a len w => [half .argA a, half .argLen len, writeReg base .argW w]
  | .mulShort a len w => [half .argA a, half .argLen len, writeReg base .argW w]
  | .divShort a len w => [half .argA a, half .argLen len, writeReg base .argW w]
  | .addLong dst src len => [half .argA dst, half .argB src, half .argLen len]
  | .mulLong p a b len => [half .argA a, half .argB b, half .argP p, half .argLen len]
  | .parse a len => [half .argA a, half .argLen len]
  | .format a len => [half .argA a, half .argLen len]
  | .formatNl a len => [half .argA a, half .argLen len]

/-- The register writes of a line: its arguments, then `CMD` (R108, items 1 and 2). -/
def CommandLine.accesses (base : Nat) (c : CommandLine) : List HostAction :=
  c.argWrites base ++ [writeReg base .cmd (encode c.instr)]

/-- A line of a host program. -/
inductive HostLine where
  /-- A command line with its `WAIT` (R107, R108). -/
  | command (c : CommandLine)
  /-- `WAIT` (R109). -/
  | wait
  /-- `SETW k, v` (R109). -/
  | setw (k : Nat) (v : Word)
  /-- `GETW k` (R109). -/
  | getw (k : Nat)
  /-- `CLEARF` (R109). -/
  | clearf
  /-- `WR reg, v` (R109). -/
  | wr (r : RegName) (v : Word)
  /-- `RD reg` (R109). -/
  | rd (r : RegName)
  /-- After `RD STATUS`: if `TERM` = 1, stop with exit code `EXIT.CODE` (R302). -/
  | stopIfTerm
  /-- Stop with this exit code (R302, R306). -/
  | stop (code : Byte)
deriving DecidableEq, Repr

/-- What the host does next. -/
inductive HostOp where
  /-- A bus access. -/
  | access (a : HostAction)
  /-- `WAIT`: read `STATUS`. -/
  | wait
  /-- `WAIT`, with the value read: again while `BUSY` = 1. -/
  | waitCheck
  /-- The value read is `STATUS`: stop if `TERM` = 1. -/
  | stopIfTerm
  /-- The value read is `EXIT`: stop with its code. -/
  | stopWithExit
  /-- Stop with this exit code. -/
  | stop (code : Byte)
deriving DecidableEq, Repr

/-- The expansion of a line (R108, R109). -/
def HostLine.expand (base : Nat) : HostLine → List HostOp
  | .command c => (c.accesses base).map .access ++ [.wait]
  | .wait => [.wait]
  | .setw k v => [.access (.write (base + (0x10000 + 8 * k)) 64 v)]
  | .getw k => [.access (.read (base + (0x10000 + 8 * k)) 64)]
  | .clearf => [.access (writeReg base .status 0x44)]
  | .wr r v => [.access (writeReg base r v)]
  | .rd r => [.access (readReg base r)]
  | .stopIfTerm => [.stopIfTerm]
  | .stop code => [.stop code]

/-- A host that runs a program, and the block. -/
structure HostRun where
  /-- What is left of the program. -/
  ops : List HostOp
  /-- The exit code, once the program has stopped (R306). -/
  exit : Option Byte
  block : State
deriving DecidableEq, Repr

/-- The bits of the last bus response; the host reads no bit from a response without data. -/
def Reply.bit (r : Reply) (k : Nat) : Bool :=
  match r with
  | .data v => v.getLsbD k
  | .none | .ack | .busError | .undecoded => false

/-- The low byte of the last bus response. -/
def Reply.lowByte (r : Reply) : Byte :=
  match r with
  | .data v => v.setWidth 8
  | .none | .ack | .busError | .undecoded => 0

/-- The run goes on with the block's next state. -/
def HostRun.withBlock (h : HostRun) : Host.Outcome State Fault Refusal → Host.Outcome HostRun Fault Refusal
  | .next t => .next { h with block := t }
  | .fault r => .fault r
  | .refused r => .refused r

/-- The block takes one step in which the host does `a`. -/
def hostDoes (a : HostAction) (s : State) : Host.Outcome State Fault Refusal := step (s.setAgenda [.now a])

/-- One turn of a host that runs a program. While it waits, and once its program has stopped, the block's
sequencer moves on. -/
def hostTurn (h : HostRun) : Host.Outcome HostRun Fault Refusal :=
  match h.ops with
  | [] => h.withBlock (step (h.block.setAgenda []))
  | .access a :: rest => { h with ops := rest }.withBlock (hostDoes a h.block)
  | .wait :: rest =>
    { h with ops := .waitCheck :: rest }.withBlock (hostDoes (readReg h.block.params.mmioBase .status) h.block)
  | .waitCheck :: rest =>
    if h.block.reply.bit 0 then { h with ops := .wait :: rest }.withBlock (step (h.block.setAgenda []))
    else .next { h with ops := rest }
  | .stopIfTerm :: rest =>
    if h.block.reply.bit 3 then
      .next { h with ops := [.access (readReg h.block.params.mmioBase .exit), .stopWithExit] }
    else .next { h with ops := rest }
  | .stopWithExit :: _ => .next { h with ops := [], exit := some h.block.reply.lowByte }
  | .stop code :: _ => .next { h with ops := [], exit := some code }

/-- What else the host does, beside its program: deliveries, acceptances, a reset (R309). -/
def hostMeanwhile : List HostAction → HostRun → Host.Outcome HostRun Fault Refusal
  | [], h => .next h
  | a :: rest, h =>
    match h.withBlock (hostDoes a h.block) with
    | .next h' => hostMeanwhile rest h'
    | .fault r => .fault r
    | .refused r => .refused r

/-- The run of a host program, one turn for each entry: what the host does beside its program before that
turn, then the turn. -/
def hostRun : List (List HostAction) → HostRun → Host.Outcome HostRun Fault Refusal
  | [], h => .next h
  | acts :: rest, h =>
    match hostMeanwhile acts h with
    | .next h1 =>
      match hostTurn h1 with
      | .next h2 => hostRun rest h2
      | .fault r => .fault r
      | .refused r => .refused r
    | .fault r => .fault r
    | .refused r => .refused r

/-- The ops of a program. -/
def assemble (base : Nat) (lines : List HostLine) : List HostOp := lines.flatMap (HostLine.expand base)

/-- The driver program (R302), with the buffer layout of R301. -/
def driver (p : Params) : List HostLine :=
  let n : Half := BitVec.ofNat 16 p.n
  let n2 : Half := BitVec.ofNat 16 (2 * p.n)
  [.command (.parse 0 n), .rd .status, .stopIfTerm,
    .command (.parse n n), .rd .status, .stopIfTerm,
    .command (.mulLong n2 0 n n),
    .command (.formatNl n2 n2),
    .stop 0]

/-- The driver at its start. -/
def driverStart (s : State) : HostRun :=
  { ops := assemble s.params.mmioBase (driver s.params), exit := none, block := s }

/-- The ways a run of the driver program ends (R310). -/
inductive RunEnd where
  | success
  | terminated (code : Byte)
  | faulted
deriving DecidableEq, Repr

/-- Whether and how a run of the driver program has ended (R310). -/
def HostRun.ended (h : HostRun) : Option RunEnd :=
  if h.block.status.fault then some .faulted
  else if h.block.status.term then some (.terminated h.block.exit)
  else if h.exit = some 0 ∧ h.block.status.done then some .success
  else none

end Sys2Proof.Machine
end

