-- ==== Sys2Proof/Safety.lean ====
section
/-!
DEFINITION. What counts as a safe run, and the terms claims are stated in: the invariant of the block,
and decimal text.
-/
namespace Sys2Proof.Machine

/-- The flag rules of 10_state.md R39, with the values `FAULT_CODE` has (R34, R330) and R343's "a fault
and a termination never coincide". -/
def Status.consistent (t : Status) : Bool :=
  (!t.busy || (!t.fault && !t.term && !t.done)) && (!t.term || (!t.busy && !t.done && !t.fault))
    && (!t.done || !t.fault)
    && (if t.fault then [0x01, 0x02, 0x03, 0x04, 0x05, 0x06].contains t.faultCode else t.faultCode == 0)

/-- The sequencer's state agrees with `BUSY` and `TERM` (R41), its record is one of an accepted command,
and `EXIT.CODE` is 0 before a termination and 1 or 2 after one (R38, R342). -/
def State.sequencerConsistent (s : State) : Bool :=
  match s.seq with
  | .idle => !s.status.busy && !s.status.term && s.exit == 0
  | .busy r => s.status.busy && !s.status.term && s.exit == 0 && r.wellFormed s.params
  | .terminated => !s.status.busy && s.status.term && (s.exit == 1 || s.exit == 2)

/-- `End` is the last item delivered (R89). -/
def endsInput : List InItem → Bool
  | [] => true
  | .byte _ :: rest => endsInput rest
  | .endItem :: rest => rest.isEmpty

/-- The invariant of the block: R39, R41, and the canonical form and extent of `BUFRAM` (R46), `SCR` (R43)
and `FMT_BUF` (R44). -/
def State.inv (s : State) : Bool :=
  s.status.consistent && s.sequencerConsistent && Memory.wf s.params s.bufram && cellsWf 0 (s.params.n + 1) s.scr
    && cellsWf 0 (digcap s.params) s.fmtBuf && endsInput s.input

/-- A step that neither stops nor refuses: every host action and every turn has its effect. -/
def SafeStep (s : State) : Prop := ∃ t, step s = .next t

/-- The block takes a `CMD` write (R121): `BUSY`, `FAULT` and `TERM` are 0. -/
def State.ready (s : State) : Prop := s.status.busy = false ∧ s.status.fault = false ∧ s.status.term = false

/-- The canonical decimal text of a number (R241): most significant digit first, no leading zero but the
single "0" of zero, in ASCII (R243). -/
def decimalBytes (v : Nat) : List Byte :=
  if v = 0 then [0x30] else ((Nat.digits 10 v).map (fun d => BitVec.ofNat 8 (0x30 + d))).reverse

/-- The value of a numeral (R223): `Σ d_k · 10^(n-k)`, first digit most significant. -/
def numeralValue (ds : List Nat) : Nat := Nat.ofDigits 10 ds.reverse

/-- The stream items of digits 0 to 9 (R224). -/
def digitItems (ds : List Nat) : List InItem := ds.map (fun d => .byte (BitVec.ofNat 8 (0x30 + d)))

/-- Two word ranges have no word in common (R71). -/
def apart (a la b lb : Nat) : Prop := la = 0 ∨ lb = 0 ∨ a + la ≤ b ∨ b + lb ≤ a

/-- The words a command writes: first word and count (R102). IS_ZERO writes none. -/
def writtenWords (i : Instr) (x : Args) : Nat × Nat :=
  match i with
  | .isZero => (0, 0)
  | .mulLong => (x.p.toNat, 2 * x.len.toNat)
  | .zeroFill | .copy | .addShort | .mulShort | .divShort | .addLong | .parse | .format _ => (x.a.toNat, x.len.toNat)

/-- The command uses the stream `IN` or `OUT` (R89, R91). -/
def usesStreams (i : Instr) : Bool :=
  match i with
  | .parse | .format _ => true
  | .zeroFill | .copy | .isZero | .addShort | .mulShort | .divShort | .addLong | .mulLong => false

/-- The host action that the next step carries out, if it carries one out. -/
def State.nextAction (s : State) : Option HostAction :=
  match s.agenda with
  | .now a :: _ => some a
  | .rest a :: _ => if s.movable then none else some a
  | .turn :: _ => none
  | [] => none

/-- The state as the agenda's next entry is taken. -/
def State.popped (s : State) : State := { s with agenda := s.agenda.tail }

end Sys2Proof.Machine
end

