-- ==== Sys2Proof/Certificates/Slice0/Obligations.lean ====
section
/-!
DEFINITION. The statements for the provers. Each docstring names the rule of spec/ it formalises. Where a
statement speaks of the agenda, the bus reply, an acceptance credit or the occasion of a free value, that clause is
the model's own choice (log entries 1, 5, 4, 3), no rule of the spec.
-/
open Sys2Proof Sys2Proof.Machine

/-! ## Encoding -/

/-- R104, R110: a value decodes to a command exactly when it is that command's encoding. -/
def Obligations.DecodeInvertsEncode : Prop :=
  ∀ (v : Word) (i : Instr), decode v = .command i ↔ v = encode i

/-- R110: the decode function, field by field in plain arithmetic, on every 64-bit value. -/
def Obligations.DecodeIsTotalInTheOrderOfTheRule : Prop :=
  ∀ v : Word,
    let op := v.toNat % 256
    let nl := v.toNat / 256 % 2
    let reserved := v.toNat / 512
    let assigned := op ∈ [0x01, 0x02, 0x03, 0x10, 0x11, 0x12, 0x20, 0x21, 0x30, 0x31]
    (¬assigned → decode v = .fault .illegalOpcode) ∧
    (assigned ∧ reserved ≠ 0 → decode v = .fault .reservedField) ∧
    (assigned ∧ reserved = 0 ∧ nl = 1 ∧ op ≠ 0x31 → decode v = .fault .reservedField) ∧
    (assigned ∧ reserved = 0 ∧ (nl = 0 ∨ op = 0x31) →
      ∃ i, decode v = .command i ∧ i.opcode.toNat = op ∧ i.nlBit = decide (nl = 1))

/-- R104, R105: command words as the opcode map gives them, and two illegal ones. -/
def Obligations.SpecWordsDecode : Prop :=
  decode 0x0000000000000001 = .command .zeroFill ∧ decode 0x0000000000000010 = .command .addShort ∧
  decode 0x0000000000000021 = .command .mulLong ∧ decode 0x0000000000000030 = .command .parse ∧
  decode 0x0000000000000031 = .command (.format false) ∧ decode 0x0000000000000131 = .command (.format true) ∧
  decode 0x0000000000000013 = .fault .illegalOpcode ∧ decode 0x0000000000000101 = .fault .reservedField

/-! ## The step and the command it runs -/

/-- R121, R79: when the host's next action writes to `CMD` a value that decodes to a command, the step is
that command's exec, after the agenda's entry is taken and the bus acknowledges; or the command only starts,
where the host's action after it falls during the command (agenda and reply: log entries 1, 5). -/
def Obligations.StepRunsTheDecodedCommand : Prop :=
  ∀ (s : State) (v : Word) (i : Instr),
    s.nextAction = some (.write (s.params.mmioBase + 0x010) 64 v) → decode v = .command i →
      (s.popped.overlapped = false → step s = exec i { s.popped with reply := .ack }) ∧
      (s.popped.overlapped = true → step s = .next (accept i { s.popped with reply := .ack }))

/-- R121, R123, R392: a command that only starts reaches, by the sequencer's turns, exactly the state that
exec gives at once. -/
def Obligations.TurnsReachTheCommandsEffect : Prop :=
  ∀ (i : Instr) (s : State), s.agenda = [] →
    ∃ (k : Nat) (t : State), exec i s = .next t ∧ core.run k (accept i s) = .next t

/-- R87: the running command uses the arguments latched at acceptance: other values in the argument
registers do not change a turn. -/
def Obligations.RunningCommandIgnoresArgumentRegisters : Prop :=
  ∀ (s t : State) (x : Args), sequencerTurn s = .next t →
    sequencerTurn { s with args := x } = .next { t with args := x }

/-! ## Reset -/

/-- R370, R371: the reset values, at State.reset and after a reset in any state, which abandons the command and
rewinds no stream. The content of the memories is a free value of the new occasion (the model's form of R370's
'unspecified': log entry 3); the host's credits and agenda stay (the model's: log entries 1, 4). -/
def Obligations.ResetValues : Prop :=
  (State.reset.status.word = 0 ∧ State.reset.args = { a := 0, b := 0, p := 0, len := 0, w := 0 } ∧
    State.reset.result = 0 ∧ State.reset.exit = 0 ∧ State.reset.seq = .idle ∧
    State.reset.bufram = [] ∧ State.reset.scr = [] ∧ State.reset.fmtBuf = []) ∧
  ∀ s : State, s.nextAction = some .reset →
    ∃ t, step s = .next t ∧ t.status.word = 0 ∧ t.args = { a := 0, b := 0, p := 0, len := 0, w := 0 } ∧
      t.result = 0 ∧ t.exit = 0 ∧ t.seq = .idle ∧ t.params = s.params ∧
      (∀ a, t.readByte a = Config.freeRam (s.fresh + 1) a) ∧
      (∀ k, t.readScr k = Config.freeScr (s.fresh + 1) k) ∧ (∀ k, t.readFmt k = Config.freeFmt (s.fresh + 1) k) ∧
      t.input = s.input ∧ t.output = s.output ∧ t.diag = s.diag ∧ t.outReady = s.outReady ∧
      t.diagReady = s.diagReady ∧ t.agenda = s.agenda.tail

/-- The invariant holds right after reset. -/
def Obligations.ResetMeetsTheInvariant : Prop := State.reset.inv = true

/-! ## Invariants and whole-machine rules -/

/-- R39, R41, R46: every step keeps the invariant. -/
def Obligations.StepKeepsTheInvariant : Prop :=
  ∀ s t : State, s.inv = true → step s = .next t → t.inv = true

/-- R39: the flag rules hold in every state that meets the invariant. -/
def Obligations.FlagRulesHold : Prop :=
  ∀ s : State, s.inv = true →
    (s.status.busy = true → s.status.fault = false ∧ s.status.term = false ∧ s.status.done = false) ∧
    (s.status.term = true → s.status.busy = false ∧ s.status.done = false) ∧
    (s.status.done = true → s.status.fault = false)

/-- R333, R330, R340: under the invariant every step gives a next state: a fault of the block, a termination
and a hold are states of the block, and nothing stops the model. -/
def Obligations.EveryStepHasANextState : Prop := ∀ s : State, s.inv = true → SafeStep s

/-- R33: `PARAM` reads `N` and `BUF_WORDS`, a write to it changes nothing, and no step changes its value. The
agenda the access is taken from is the model's (log entry 1), and so is the acknowledgement of an ignored write (log
entry 5). -/
def Obligations.ParamIsConstant : Prop :=
  (∀ s : State, s.params.wellFormed = true → s.nextAction = some (.read (s.params.mmioBase + 0x000) 64) →
    ∃ v : Word, step s = .next { s.popped with reply := .data v } ∧
      v.toNat % 2 ^ 32 = s.params.bufWords ∧ v.toNat / 2 ^ 32 = s.params.n) ∧
  (∀ (s : State) (v : Word), s.nextAction = some (.write (s.params.mmioBase + 0x000) 64 v) →
    step s = .next { s.popped with reply := .ack }) ∧
  ∀ s t : State, step s = .next t → t.params = s.params

/-- R372, R341: while the block is terminated only a reset leaves the state or changes `TERM` or `EXIT`, and
a reset does. -/
def Obligations.OnlyResetLeavesTermination : Prop :=
  ∀ s t : State, s.inv = true → s.status.term = true → step s = .next t →
    (s.nextAction ≠ some .reset → t.seq = .terminated ∧ t.status.term = true ∧ t.exit = s.exit) ∧
    (s.nextAction = some .reset → t.seq = .idle ∧ t.status.term = false ∧ t.exit = 0)

/-- R335: `FAULT` and its code stay until the host writes 1 to `STATUS` bit 2, or a reset. -/
def Obligations.FaultStaysUntilCleared : Prop :=
  ∀ s t : State, s.inv = true → s.status.fault = true → step s = .next t →
    (t.status.fault = true ∧ t.status.faultCode = s.status.faultCode) ∨
    s.nextAction = some .reset ∨
    ∃ v : Word, v.getLsbD 2 = true ∧ s.nextAction = some (.write (s.params.mmioBase + 0x008) 64 v)

/-- R37, R78: `RESULT`, `TRUNC` and `ZERO` change only in a step that completes a command (the turn that ends the
running one, or the `CMD` write of one that runs to its end at once: which of the two is the model's, log entry 1), or
by reset. -/
def Obligations.ResultChangesOnlyAtCompletion : Prop :=
  ∀ s t : State, step s = .next t →
    (t.result = s.result ∧ t.status.trunc = s.status.trunc ∧ t.status.zero = s.status.zero) ∨
    (((s.nextAction = none ∧ ∃ r, s.seq = .busy r) ∨
        ∃ v i, s.nextAction = some (.write (s.params.mmioBase + 0x010) 64 v) ∧ decode v = .command i ∧
          s.status.blocked = false) ∧
      t.seq = .idle ∧ t.status.done = true ∧ t.status.busy = false) ∨
    s.nextAction = some .reset

/-- R89, R91: only PARSE takes items of `IN` and writes `DIAG`; only FORMAT writes `OUT`; what is written is
appended to what was written before. -/
def Obligations.StreamsBelongToTheirCommands : Prop :=
  ∀ (i : Instr) (s t : State), exec i s = .next t →
    (i ≠ .parse → t.input = s.input ∧ t.diag = s.diag ∧ t.diagReady = s.diagReady) ∧
    ((∀ nl, i ≠ .format nl) → t.output = s.output ∧ t.outReady = s.outReady) ∧
    (∃ l, t.output = s.output ++ l) ∧ (∃ l, t.diag = s.diag ++ l)

/-- R71: a command never touches a word outside the ranges it writes, in every state and on every path. -/
def Obligations.CommandWritesOnlyItsRange : Prop :=
  ∀ (i : Instr) (s t : State), exec i s = .next t →
    ∀ a, (a < 8 * (writtenWords i s.args).1 ∨
        8 * (writtenWords i s.args).1 + 8 * (writtenWords i s.args).2 ≤ a) →
      t.readByte a = s.readByte a

/-- R43, R44: no result depends on the content of `SCR` or `FMT_BUF`: two states that differ only there give
states that differ only there. What the buffers list and the number of their occasion are the model's (log entries
3, 7). -/
def Obligations.InternalBuffersDoNotMatter : Prop :=
  ∀ (i : Instr) (s t : State) (scr : List (Nat × Word)) (fmt : List Host.Cell) (e f : Nat),
    s.params.wellFormed = true → exec i s = .next t →
      ∃ t', exec i { s with scr := scr, fmtBuf := fmt, scrEpoch := e, fmtEpoch := f } = .next t' ∧
        { t' with scr := t.scr, fmtBuf := t.fmtBuf, scrEpoch := t.scrEpoch, fmtEpoch := t.fmtEpoch } = t

/-- R101, R102: a command ignores the argument registers it does not use: `ARG_B` but for COPY, ADD_LONG and MUL_LONG,
`ARG_P` but for MUL_LONG, `ARG_W` but for the short operations. With other values there, a `CMD` write that is not
dropped gives the same next state with those values, in the registers and, where the command is held, in what it
latched. -/
def Obligations.UnusedArgumentsAreIgnored : Prop :=
  ∀ (i : Instr) (s t : State) (b p : Half) (w : Word), s.status.blocked = false → exec i s = .next t →
    let other := fun x : Args =>
      { x with
        b := if i ∈ [.copy, .addLong, .mulLong] then x.b else b,
        p := if i = .mulLong then x.p else p,
        w := if i ∈ [.addShort, .mulShort, .divShort] then x.w else w }
    (t.status.busy = false →
      exec i { s with args := other s.args } = .next { t with args := other s.args }) ∧
    (t.status.busy = true → ∃ r, t.seq = .busy r ∧
      exec i { s with args := other s.args }
        = .next { t with args := other s.args, seq := .busy { r with args := other r.args } })

/-! ## Short arithmetic -/

/-- R141: ADD_SHORT. -/
def Obligations.AddShortAddsTheWord : Prop :=
  ∀ s : State, s.ready → s.args.a.toNat + s.args.len.toNat ≤ s.params.bufWords →
    ∃ t, exec .addShort s = .next t ∧
      t.val s.args.a.toNat s.args.len.toNat
        = (s.val s.args.a.toNat s.args.len.toNat + s.args.w.toNat) % 2 ^ (64 * s.args.len.toNat) ∧
      t.result.toNat
        = (s.val s.args.a.toNat s.args.len.toNat + s.args.w.toNat) / 2 ^ (64 * s.args.len.toNat) ∧
      t.status = { s.status with busy := false, done := true, trunc := decide (t.result ≠ 0), zero := false }

/-- R151: MUL_SHORT. -/
def Obligations.MulShortMultipliesByTheWord : Prop :=
  ∀ s : State, s.ready → s.args.a.toNat + s.args.len.toNat ≤ s.params.bufWords →
    ∃ t, exec .mulShort s = .next t ∧
      t.val s.args.a.toNat s.args.len.toNat
        = s.val s.args.a.toNat s.args.len.toNat * s.args.w.toNat % 2 ^ (64 * s.args.len.toNat) ∧
      t.result.toNat
        = s.val s.args.a.toNat s.args.len.toNat * s.args.w.toNat / 2 ^ (64 * s.args.len.toNat) ∧
      t.status = { s.status with busy := false, done := true, trunc := decide (t.result ≠ 0), zero := false }

/-- R153: after MUL_SHORT by 0, IS_ZERO of the same buffer gives 1. -/
def Obligations.MultiplyingByZeroIsZero : Prop :=
  ∀ s : State, s.ready → s.args.a.toNat + s.args.len.toNat ≤ s.params.bufWords → s.args.w = 0 →
    ∃ t u, exec .mulShort s = .next t ∧ exec .isZero t = .next u ∧ u.result = 1 ∧ u.status.zero = true

/-- R161: DIV_SHORT. -/
def Obligations.DivShortDividesByTheWord : Prop :=
  ∀ s : State, s.ready → s.args.a.toNat + s.args.len.toNat ≤ s.params.bufWords → s.args.w ≠ 0 →
    ∃ t, exec .divShort s = .next t ∧
      t.val s.args.a.toNat s.args.len.toNat = s.val s.args.a.toNat s.args.len.toNat / s.args.w.toNat ∧
      t.result.toNat = s.val s.args.a.toNat s.args.len.toNat % s.args.w.toNat ∧
      t.status = { s.status with busy := false, done := true, trunc := false, zero := false }

/-- R163: DIV_SHORT by 0 that passes the earlier checks faults and changes no word and not `RESULT`. -/
def Obligations.DivisionByZeroFaults : Prop :=
  ∀ s : State, s.ready → s.args.a.toNat + s.args.len.toNat ≤ s.params.bufWords → s.args.w = 0 →
    exec .divShort s
      = .next { s with status := { s.status with fault := true, faultCode := 0x06, done := false } }

/-! ## Long arithmetic -/

/-- R181: ADD_LONG. -/
def Obligations.AddLongAddsTheBuffers : Prop :=
  ∀ s : State, s.ready → s.args.a.toNat + s.args.len.toNat ≤ s.params.bufWords →
    s.args.b.toNat + s.args.len.toNat ≤ s.params.bufWords →
    apart s.args.a.toNat s.args.len.toNat s.args.b.toNat s.args.len.toNat →
    ∃ t, exec .addLong s = .next t ∧
      t.val s.args.a.toNat s.args.len.toNat
        = (s.val s.args.a.toNat s.args.len.toNat + s.val s.args.b.toNat s.args.len.toNat) % 2 ^ (64 * s.args.len.toNat) ∧
      t.result.toNat
        = (s.val s.args.a.toNat s.args.len.toNat + s.val s.args.b.toNat s.args.len.toNat) / 2 ^ (64 * s.args.len.toNat) ∧
      (t.result = 0 ∨ t.result = 1) ∧
      t.val s.args.b.toNat s.args.len.toNat = s.val s.args.b.toNat s.args.len.toNat ∧
      t.status = { s.status with busy := false, done := true, trunc := decide (t.result ≠ 0), zero := false }

/-- R191, R192: MUL_LONG computes the exact product into `2 LEN` words, keeps its factors, and never sets
`TRUNC`. -/
def Obligations.MulLongMultipliesTheBuffers : Prop :=
  ∀ s : State, s.ready → s.args.len.toNat ≤ s.params.n →
    s.args.a.toNat + s.args.len.toNat ≤ s.params.bufWords → s.args.b.toNat + s.args.len.toNat ≤ s.params.bufWords →
    s.args.p.toNat + 2 * s.args.len.toNat ≤ s.params.bufWords →
    apart s.args.p.toNat (2 * s.args.len.toNat) s.args.a.toNat s.args.len.toNat →
    apart s.args.p.toNat (2 * s.args.len.toNat) s.args.b.toNat s.args.len.toNat →
    ∃ t, exec .mulLong s = .next t ∧
      t.val s.args.p.toNat (2 * s.args.len.toNat)
        = s.val s.args.a.toNat s.args.len.toNat * s.val s.args.b.toNat s.args.len.toNat ∧
      t.val s.args.a.toNat s.args.len.toNat = s.val s.args.a.toNat s.args.len.toNat ∧
      t.val s.args.b.toNat s.args.len.toNat = s.val s.args.b.toNat s.args.len.toNat ∧
      t.result = 0 ∧
      t.status = { s.status with busy := false, done := true, trunc := false, zero := false }

/-! ## Buffer utilities -/

/-- R271: IS_ZERO; it changes no word of `BUFRAM`. -/
def Obligations.IsZeroTestsTheBuffer : Prop :=
  ∀ s : State, s.ready → s.args.a.toNat + s.args.len.toNat ≤ s.params.bufWords →
    ∃ t, exec .isZero s = .next t ∧ t.bufram = s.bufram ∧
      (t.result = 1 ↔ s.val s.args.a.toNat s.args.len.toNat = 0) ∧ (t.result = 0 ∨ t.result = 1) ∧
      t.status
        = { s.status with
            busy := false, done := true, trunc := false,
            zero := decide (s.val s.args.a.toNat s.args.len.toNat = 0) }

/-- R275: COPY. -/
def Obligations.CopyCopiesTheWords : Prop :=
  ∀ s : State, s.ready → s.args.a.toNat + s.args.len.toNat ≤ s.params.bufWords →
    s.args.b.toNat + s.args.len.toNat ≤ s.params.bufWords →
    apart s.args.a.toNat s.args.len.toNat s.args.b.toNat s.args.len.toNat →
    ∃ t, exec .copy s = .next t ∧
      (∀ k, k < s.args.len.toNat →
        t.readWord (s.args.a.toNat + k) = s.readWord (s.args.b.toNat + k) ∧
        t.readWord (s.args.b.toNat + k) = s.readWord (s.args.b.toNat + k)) ∧
      t.val s.args.a.toNat s.args.len.toNat = s.val s.args.b.toNat s.args.len.toNat ∧ t.result = 0 ∧
      t.status = { s.status with busy := false, done := true, trunc := false, zero := false }

/-- R280: ZERO_FILL, whatever the words held before. -/
def Obligations.ZeroFillClearsTheBuffer : Prop :=
  ∀ s : State, s.ready → s.args.a.toNat + s.args.len.toNat ≤ s.params.bufWords →
    ∃ t, exec .zeroFill s = .next t ∧ t.val s.args.a.toNat s.args.len.toNat = 0 ∧ t.result = 0 ∧
      t.status = { s.status with busy := false, done := true, trunc := false, zero := false }

/-! ## Decimal codec -/

/-- R223, R231: PARSE over digits ended by a newline, or by `End` after at least one digit. `after` is what is
left in `IN`: what follows the newline, or the `End` itself. -/
def Obligations.ParseReadsTheNumeral : Prop :=
  ∀ (s : State) (ds : List Nat) (tail after : List InItem),
    s.ready → s.args.a.toNat + s.args.len.toNat ≤ s.params.bufWords → (∀ d ∈ ds, d ≤ 9) →
    s.input = digitItems ds ++ tail →
    (tail = .byte 0x0A :: after ∨ (ds ≠ [] ∧ tail = after ∧ after.head? = some .endItem)) →
    ∃ t, exec .parse s = .next t ∧
      t.val s.args.a.toNat s.args.len.toNat = numeralValue ds % 2 ^ (64 * s.args.len.toNat) ∧
      t.result.toNat = ds.length % 2 ^ 64 ∧ t.input = after ∧ t.diag = s.diag ∧
      t.status
        = { s.status with
            busy := false, done := true, trunc := decide (2 ^ (64 * s.args.len.toNat) ≤ numeralValue ds),
            zero := false }

/-- R225, R340, R229: `End` as the first item terminates with exit code 2 and no diagnostic; `End` stays, and
the words of the destination become free values (log entry 3). -/
def Obligations.EndBeforeADigitTerminates : Prop :=
  ∀ (s : State) (rest : List InItem), s.ready → s.args.a.toNat + s.args.len.toNat ≤ s.params.bufWords →
    s.input = .endItem :: rest →
    ∃ t, exec .parse s = .next t ∧
      t = { s with
            status := { s.status with busy := false, done := false, term := true }, exit := 2, seq := .terminated,
            fresh := s.fresh + 1, bufram := t.bufram } ∧
      ∀ a, 8 * s.args.a.toNat ≤ a → a < 8 * s.args.a.toNat + 8 * s.args.len.toNat →
        t.readByte a = Config.freeRam (s.fresh + 1) a

/-- R227, R228, R340: an invalid byte after digits, with the host ready for the diagnostic: the 21 bytes on
`DIAG`, the line discarded through its newline (or up to `End`), exit code 1. The credit and the occasion number are the model's (log entries 4, 3). -/
def Obligations.InvalidByteTerminates : Prop :=
  ∀ (s : State) (ds : List Nat) (x : Byte) (junk : List Byte) (tail after : List InItem),
    s.ready → s.args.a.toNat + s.args.len.toNat ≤ s.params.bufWords → (∀ d ∈ ds, d ≤ 9) →
    x ≠ 0x0A → (x.toNat < 0x30 ∨ 0x39 < x.toNat) → 0x0A ∉ junk → 21 ≤ s.diagReady →
    s.input = digitItems ds ++ .byte x :: (junk.map .byte ++ tail) →
    (tail = .byte 0x0A :: after ∨ (tail = after ∧ after.head? = some .endItem)) →
    ∃ t, exec .parse s = .next t ∧
      t = { s with
            status := { s.status with busy := false, done := false, term := true }, exit := 1, seq := .terminated,
            fresh := s.fresh + 1, bufram := t.bufram, input := after, diagReady := s.diagReady - 21,
            diag := s.diag ++ [0x49, 0x6E, 0x76, 0x61, 0x6C, 0x69, 0x64, 0x20, 0x63, 0x68, 0x61, 0x72, 0x61, 0x63,
              0x74, 0x65, 0x72, 0x3A, 0x20, x, 0x0A] }

/-- R90, R91, R227: PARSE is held, with `BUSY` = 1 and a turn of the sequencer changing nothing: where the items end
after digits; where the host accepts fewer than the 21 bytes of a diagnostic; and where the items end in the line that
is skipped after one. The host's readiness as a count is the model's (log entry 4). -/
def Obligations.ParseHoldsForAnItem : Prop :=
  ∀ (s : State) (ds : List Nat), s.ready → s.args.a.toNat + s.args.len.toNat ≤ s.params.bufWords →
    (∀ d ∈ ds, d ≤ 9) →
    let held := fun (p : ParseState) (t : State) =>
      t.status = { s.status with busy := true, done := false } ∧ t.result = s.result ∧ t.exit = s.exit ∧
        (∃ r, t.seq = .busy r ∧ r.parseState = some p) ∧ sequencerTurn t = .next t
    (s.input = digitItems ds →
      ∃ t, exec .parse s = .next t ∧ held .accumulating t ∧ t.input = [] ∧ t.diag = s.diag ∧
        t.diagReady = s.diagReady) ∧
    ∀ x : Byte, x ≠ 0x0A → (x.toNat < 0x30 ∨ 0x39 < x.toNat) →
      (∀ rest : List InItem, s.diagReady < 21 → s.input = digitItems ds ++ .byte x :: rest →
        ∃ t, exec .parse s = .next t ∧ held .invalidCharacter t ∧ t.input = rest ∧
          t.diag = s.diag ++ (diagnostic x).take s.diagReady ∧ t.diagReady = 0) ∧
      ∀ junk : List Byte, 0x0A ∉ junk → 21 ≤ s.diagReady → s.input = digitItems ds ++ .byte x :: junk.map .byte →
        ∃ t, exec .parse s = .next t ∧ held .invalidCharacter t ∧ t.input = [] ∧
          t.diag = s.diag ++ diagnostic x ∧ t.diagReady = s.diagReady - 21

/-- R220, R42: no transition leads from `InvalidCharacter` back to `Accumulating`. -/
def Obligations.InvalidCharacterIsFinal : Prop :=
  ∀ (s t : State) (r r' : Running), s.seq = .busy r → r.parseState = some .invalidCharacter →
    sequencerTurn s = .next t → t.seq = .busy r' → r'.parseState = some .invalidCharacter

/-- R241, R246: FORMAT with the host ready for every byte: the canonical decimal text, the newline of
FORMAT.NL, the buffer left zero, the digit count in `RESULT`. The credit is the model's (log entry 4). -/
def Obligations.FormatWritesTheDecimalText : Prop :=
  ∀ (s : State) (nl : Bool), s.ready → s.params.wellFormed = true → s.args.len.toNat ≤ 2 * s.params.n →
    s.args.a.toNat + s.args.len.toNat ≤ s.params.bufWords →
    (decimalBytes (s.val s.args.a.toNat s.args.len.toNat)).length + (if nl then 1 else 0) ≤ s.outReady →
    ∃ t, exec (.format nl) s = .next t ∧
      t.output
        = s.output ++ decimalBytes (s.val s.args.a.toNat s.args.len.toNat) ++ (if nl then [0x0A] else []) ∧
      t.val s.args.a.toNat s.args.len.toNat = 0 ∧
      t.result.toNat = (decimalBytes (s.val s.args.a.toNat s.args.len.toNat)).length ∧
      t.status = { s.status with busy := false, done := true, trunc := false, zero := false }

/-- R91: FORMAT that the host does not let finish emits as many bytes as the host accepts, in order, and is
held with `BUSY` = 1. The credit is the model's (log entry 4). -/
def Obligations.FormatHoldsForAcceptance : Prop :=
  ∀ (s : State) (nl : Bool), s.ready → s.params.wellFormed = true → s.args.len.toNat ≤ 2 * s.params.n →
    s.args.a.toNat + s.args.len.toNat ≤ s.params.bufWords →
    s.outReady < (decimalBytes (s.val s.args.a.toNat s.args.len.toNat)).length + (if nl then 1 else 0) →
    ∃ t, exec (.format nl) s = .next t ∧ t.status = { s.status with busy := true, done := false } ∧
      t.output = s.output ++ (decimalBytes (s.val s.args.a.toNat s.args.len.toNat)).take s.outReady ∧
      t.outReady = 0 ∧ sequencerTurn t = .next t

/-- R8, R244: `DIGCAP` is the number of decimal digits of `2^(128 N) - 1`, 4933 at `N` = 128, and no permitted
FORMAT has more digits. -/
def Obligations.DigitBufferIsLargeEnough : Prop :=
  digcap Params.default = 4933 ∧
  ∀ p : Params, p.wellFormed = true →
    10 ^ (digcap p - 1) ≤ 2 ^ (128 * p.n) - 1 ∧ 2 ^ (128 * p.n) - 1 < 10 ^ digcap p ∧
    ∀ (s : State) (a n : Nat), n ≤ 2 * p.n → (decimalBytes (s.val a n)).length ≤ digcap p

/-- R230: PARSE then FORMAT of the same buffer gives the canonical decimal text of the numeral, whatever
leading zeros it had. -/
def Obligations.FormatOfParseIsCanonical : Prop :=
  ∀ (s : State) (ds : List Nat) (rest : List InItem),
    s.ready → s.params.wellFormed = true → s.args.len.toNat ≤ 2 * s.params.n →
    s.args.a.toNat + s.args.len.toNat ≤ s.params.bufWords → (∀ d ∈ ds, d ≤ 9) →
    s.input = digitItems ds ++ .byte 0x0A :: rest → numeralValue ds < 2 ^ (64 * s.args.len.toNat) →
    (decimalBytes (numeralValue ds)).length ≤ s.outReady →
    ∃ t u, exec .parse s = .next t ∧ exec (.format false) t = .next u ∧
      u.output = s.output ++ decimalBytes (numeralValue ds) ∧ u.status.done = true

/-- R124: commands of length 0 complete: ADD_SHORT reports the addend, IS_ZERO gives 1, FORMAT emits "0". -/
def Obligations.ZeroLengthCommandsComplete : Prop :=
  ∀ s : State, s.ready → s.args.len = 0 → s.args.a.toNat ≤ s.params.bufWords →
    (∃ t, exec .addShort s = .next t ∧ t.result = s.args.w ∧ t.bufram = s.bufram ∧ t.status.done = true) ∧
    (∃ t, exec .isZero s = .next t ∧ t.result = 1 ∧ t.status.zero = true ∧ t.status.done = true) ∧
    (1 ≤ s.outReady →
      ∃ t, exec (.format false) s = .next t ∧ t.output = s.output ++ [0x30] ∧ t.result = 1 ∧ t.status.done = true)

/-- R89: the host's items join `IN` in order; after `End` the stream stays closed, and the model discards
what is delivered (log entry 8). -/
def Obligations.DeliveredItemsJoinInOrder : Prop :=
  ∀ (s : State) (it : InItem), s.nextAction = some (.deliver it) →
    (.endItem ∉ s.input → step s = .next { s.popped with input := s.input ++ [it] }) ∧
    (.endItem ∈ s.input → step s = .next s.popped)

/-! ## Faults and dropped commands -/

/-- R120, R334: the argument checks in plain arithmetic and in their order; the first that fails gives the
fault, and a command whose checks pass does not fault. -/
def Obligations.ChecksRunInOrder : Prop :=
  ∀ (i : Instr) (s : State), s.ready →
    let x := s.args
    let len := x.len.toNat
    let tooLong := (i = .mulLong ∧ s.params.n < len) ∨ ((∃ nl, i = .format nl) ∧ 2 * s.params.n < len)
    let outside := s.params.bufWords < x.a.toNat + len ∨
      (i ∈ [.copy, .addLong, .mulLong] ∧ s.params.bufWords < x.b.toNat + len) ∨
      (i = .mulLong ∧ s.params.bufWords < x.p.toNat + 2 * len)
    let aliased := (i ∈ [.copy, .addLong] ∧ ¬apart x.a.toNat len x.b.toNat len) ∨
      (i = .mulLong ∧ (¬apart x.p.toNat (2 * len) x.a.toNat len ∨ ¬apart x.p.toNat (2 * len) x.b.toNat len))
    let faulted := fun c : Byte =>
      Host.Outcome.next { s with status := { s.status with fault := true, faultCode := c, done := false } }
    (tooLong → exec i s = faulted 0x03) ∧
    (¬tooLong ∧ outside → exec i s = faulted 0x04) ∧
    (¬tooLong ∧ ¬outside ∧ aliased → exec i s = faulted 0x05) ∧
    (¬tooLong ∧ ¬outside ∧ ¬aliased ∧ i = .divShort ∧ x.w = 0 → exec i s = faulted 0x06) ∧
    (¬tooLong ∧ ¬outside ∧ ¬aliased ∧ ¬(i = .divShort ∧ x.w = 0) →
      ∃ t, exec i s = .next t ∧ t.status.fault = false)

/-- R105, R331: a word with an illegal opcode or a reserved field faults with its code, and nothing else
changes. -/
def Obligations.IllegalWordsFault : Prop :=
  ∀ (s : State) (v : Word), s.ready →
    s.nextAction = some (.write (s.params.mmioBase + 0x010) 64 v) →
    (v.toNat % 256 ∉ [0x01, 0x02, 0x03, 0x10, 0x11, 0x12, 0x20, 0x21, 0x30, 0x31] →
      step s = .next { s.popped with
        reply := .ack, status := { s.status with fault := true, faultCode := 0x01, done := false } }) ∧
    (v.toNat % 256 ∈ [0x01, 0x02, 0x03, 0x10, 0x11, 0x12, 0x20, 0x21, 0x30, 0x31] →
      (v.toNat / 512 ≠ 0 ∨ (v.toNat / 256 % 2 = 1 ∧ v.toNat % 256 ≠ 0x31)) →
      step s = .next { s.popped with
        reply := .ack, status := { s.status with fault := true, faultCode := 0x02, done := false } })

/-- R122: a `CMD` write while `BUSY`, `FAULT` or `TERM` is 1 is dropped: `HAZ`, and nothing else. The agenda the
access is taken from is the model's (log entry 1), and so is the acknowledgement of a dropped write (log entry 5). -/
def Obligations.BlockedCommandsAreDropped : Prop :=
  ∀ (s : State) (v : Word), s.nextAction = some (.write (s.params.mmioBase + 0x010) 64 v) →
    (s.status.busy = true ∨ s.status.fault = true ∨ s.status.term = true) →
    step s = .next { s.popped with reply := .ack, status := { s.status with haz := true } }

/-! ## The register window -/

/-- R75: an access inside the window that is not 64 bits wide at a multiple of 8 gets the error response and
changes no state of the block. The agenda the access is taken from is the model's (log entry 1). -/
def Obligations.MisalignedAccessesAreRefused : Prop :=
  ∀ (s : State) (off width : Nat) (v : Word), off < 0x90000 → (width ≠ 64 ∨ off % 8 ≠ 0) →
    (s.nextAction = some (.read (s.params.mmioBase + off) width) ∨
      s.nextAction = some (.write (s.params.mmioBase + off) width v)) →
    step s = .next { s.popped with reply := .busError }

/-- R80: reserved offsets read 0 and ignore writes, idle or busy; an address outside the window is not the
block's, and the block does nothing (its reply there is the model's: log entry 5). -/
def Obligations.ReservedOffsetsReadZero : Prop :=
  (∀ (s : State) (off : Nat), off % 8 = 0 →
    (0x050 ≤ off ∧ off ≤ 0xFFF8 ∨ 0x10000 + 8 * s.params.bufWords ≤ off ∧ off ≤ 0x8FFF8) →
    (s.nextAction = some (.read (s.params.mmioBase + off) 64) →
      step s = .next { s.popped with reply := .data 0 }) ∧
    ∀ v : Word, s.nextAction = some (.write (s.params.mmioBase + off) 64 v) →
      step s = .next { s.popped with reply := .ack }) ∧
  ∀ (s : State) (addr width : Nat) (v : Word),
    (addr < s.params.mmioBase ∨ s.params.mmioBase + 0x90000 ≤ addr) →
    (s.nextAction = some (.read addr width) ∨ s.nextAction = some (.write addr width v)) →
    step s = .next { s.popped with reply := .undecoded }

/-- R76: host accesses while `BUSY` = 1. -/
def Obligations.BusyAccessesAreDropped : Prop :=
  ∀ (s : State) (off : Nat) (v : Word), s.status.busy = true → off % 8 = 0 →
    let ram := 0x10000 ≤ off ∧ off < 0x10000 + 8 * s.params.bufWords ∧ off < 0x90000
    let dropped := { s.popped with status := { s.status with haz := true } }
    ((0x018 ≤ off ∧ off ≤ 0x038 ∨ ram) → s.nextAction = some (.write (s.params.mmioBase + off) 64 v) →
      step s = .next { dropped with reply := .ack }) ∧
    (ram → s.nextAction = some (.read (s.params.mmioBase + off) 64) →
      step s = .next { dropped with reply := .data 0 }) ∧
    (off = 0x010 → s.nextAction = some (.write (s.params.mmioBase + off) 64 v) →
      step s = .next { dropped with reply := .ack })

/-- R79, R33 to R38: what a read of each register returns, idle or busy; reading changes nothing (R81). -/
def Obligations.RegisterReads : Prop :=
  ∀ (s : State) (off : Nat), s.nextAction = some (.read (s.params.mmioBase + off) 64) →
    (off = 0x008 → step s = .next { s.popped with reply := .data s.status.word }) ∧
    (off = 0x010 → step s = .next { s.popped with reply := .data 0 }) ∧
    (off = 0x018 → step s = .next { s.popped with reply := .data (BitVec.ofNat 64 s.args.a.toNat) }) ∧
    (off = 0x020 → step s = .next { s.popped with reply := .data (BitVec.ofNat 64 s.args.b.toNat) }) ∧
    (off = 0x028 → step s = .next { s.popped with reply := .data (BitVec.ofNat 64 s.args.p.toNat) }) ∧
    (off = 0x030 → step s = .next { s.popped with reply := .data (BitVec.ofNat 64 s.args.len.toNat) }) ∧
    (off = 0x038 → step s = .next { s.popped with reply := .data s.args.w }) ∧
    (off = 0x040 → step s = .next { s.popped with reply := .data s.result }) ∧
    (off = 0x048 → step s = .next { s.popped with reply := .data (BitVec.ofNat 64 s.exit.toNat) })

/-- R36, R37, R38: idle, a write to an argument register stores its live bits; `RESULT` and `EXIT` ignore
writes. -/
def Obligations.RegisterWrites : Prop :=
  ∀ (s : State) (off : Nat) (v : Word), s.status.busy = false →
    s.nextAction = some (.write (s.params.mmioBase + off) 64 v) →
    let low : Half := BitVec.ofNat 16 (v.toNat % 2 ^ 16)
    (off = 0x018 → step s = .next { s.popped with reply := .ack, args := { s.args with a := low } }) ∧
    (off = 0x020 → step s = .next { s.popped with reply := .ack, args := { s.args with b := low } }) ∧
    (off = 0x028 → step s = .next { s.popped with reply := .ack, args := { s.args with p := low } }) ∧
    (off = 0x030 → step s = .next { s.popped with reply := .ack, args := { s.args with len := low } }) ∧
    (off = 0x038 → step s = .next { s.popped with reply := .ack, args := { s.args with w := v } }) ∧
    (off = 0x040 ∨ off = 0x048 → step s = .next { s.popped with reply := .ack })

/-- R34: the layout of `STATUS`, bit by bit. -/
def Obligations.StatusLayout : Prop :=
  ∀ t : Status,
    t.word.getLsbD 0 = t.busy ∧ t.word.getLsbD 1 = t.done ∧ t.word.getLsbD 2 = t.fault ∧
    t.word.getLsbD 3 = t.term ∧ t.word.getLsbD 4 = t.trunc ∧ t.word.getLsbD 5 = t.zero ∧
    t.word.getLsbD 6 = t.haz ∧ t.word.getLsbD 7 = false ∧ t.word.toNat / 2 ^ 8 = t.faultCode.toNat

/-- R34, R335: a write to `STATUS` is accepted idle or busy; bit 2 clears `FAULT` and `FAULT_CODE`, bit 6 clears
`HAZ`, every other bit is ignored. -/
def Obligations.StatusWriteClears : Prop :=
  ∀ (s : State) (v : Word), s.nextAction = some (.write (s.params.mmioBase + 0x008) 64 v) →
    step s = .next { s.popped with
      reply := .ack,
      status := { s.status with
        fault := s.status.fault && !v.getLsbD 2,
        faultCode := if v.getLsbD 2 then 0 else s.status.faultCode,
        haz := s.status.haz && !v.getLsbD 6 } }

/-- R78, R79, R81: idle, a write to a `BUFRAM` word stores all 64 bits and leaves every other word alone, and a
read of a `BUFRAM` word returns it and changes nothing. -/
def Obligations.RamWindowReadsAndWrites : Prop :=
  ∀ (s : State) (k : Nat) (v : Word), s.status.busy = false → k < s.params.bufWords → k < 65536 →
    (s.nextAction = some (.read (s.params.mmioBase + (0x10000 + 8 * k)) 64) →
      step s = .next { s.popped with reply := .data (s.readWord k) }) ∧
    (s.nextAction = some (.write (s.params.mmioBase + (0x10000 + 8 * k)) 64 v) →
      ∃ t, step s = .next t ∧ t = { s.popped with reply := .ack, bufram := t.bufram } ∧
        t.readWord k = v ∧ ∀ j, j ≠ k → t.readWord j = s.readWord j)

/-- R73: byte lane `j` of word `k` is byte `8 k + j` and carries bits `8 j + 7 : 8 j` (the byte
addresses are the model's: log entry 10). -/
def Obligations.LanesAreLittleEndian : Prop :=
  ∀ (s : State) (k : Nat) (v : Word) (j : Nat), j < 8 →
    ((s.writeWord k v).readByte (8 * k + j)).toNat = v.toNat / 2 ^ (8 * j) % 256 ∧
    (s.readByte (8 * k + j)).toNat = (s.readWord k).toNat / 2 ^ (8 * j) % 256

/-! ## Frames -/

/-- R123, R331, R122, R30: the frame of the seven commands that are one word loop. Only `BUFRAM`, `RESULT`,
`STATUS` and the sequencer may change; `STATUS` changes as one of a drop, a fault and a completion. -/
def Obligations.BufferCommandFrame : Prop :=
  ∀ (i : Instr) (s t : State),
    i ∈ [.zeroFill, .copy, .isZero, .addShort, .mulShort, .divShort, .addLong] → exec i s = .next t →
      t = { s with bufram := t.bufram, result := t.result, status := t.status, seq := t.seq } ∧
      (t.status = { s.status with haz := true } ∧ t.result = s.result ∧ t.seq = s.seq ∨
        t.status = { s.status with fault := true, faultCode := t.status.faultCode, done := false } ∧
          t.result = s.result ∧ t.seq = s.seq ∨
        t.status
            = { s.status with busy := false, done := true, trunc := t.status.trunc, zero := t.status.zero } ∧
          t.seq = .idle) ∧
      ∀ a, (a < 8 * (writtenWords i s.args).1 ∨
          8 * (writtenWords i s.args).1 + 8 * (writtenWords i s.args).2 ≤ a) → t.readByte a = s.readByte a

/-- R193, R196, R123: the frame of MUL_LONG: as the buffer commands, with the product range written and the
scratch used (its occasion number is the model's: log entries 3, 7). -/
def Obligations.MulLongFrame : Prop :=
  ∀ s t : State, exec .mulLong s = .next t →
    t = { s with
          bufram := t.bufram, scr := t.scr, scrEpoch := t.scrEpoch, fresh := t.fresh, result := t.result,
          status := t.status, seq := t.seq } ∧
    (t.status = { s.status with haz := true } ∧ t.result = s.result ∧ t.seq = s.seq ∨
      t.status = { s.status with fault := true, faultCode := t.status.faultCode, done := false } ∧
        t.result = s.result ∧ t.seq = s.seq ∨
      t.status = { s.status with busy := false, done := true, trunc := false, zero := false } ∧
        t.result = 0 ∧ t.seq = .idle) ∧
    ∀ a, (a < 8 * s.args.p.toNat ∨ 8 * s.args.p.toNat + 8 * (2 * s.args.len.toNat) ≤ a) →
      t.readByte a = s.readByte a

/-- R231, R340, R229, R122, R331, R123: the frame of PARSE. It changes the block as one of a drop, a fault, a
completion, a hold and a termination (credit and occasion number: log entries 4, 3). -/
def Obligations.ParseFrame : Prop :=
  ∀ s t : State, exec .parse s = .next t →
    t = { s with
          bufram := t.bufram, result := t.result, status := t.status, seq := t.seq, exit := t.exit,
          input := t.input, diag := t.diag, diagReady := t.diagReady, fresh := t.fresh } ∧
    (t = { s with status := { s.status with haz := true } } ∨
      t = { s with status := { s.status with fault := true, faultCode := t.status.faultCode, done := false } } ∨
      (t.status = { s.status with busy := false, done := true, trunc := t.status.trunc, zero := false } ∧
        t.exit = s.exit ∧ t.seq = .idle) ∨
      (t.status = { s.status with busy := true, done := false } ∧ t.result = s.result ∧ t.exit = s.exit ∧
        (∃ r, t.seq = .busy r ∧ r.op = .parse ∧ r.args = s.args ∧
          (r.parseState = some .accumulating ∨ r.parseState = some .invalidCharacter)) ∧
        sequencerTurn t = .next t) ∨
      (s.status.term = false ∧ t.status = { s.status with busy := false, done := false, term := true } ∧
        t.result = s.result ∧ (t.exit = 1 ∨ t.exit = 2) ∧ t.seq = .terminated)) ∧
    (∃ taken, s.input = taken ++ t.input) ∧
    ∀ a, (a < 8 * s.args.a.toNat ∨ 8 * s.args.a.toNat + 8 * s.args.len.toNat ≤ a) → t.readByte a = s.readByte a

/-- R240, R245, R122, R331, R123: the frame of FORMAT. It changes the block as one of a drop, a fault, a completion
and a hold (credit and occasion number: log entries 4, 3, 7). -/
def Obligations.FormatFrame : Prop :=
  ∀ (nl : Bool) (s t : State), exec (.format nl) s = .next t →
    t = { s with
          bufram := t.bufram, fmtBuf := t.fmtBuf, fmtEpoch := t.fmtEpoch, fresh := t.fresh, result := t.result,
          status := t.status, seq := t.seq, output := t.output, outReady := t.outReady } ∧
    (t = { s with status := { s.status with haz := true } } ∨
      t = { s with status := { s.status with fault := true, faultCode := t.status.faultCode, done := false } } ∨
      (t.status = { s.status with busy := false, done := true, trunc := false, zero := false } ∧ t.seq = .idle) ∨
      (t.status = { s.status with busy := true, done := false } ∧ t.result = s.result ∧
        (∃ r, t.seq = .busy r ∧ r.op = .format nl ∧ r.args = s.args) ∧ sequencerTurn t = .next t)) ∧
    (∃ l, t.output = s.output ++ l ∧ t.outReady + l.length = s.outReady) ∧
    ∀ a, (a < 8 * s.args.a.toNat ∨ 8 * s.args.a.toNat + 8 * s.args.len.toNat ≤ a) → t.readByte a = s.readByte a

/-! ## Host programs -/

/-- R107, R108: the register writes of a command line, made one after the other by a host while the block is not
busy, are exec of the line's command with the line's operands in the argument registers. The host's run is the
model's form of a host program (log entry 15). -/
def Obligations.CommandLineRunsItsCommand : Prop :=
  ∀ (c : CommandLine) (s t : State) (rest : List HostOp) (e : Option Byte), s.status.busy = false →
    exec c.instr { s with agenda := [], reply := .ack, args := c.args s.args } = .next t →
    hostRun (List.replicate (c.accesses s.params.mmioBase).length [])
        { ops := (c.accesses s.params.mmioBase).map .access ++ rest, exit := e, block := s }
      = .next { ops := rest, exit := e, block := t }

/-- R109: WAIT ends in two turns once the block is not busy, and while it is busy lets the sequencer move once and
reads `STATUS` again; CLEARF clears `FAULT` and `HAZ`; GETW after SETW of the same word returns what was stored. The
host's run is the model's form of a host program (log entry 15). -/
def Obligations.PseudoInstructionsAct : Prop :=
  ∀ (s : State) (rest : List HostOp) (e : Option Byte),
    let read := { s with agenda := [], reply := .data s.status.word }
    (s.status.busy = false →
      hostRun [[], []] { ops := HostLine.wait.expand s.params.mmioBase ++ rest, exit := e, block := s }
        = .next { ops := rest, exit := e, block := read }) ∧
    (∀ t : State, s.status.busy = true → sequencerTurn read = .next t →
      hostRun [[], []] { ops := HostLine.wait.expand s.params.mmioBase ++ rest, exit := e, block := s }
        = .next { ops := HostLine.wait.expand s.params.mmioBase ++ rest, exit := e, block := t }) ∧
    hostRun [[]] { ops := HostLine.clearf.expand s.params.mmioBase ++ rest, exit := e, block := s }
      = .next { ops := rest, exit := e, block := { s with
          agenda := [], reply := .ack, status := { s.status with fault := false, faultCode := 0, haz := false } } } ∧
    ∀ (k : Nat) (v : Word), s.status.busy = false → k < s.params.bufWords → k < 65536 →
      ∃ t, hostRun [[], []]
          { ops := (HostLine.setw k v).expand s.params.mmioBase ++ (HostLine.getw k).expand s.params.mmioBase ++ rest,
            exit := e, block := s } = .next { ops := rest, exit := e, block := t } ∧
        t.reply = .data v ∧ t.readWord k = v

/-- R308, R302, R304, R307: the driver program over two delivered numerals, each ended by a newline, or the
multiplier by `End`, with a host ready for the text: the run ends in success with exit code 0, no fault, and on `OUT`
the decimal text of the product of the stored values, then a newline. A numeral too long for `N` words is stored modulo
`2^(64 N)`. The host's run, and its readiness as a count, are the model's (log entries 15, 4). -/
def Obligations.DriverMultipliesTheNumerals : Prop :=
  ∀ (s : State) (xs ys : List Nat) (tail after : List InItem),
    s.ready → s.params.wellFormed = true → (∀ d ∈ xs, d ≤ 9) → (∀ d ∈ ys, d ≤ 9) →
    s.input = digitItems xs ++ .byte 0x0A :: (digitItems ys ++ tail) →
    (tail = .byte 0x0A :: after ∨ (ys ≠ [] ∧ tail = after ∧ after.head? = some .endItem)) →
    let x := numeralValue xs % 2 ^ (64 * s.params.n)
    let y := numeralValue ys % 2 ^ (64 * s.params.n)
    (decimalBytes (x * y)).length + 1 ≤ s.outReady →
    ∃ (k : Nat) (h : HostRun), hostRun (List.replicate k []) (driverStart s) = .next h ∧
      h.ops = [] ∧ h.exit = some 0 ∧ h.ended = some .success ∧
      h.block.output = s.output ++ decimalBytes (x * y) ++ [0x0A] ∧ h.block.diag = s.diag ∧ h.block.input = after

/-- R303, R305, R306, R227: the driver program over a numeral that fails, the multiplicand, or the multiplier after a
multiplicand ended by a newline. `End` before any digit stops it with exit code 2 and no diagnostic, as does a
multiplicand ended by `End`; an invalid byte stops it with exit code 1 and its diagnostic, the line taken through its
newline or up to `End`. Nothing goes to `OUT`. The host's run, and its readiness as a count, are the model's (log
entries 15, 4). -/
def Obligations.DriverStopsOnInputErrors : Prop :=
  ∀ (s : State) (before : List InItem) (xs ds : List Nat), s.ready → s.params.wellFormed = true →
    (∀ d ∈ xs, d ≤ 9) → (∀ d ∈ ds, d ≤ 9) → (before = [] ∨ before = digitItems xs ++ [.byte 0x0A]) →
    let stops := fun (code : Byte) (diag : List Byte) (input : List InItem) =>
      ∃ (k : Nat) (h : HostRun), hostRun (List.replicate k []) (driverStart s) = .next h ∧
        h.ops = [] ∧ h.exit = some code ∧ h.ended = some (.terminated code) ∧
        h.block.output = s.output ∧ h.block.diag = diag ∧ h.block.input = input
    (∀ rest, s.input = before ++ .endItem :: rest → stops 2 s.diag (.endItem :: rest)) ∧
    (∀ rest, s.input = digitItems ds ++ .endItem :: rest → stops 2 s.diag (.endItem :: rest)) ∧
    ∀ (x : Byte) (junk : List Byte) (tail after : List InItem),
      x ≠ 0x0A → (x.toNat < 0x30 ∨ 0x39 < x.toNat) → 0x0A ∉ junk → 21 ≤ s.diagReady →
      s.input = before ++ (digitItems ds ++ .byte x :: (junk.map .byte ++ tail)) →
      (tail = .byte 0x0A :: after ∨ (tail = after ∧ after.head? = some .endItem)) →
      stops 1 (s.diag ++ diagnostic x) after
end

