-- ==== Sys2Proof/Laws/Cells.lean ====
section
/-!
SUPPORT. Reading and writing a list of cells, and the canonical form every operation on it keeps.
-/
namespace Sys2Proof.Machine

variable {α : Type}

/-- Reading what was just written. -/
@[simp] theorem cellGet_cellPut_same (k : Nat) (v : α) (m : List (Nat × α)) : cellGet k (cellPut k v m) = some v := by
  induction m with
  | nil => simp [cellPut, cellGet]
  | cons c rest ih =>
    obtain ⟨j, u⟩ := c
    simp only [cellPut]
    split
    · simp [cellGet]
    · split
      · simp [cellGet]
      · simp [cellGet, *]

/-- A write leaves every other key alone. -/
theorem cellGet_cellPut_ne {k k' : Nat} (h : k' ≠ k) (v : α) (m : List (Nat × α)) :
    cellGet k' (cellPut k v m) = cellGet k' m := by
  induction m with
  | nil => simp [cellPut, cellGet, h]
  | cons c rest ih =>
    obtain ⟨j, u⟩ := c
    simp only [cellPut]
    split
    · simp [cellGet, h]
    · split
      · subst_vars; simp [cellGet, h]
      · simp [cellGet, ih]

/-- A smaller lower bound is weaker. -/
theorem cellsWf_mono {lo lo' hi : Nat} (h : lo' ≤ lo) {m : List (Nat × α)} (w : cellsWf lo hi m = true) :
    cellsWf lo' hi m = true := by
  cases m with
  | nil => rfl
  | cons c rest =>
    simp only [cellsWf, Bool.and_eq_true, decide_eq_true_eq] at w ⊢
    exact ⟨⟨by omega, w.1.2⟩, w.2⟩

/-- A write inside the bounds keeps the canonical form. -/
theorem cellsWf_cellPut {lo hi k : Nat} (hlo : lo ≤ k) (hhi : k < hi) (v : α) {m : List (Nat × α)}
    (w : cellsWf lo hi m = true) : cellsWf lo hi (cellPut k v m) = true := by
  induction m generalizing lo with
  | nil => simp [cellPut, cellsWf, hlo, hhi]
  | cons c rest ih =>
    obtain ⟨j, u⟩ := c
    simp only [cellsWf, Bool.and_eq_true, decide_eq_true_eq] at w
    simp only [cellPut]
    split
    · simp only [cellsWf, Bool.and_eq_true, decide_eq_true_eq]
      exact ⟨⟨hlo, hhi⟩, ⟨by omega, w.1.2⟩, w.2⟩
    · split
      · subst_vars
        simp only [cellsWf, Bool.and_eq_true, decide_eq_true_eq]
        exact ⟨⟨hlo, hhi⟩, w.2⟩
      · simp only [cellsWf, Bool.and_eq_true, decide_eq_true_eq]
        exact ⟨w.1, ih (by omega) w.2⟩

/-- What `freeBytes` lists: the free values at its addresses, everything else as before. -/
theorem cellGet_freeBytes (id base n a : Nat) (m : List Host.Cell) :
    cellGet a (freeBytes id base n m)
      = if base ≤ a ∧ a < base + n then some (Config.freeRam id a) else cellGet a m := by
  induction n generalizing m with
  | zero =>
    have h : ¬(base ≤ a ∧ a < base + 0) := by omega
    simp only [freeBytes, h, if_false]
  | succ n ih =>
    rw [freeBytes, ih]
    by_cases e : a = base + n
    · subst e
      simp
    · rw [cellGet_cellPut_ne e]
      congr 1
      simp only [eq_iff_iff]
      omega

/-- `freeBytes` keeps the canonical form. -/
theorem cellsWf_freeBytes {id base n hi : Nat} (h : base + n ≤ hi) {m : List Host.Cell} (w : cellsWf 0 hi m = true) :
    cellsWf 0 hi (freeBytes id base n m) = true := by
  induction n generalizing m with
  | zero => exact w
  | succ n ih => exact ih (by omega) (cellsWf_cellPut (by omega) (by omega) _ w)

end Sys2Proof.Machine
end

