-- ==== Sys2Proof/Laws/Operands.lean ====
section
/-!
SUPPORT. Bounds, overlap and the argument checks in plain arithmetic (20_memory.md R71, 30_encoding.md R120).
-/
namespace Sys2Proof.Machine

theorem Range.inBounds_iff (r : Range) (p : Params) : r.inBounds p = true ↔ r.base + r.count ≤ p.bufWords := by
  simp [Range.inBounds]

theorem Range.overlaps_iff (r q : Range) :
    r.overlaps q = true ↔ 0 < r.count ∧ 0 < q.count ∧ r.base < q.base + q.count ∧ q.base < r.base + r.count := by
  simp [Range.overlaps, and_assoc]

theorem Range.overlaps_eq_false_iff (r q : Range) :
    r.overlaps q = false ↔
      r.count = 0 ∨ q.count = 0 ∨ q.base + q.count ≤ r.base ∨ r.base + r.count ≤ q.base := by
  rw [← Bool.not_eq_true, Range.overlaps_iff]
  omega

/-- The arguments pass when no check fails. -/
theorem check_eq_none_iff (i : Instr) (x : Args) (p : Params) :
    check i x p = none ↔
      lengthFails i x p = false ∧ boundsFails i x p = false ∧ aliasFails i x = false ∧ divisorFails i x = false := by
  unfold check
  repeat' split
  all_goals simp_all

/-- The range `(A, LEN)` of an accepted command is in bounds, whatever the command (R102). -/
theorem rangeA_inBounds {i : Instr} {x : Args} {p : Params} (h : check i x p = none) :
    x.a.toNat + x.len.toNat ≤ p.bufWords := by
  have hb := ((check_eq_none_iff i x p).mp h).2.1
  cases i <;> simp_all [boundsFails, ranges, Range.inBounds, Args.rangeA]

/-- The product range of an accepted MUL_LONG is in bounds (R102). -/
theorem rangeP_inBounds {x : Args} {p : Params} (h : check .mulLong x p = none) :
    x.p.toNat + 2 * x.len.toNat ≤ p.bufWords := by
  have hb := ((check_eq_none_iff .mulLong x p).mp h).2.1
  simp_all [boundsFails, ranges, Range.inBounds, Args.rangeP]

end Sys2Proof.Machine
end

