-- ==== Sys2Proof/Laws/State.lean ====
section
/-!
SUPPORT. One lemma per field per named update of State: what an update leaves of each field.
-/
namespace Sys2Proof.Machine

@[simp] theorem State.setBufram_params (s : State) (v : List Host.Cell) : (s.setBufram v).params = s.params := rfl
@[simp] theorem State.setBufram_bufram (s : State) (v : List Host.Cell) : (s.setBufram v).bufram = v := rfl
@[simp] theorem State.setBufram_status (s : State) (v : List Host.Cell) : (s.setBufram v).status = s.status := rfl
@[simp] theorem State.setBufram_args (s : State) (v : List Host.Cell) : (s.setBufram v).args = s.args := rfl
@[simp] theorem State.setBufram_result (s : State) (v : List Host.Cell) : (s.setBufram v).result = s.result := rfl
@[simp] theorem State.setBufram_exit (s : State) (v : List Host.Cell) : (s.setBufram v).exit = s.exit := rfl
@[simp] theorem State.setBufram_scr (s : State) (v : List Host.Cell) : (s.setBufram v).scr = s.scr := rfl
@[simp] theorem State.setBufram_fmtBuf (s : State) (v : List Host.Cell) : (s.setBufram v).fmtBuf = s.fmtBuf := rfl
@[simp] theorem State.setBufram_seq (s : State) (v : List Host.Cell) : (s.setBufram v).seq = s.seq := rfl
@[simp] theorem State.setBufram_input (s : State) (v : List Host.Cell) : (s.setBufram v).input = s.input := rfl
@[simp] theorem State.setBufram_output (s : State) (v : List Host.Cell) : (s.setBufram v).output = s.output := rfl
@[simp] theorem State.setBufram_diag (s : State) (v : List Host.Cell) : (s.setBufram v).diag = s.diag := rfl
@[simp] theorem State.setBufram_outReady (s : State) (v : List Host.Cell) : (s.setBufram v).outReady = s.outReady := rfl
@[simp] theorem State.setBufram_diagReady (s : State) (v : List Host.Cell) : (s.setBufram v).diagReady = s.diagReady := rfl
@[simp] theorem State.setBufram_agenda (s : State) (v : List Host.Cell) : (s.setBufram v).agenda = s.agenda := rfl
@[simp] theorem State.setBufram_reply (s : State) (v : List Host.Cell) : (s.setBufram v).reply = s.reply := rfl
@[simp] theorem State.setBufram_epoch (s : State) (v : List Host.Cell) : (s.setBufram v).epoch = s.epoch := rfl
@[simp] theorem State.setBufram_scrEpoch (s : State) (v : List Host.Cell) : (s.setBufram v).scrEpoch = s.scrEpoch := rfl
@[simp] theorem State.setBufram_fmtEpoch (s : State) (v : List Host.Cell) : (s.setBufram v).fmtEpoch = s.fmtEpoch := rfl
@[simp] theorem State.setBufram_fresh (s : State) (v : List Host.Cell) : (s.setBufram v).fresh = s.fresh := rfl

@[simp] theorem State.setStatus_params (s : State) (v : Status) : (s.setStatus v).params = s.params := rfl
@[simp] theorem State.setStatus_bufram (s : State) (v : Status) : (s.setStatus v).bufram = s.bufram := rfl
@[simp] theorem State.setStatus_status (s : State) (v : Status) : (s.setStatus v).status = v := rfl
@[simp] theorem State.setStatus_args (s : State) (v : Status) : (s.setStatus v).args = s.args := rfl
@[simp] theorem State.setStatus_result (s : State) (v : Status) : (s.setStatus v).result = s.result := rfl
@[simp] theorem State.setStatus_exit (s : State) (v : Status) : (s.setStatus v).exit = s.exit := rfl
@[simp] theorem State.setStatus_scr (s : State) (v : Status) : (s.setStatus v).scr = s.scr := rfl
@[simp] theorem State.setStatus_fmtBuf (s : State) (v : Status) : (s.setStatus v).fmtBuf = s.fmtBuf := rfl
@[simp] theorem State.setStatus_seq (s : State) (v : Status) : (s.setStatus v).seq = s.seq := rfl
@[simp] theorem State.setStatus_input (s : State) (v : Status) : (s.setStatus v).input = s.input := rfl
@[simp] theorem State.setStatus_output (s : State) (v : Status) : (s.setStatus v).output = s.output := rfl
@[simp] theorem State.setStatus_diag (s : State) (v : Status) : (s.setStatus v).diag = s.diag := rfl
@[simp] theorem State.setStatus_outReady (s : State) (v : Status) : (s.setStatus v).outReady = s.outReady := rfl
@[simp] theorem State.setStatus_diagReady (s : State) (v : Status) : (s.setStatus v).diagReady = s.diagReady := rfl
@[simp] theorem State.setStatus_agenda (s : State) (v : Status) : (s.setStatus v).agenda = s.agenda := rfl
@[simp] theorem State.setStatus_reply (s : State) (v : Status) : (s.setStatus v).reply = s.reply := rfl
@[simp] theorem State.setStatus_epoch (s : State) (v : Status) : (s.setStatus v).epoch = s.epoch := rfl
@[simp] theorem State.setStatus_scrEpoch (s : State) (v : Status) : (s.setStatus v).scrEpoch = s.scrEpoch := rfl
@[simp] theorem State.setStatus_fmtEpoch (s : State) (v : Status) : (s.setStatus v).fmtEpoch = s.fmtEpoch := rfl
@[simp] theorem State.setStatus_fresh (s : State) (v : Status) : (s.setStatus v).fresh = s.fresh := rfl

@[simp] theorem State.setArgs_params (s : State) (v : Args) : (s.setArgs v).params = s.params := rfl
@[simp] theorem State.setArgs_bufram (s : State) (v : Args) : (s.setArgs v).bufram = s.bufram := rfl
@[simp] theorem State.setArgs_status (s : State) (v : Args) : (s.setArgs v).status = s.status := rfl
@[simp] theorem State.setArgs_args (s : State) (v : Args) : (s.setArgs v).args = v := rfl
@[simp] theorem State.setArgs_result (s : State) (v : Args) : (s.setArgs v).result = s.result := rfl
@[simp] theorem State.setArgs_exit (s : State) (v : Args) : (s.setArgs v).exit = s.exit := rfl
@[simp] theorem State.setArgs_scr (s : State) (v : Args) : (s.setArgs v).scr = s.scr := rfl
@[simp] theorem State.setArgs_fmtBuf (s : State) (v : Args) : (s.setArgs v).fmtBuf = s.fmtBuf := rfl
@[simp] theorem State.setArgs_seq (s : State) (v : Args) : (s.setArgs v).seq = s.seq := rfl
@[simp] theorem State.setArgs_input (s : State) (v : Args) : (s.setArgs v).input = s.input := rfl
@[simp] theorem State.setArgs_output (s : State) (v : Args) : (s.setArgs v).output = s.output := rfl
@[simp] theorem State.setArgs_diag (s : State) (v : Args) : (s.setArgs v).diag = s.diag := rfl
@[simp] theorem State.setArgs_outReady (s : State) (v : Args) : (s.setArgs v).outReady = s.outReady := rfl
@[simp] theorem State.setArgs_diagReady (s : State) (v : Args) : (s.setArgs v).diagReady = s.diagReady := rfl
@[simp] theorem State.setArgs_agenda (s : State) (v : Args) : (s.setArgs v).agenda = s.agenda := rfl
@[simp] theorem State.setArgs_reply (s : State) (v : Args) : (s.setArgs v).reply = s.reply := rfl
@[simp] theorem State.setArgs_epoch (s : State) (v : Args) : (s.setArgs v).epoch = s.epoch := rfl
@[simp] theorem State.setArgs_scrEpoch (s : State) (v : Args) : (s.setArgs v).scrEpoch = s.scrEpoch := rfl
@[simp] theorem State.setArgs_fmtEpoch (s : State) (v : Args) : (s.setArgs v).fmtEpoch = s.fmtEpoch := rfl
@[simp] theorem State.setArgs_fresh (s : State) (v : Args) : (s.setArgs v).fresh = s.fresh := rfl

@[simp] theorem State.setResult_params (s : State) (v : Word) : (s.setResult v).params = s.params := rfl
@[simp] theorem State.setResult_bufram (s : State) (v : Word) : (s.setResult v).bufram = s.bufram := rfl
@[simp] theorem State.setResult_status (s : State) (v : Word) : (s.setResult v).status = s.status := rfl
@[simp] theorem State.setResult_args (s : State) (v : Word) : (s.setResult v).args = s.args := rfl
@[simp] theorem State.setResult_result (s : State) (v : Word) : (s.setResult v).result = v := rfl
@[simp] theorem State.setResult_exit (s : State) (v : Word) : (s.setResult v).exit = s.exit := rfl
@[simp] theorem State.setResult_scr (s : State) (v : Word) : (s.setResult v).scr = s.scr := rfl
@[simp] theorem State.setResult_fmtBuf (s : State) (v : Word) : (s.setResult v).fmtBuf = s.fmtBuf := rfl
@[simp] theorem State.setResult_seq (s : State) (v : Word) : (s.setResult v).seq = s.seq := rfl
@[simp] theorem State.setResult_input (s : State) (v : Word) : (s.setResult v).input = s.input := rfl
@[simp] theorem State.setResult_output (s : State) (v : Word) : (s.setResult v).output = s.output := rfl
@[simp] theorem State.setResult_diag (s : State) (v : Word) : (s.setResult v).diag = s.diag := rfl
@[simp] theorem State.setResult_outReady (s : State) (v : Word) : (s.setResult v).outReady = s.outReady := rfl
@[simp] theorem State.setResult_diagReady (s : State) (v : Word) : (s.setResult v).diagReady = s.diagReady := rfl
@[simp] theorem State.setResult_agenda (s : State) (v : Word) : (s.setResult v).agenda = s.agenda := rfl
@[simp] theorem State.setResult_reply (s : State) (v : Word) : (s.setResult v).reply = s.reply := rfl
@[simp] theorem State.setResult_epoch (s : State) (v : Word) : (s.setResult v).epoch = s.epoch := rfl
@[simp] theorem State.setResult_scrEpoch (s : State) (v : Word) : (s.setResult v).scrEpoch = s.scrEpoch := rfl
@[simp] theorem State.setResult_fmtEpoch (s : State) (v : Word) : (s.setResult v).fmtEpoch = s.fmtEpoch := rfl
@[simp] theorem State.setResult_fresh (s : State) (v : Word) : (s.setResult v).fresh = s.fresh := rfl

@[simp] theorem State.setExit_params (s : State) (v : Byte) : (s.setExit v).params = s.params := rfl
@[simp] theorem State.setExit_bufram (s : State) (v : Byte) : (s.setExit v).bufram = s.bufram := rfl
@[simp] theorem State.setExit_status (s : State) (v : Byte) : (s.setExit v).status = s.status := rfl
@[simp] theorem State.setExit_args (s : State) (v : Byte) : (s.setExit v).args = s.args := rfl
@[simp] theorem State.setExit_result (s : State) (v : Byte) : (s.setExit v).result = s.result := rfl
@[simp] theorem State.setExit_exit (s : State) (v : Byte) : (s.setExit v).exit = v := rfl
@[simp] theorem State.setExit_scr (s : State) (v : Byte) : (s.setExit v).scr = s.scr := rfl
@[simp] theorem State.setExit_fmtBuf (s : State) (v : Byte) : (s.setExit v).fmtBuf = s.fmtBuf := rfl
@[simp] theorem State.setExit_seq (s : State) (v : Byte) : (s.setExit v).seq = s.seq := rfl
@[simp] theorem State.setExit_input (s : State) (v : Byte) : (s.setExit v).input = s.input := rfl
@[simp] theorem State.setExit_output (s : State) (v : Byte) : (s.setExit v).output = s.output := rfl
@[simp] theorem State.setExit_diag (s : State) (v : Byte) : (s.setExit v).diag = s.diag := rfl
@[simp] theorem State.setExit_outReady (s : State) (v : Byte) : (s.setExit v).outReady = s.outReady := rfl
@[simp] theorem State.setExit_diagReady (s : State) (v : Byte) : (s.setExit v).diagReady = s.diagReady := rfl
@[simp] theorem State.setExit_agenda (s : State) (v : Byte) : (s.setExit v).agenda = s.agenda := rfl
@[simp] theorem State.setExit_reply (s : State) (v : Byte) : (s.setExit v).reply = s.reply := rfl
@[simp] theorem State.setExit_epoch (s : State) (v : Byte) : (s.setExit v).epoch = s.epoch := rfl
@[simp] theorem State.setExit_scrEpoch (s : State) (v : Byte) : (s.setExit v).scrEpoch = s.scrEpoch := rfl
@[simp] theorem State.setExit_fmtEpoch (s : State) (v : Byte) : (s.setExit v).fmtEpoch = s.fmtEpoch := rfl
@[simp] theorem State.setExit_fresh (s : State) (v : Byte) : (s.setExit v).fresh = s.fresh := rfl

@[simp] theorem State.setScr_params (s : State) (v : List (Nat × Word)) : (s.setScr v).params = s.params := rfl
@[simp] theorem State.setScr_bufram (s : State) (v : List (Nat × Word)) : (s.setScr v).bufram = s.bufram := rfl
@[simp] theorem State.setScr_status (s : State) (v : List (Nat × Word)) : (s.setScr v).status = s.status := rfl
@[simp] theorem State.setScr_args (s : State) (v : List (Nat × Word)) : (s.setScr v).args = s.args := rfl
@[simp] theorem State.setScr_result (s : State) (v : List (Nat × Word)) : (s.setScr v).result = s.result := rfl
@[simp] theorem State.setScr_exit (s : State) (v : List (Nat × Word)) : (s.setScr v).exit = s.exit := rfl
@[simp] theorem State.setScr_scr (s : State) (v : List (Nat × Word)) : (s.setScr v).scr = v := rfl
@[simp] theorem State.setScr_fmtBuf (s : State) (v : List (Nat × Word)) : (s.setScr v).fmtBuf = s.fmtBuf := rfl
@[simp] theorem State.setScr_seq (s : State) (v : List (Nat × Word)) : (s.setScr v).seq = s.seq := rfl
@[simp] theorem State.setScr_input (s : State) (v : List (Nat × Word)) : (s.setScr v).input = s.input := rfl
@[simp] theorem State.setScr_output (s : State) (v : List (Nat × Word)) : (s.setScr v).output = s.output := rfl
@[simp] theorem State.setScr_diag (s : State) (v : List (Nat × Word)) : (s.setScr v).diag = s.diag := rfl
@[simp] theorem State.setScr_outReady (s : State) (v : List (Nat × Word)) : (s.setScr v).outReady = s.outReady := rfl
@[simp] theorem State.setScr_diagReady (s : State) (v : List (Nat × Word)) : (s.setScr v).diagReady = s.diagReady := rfl
@[simp] theorem State.setScr_agenda (s : State) (v : List (Nat × Word)) : (s.setScr v).agenda = s.agenda := rfl
@[simp] theorem State.setScr_reply (s : State) (v : List (Nat × Word)) : (s.setScr v).reply = s.reply := rfl
@[simp] theorem State.setScr_epoch (s : State) (v : List (Nat × Word)) : (s.setScr v).epoch = s.epoch := rfl
@[simp] theorem State.setScr_scrEpoch (s : State) (v : List (Nat × Word)) : (s.setScr v).scrEpoch = s.scrEpoch := rfl
@[simp] theorem State.setScr_fmtEpoch (s : State) (v : List (Nat × Word)) : (s.setScr v).fmtEpoch = s.fmtEpoch := rfl
@[simp] theorem State.setScr_fresh (s : State) (v : List (Nat × Word)) : (s.setScr v).fresh = s.fresh := rfl

@[simp] theorem State.setFmtBuf_params (s : State) (v : List Host.Cell) : (s.setFmtBuf v).params = s.params := rfl
@[simp] theorem State.setFmtBuf_bufram (s : State) (v : List Host.Cell) : (s.setFmtBuf v).bufram = s.bufram := rfl
@[simp] theorem State.setFmtBuf_status (s : State) (v : List Host.Cell) : (s.setFmtBuf v).status = s.status := rfl
@[simp] theorem State.setFmtBuf_args (s : State) (v : List Host.Cell) : (s.setFmtBuf v).args = s.args := rfl
@[simp] theorem State.setFmtBuf_result (s : State) (v : List Host.Cell) : (s.setFmtBuf v).result = s.result := rfl
@[simp] theorem State.setFmtBuf_exit (s : State) (v : List Host.Cell) : (s.setFmtBuf v).exit = s.exit := rfl
@[simp] theorem State.setFmtBuf_scr (s : State) (v : List Host.Cell) : (s.setFmtBuf v).scr = s.scr := rfl
@[simp] theorem State.setFmtBuf_fmtBuf (s : State) (v : List Host.Cell) : (s.setFmtBuf v).fmtBuf = v := rfl
@[simp] theorem State.setFmtBuf_seq (s : State) (v : List Host.Cell) : (s.setFmtBuf v).seq = s.seq := rfl
@[simp] theorem State.setFmtBuf_input (s : State) (v : List Host.Cell) : (s.setFmtBuf v).input = s.input := rfl
@[simp] theorem State.setFmtBuf_output (s : State) (v : List Host.Cell) : (s.setFmtBuf v).output = s.output := rfl
@[simp] theorem State.setFmtBuf_diag (s : State) (v : List Host.Cell) : (s.setFmtBuf v).diag = s.diag := rfl
@[simp] theorem State.setFmtBuf_outReady (s : State) (v : List Host.Cell) : (s.setFmtBuf v).outReady = s.outReady := rfl
@[simp] theorem State.setFmtBuf_diagReady (s : State) (v : List Host.Cell) : (s.setFmtBuf v).diagReady = s.diagReady := rfl
@[simp] theorem State.setFmtBuf_agenda (s : State) (v : List Host.Cell) : (s.setFmtBuf v).agenda = s.agenda := rfl
@[simp] theorem State.setFmtBuf_reply (s : State) (v : List Host.Cell) : (s.setFmtBuf v).reply = s.reply := rfl
@[simp] theorem State.setFmtBuf_epoch (s : State) (v : List Host.Cell) : (s.setFmtBuf v).epoch = s.epoch := rfl
@[simp] theorem State.setFmtBuf_scrEpoch (s : State) (v : List Host.Cell) : (s.setFmtBuf v).scrEpoch = s.scrEpoch := rfl
@[simp] theorem State.setFmtBuf_fmtEpoch (s : State) (v : List Host.Cell) : (s.setFmtBuf v).fmtEpoch = s.fmtEpoch := rfl
@[simp] theorem State.setFmtBuf_fresh (s : State) (v : List Host.Cell) : (s.setFmtBuf v).fresh = s.fresh := rfl

@[simp] theorem State.setSeq_params (s : State) (v : Sequencer) : (s.setSeq v).params = s.params := rfl
@[simp] theorem State.setSeq_bufram (s : State) (v : Sequencer) : (s.setSeq v).bufram = s.bufram := rfl
@[simp] theorem State.setSeq_status (s : State) (v : Sequencer) : (s.setSeq v).status = s.status := rfl
@[simp] theorem State.setSeq_args (s : State) (v : Sequencer) : (s.setSeq v).args = s.args := rfl
@[simp] theorem State.setSeq_result (s : State) (v : Sequencer) : (s.setSeq v).result = s.result := rfl
@[simp] theorem State.setSeq_exit (s : State) (v : Sequencer) : (s.setSeq v).exit = s.exit := rfl
@[simp] theorem State.setSeq_scr (s : State) (v : Sequencer) : (s.setSeq v).scr = s.scr := rfl
@[simp] theorem State.setSeq_fmtBuf (s : State) (v : Sequencer) : (s.setSeq v).fmtBuf = s.fmtBuf := rfl
@[simp] theorem State.setSeq_seq (s : State) (v : Sequencer) : (s.setSeq v).seq = v := rfl
@[simp] theorem State.setSeq_input (s : State) (v : Sequencer) : (s.setSeq v).input = s.input := rfl
@[simp] theorem State.setSeq_output (s : State) (v : Sequencer) : (s.setSeq v).output = s.output := rfl
@[simp] theorem State.setSeq_diag (s : State) (v : Sequencer) : (s.setSeq v).diag = s.diag := rfl
@[simp] theorem State.setSeq_outReady (s : State) (v : Sequencer) : (s.setSeq v).outReady = s.outReady := rfl
@[simp] theorem State.setSeq_diagReady (s : State) (v : Sequencer) : (s.setSeq v).diagReady = s.diagReady := rfl
@[simp] theorem State.setSeq_agenda (s : State) (v : Sequencer) : (s.setSeq v).agenda = s.agenda := rfl
@[simp] theorem State.setSeq_reply (s : State) (v : Sequencer) : (s.setSeq v).reply = s.reply := rfl
@[simp] theorem State.setSeq_epoch (s : State) (v : Sequencer) : (s.setSeq v).epoch = s.epoch := rfl
@[simp] theorem State.setSeq_scrEpoch (s : State) (v : Sequencer) : (s.setSeq v).scrEpoch = s.scrEpoch := rfl
@[simp] theorem State.setSeq_fmtEpoch (s : State) (v : Sequencer) : (s.setSeq v).fmtEpoch = s.fmtEpoch := rfl
@[simp] theorem State.setSeq_fresh (s : State) (v : Sequencer) : (s.setSeq v).fresh = s.fresh := rfl

@[simp] theorem State.setInput_params (s : State) (v : List InItem) : (s.setInput v).params = s.params := rfl
@[simp] theorem State.setInput_bufram (s : State) (v : List InItem) : (s.setInput v).bufram = s.bufram := rfl
@[simp] theorem State.setInput_status (s : State) (v : List InItem) : (s.setInput v).status = s.status := rfl
@[simp] theorem State.setInput_args (s : State) (v : List InItem) : (s.setInput v).args = s.args := rfl
@[simp] theorem State.setInput_result (s : State) (v : List InItem) : (s.setInput v).result = s.result := rfl
@[simp] theorem State.setInput_exit (s : State) (v : List InItem) : (s.setInput v).exit = s.exit := rfl
@[simp] theorem State.setInput_scr (s : State) (v : List InItem) : (s.setInput v).scr = s.scr := rfl
@[simp] theorem State.setInput_fmtBuf (s : State) (v : List InItem) : (s.setInput v).fmtBuf = s.fmtBuf := rfl
@[simp] theorem State.setInput_seq (s : State) (v : List InItem) : (s.setInput v).seq = s.seq := rfl
@[simp] theorem State.setInput_input (s : State) (v : List InItem) : (s.setInput v).input = v := rfl
@[simp] theorem State.setInput_output (s : State) (v : List InItem) : (s.setInput v).output = s.output := rfl
@[simp] theorem State.setInput_diag (s : State) (v : List InItem) : (s.setInput v).diag = s.diag := rfl
@[simp] theorem State.setInput_outReady (s : State) (v : List InItem) : (s.setInput v).outReady = s.outReady := rfl
@[simp] theorem State.setInput_diagReady (s : State) (v : List InItem) : (s.setInput v).diagReady = s.diagReady := rfl
@[simp] theorem State.setInput_agenda (s : State) (v : List InItem) : (s.setInput v).agenda = s.agenda := rfl
@[simp] theorem State.setInput_reply (s : State) (v : List InItem) : (s.setInput v).reply = s.reply := rfl
@[simp] theorem State.setInput_epoch (s : State) (v : List InItem) : (s.setInput v).epoch = s.epoch := rfl
@[simp] theorem State.setInput_scrEpoch (s : State) (v : List InItem) : (s.setInput v).scrEpoch = s.scrEpoch := rfl
@[simp] theorem State.setInput_fmtEpoch (s : State) (v : List InItem) : (s.setInput v).fmtEpoch = s.fmtEpoch := rfl
@[simp] theorem State.setInput_fresh (s : State) (v : List InItem) : (s.setInput v).fresh = s.fresh := rfl

@[simp] theorem State.setOutput_params (s : State) (v : List Byte) : (s.setOutput v).params = s.params := rfl
@[simp] theorem State.setOutput_bufram (s : State) (v : List Byte) : (s.setOutput v).bufram = s.bufram := rfl
@[simp] theorem State.setOutput_status (s : State) (v : List Byte) : (s.setOutput v).status = s.status := rfl
@[simp] theorem State.setOutput_args (s : State) (v : List Byte) : (s.setOutput v).args = s.args := rfl
@[simp] theorem State.setOutput_result (s : State) (v : List Byte) : (s.setOutput v).result = s.result := rfl
@[simp] theorem State.setOutput_exit (s : State) (v : List Byte) : (s.setOutput v).exit = s.exit := rfl
@[simp] theorem State.setOutput_scr (s : State) (v : List Byte) : (s.setOutput v).scr = s.scr := rfl
@[simp] theorem State.setOutput_fmtBuf (s : State) (v : List Byte) : (s.setOutput v).fmtBuf = s.fmtBuf := rfl
@[simp] theorem State.setOutput_seq (s : State) (v : List Byte) : (s.setOutput v).seq = s.seq := rfl
@[simp] theorem State.setOutput_input (s : State) (v : List Byte) : (s.setOutput v).input = s.input := rfl
@[simp] theorem State.setOutput_output (s : State) (v : List Byte) : (s.setOutput v).output = v := rfl
@[simp] theorem State.setOutput_diag (s : State) (v : List Byte) : (s.setOutput v).diag = s.diag := rfl
@[simp] theorem State.setOutput_outReady (s : State) (v : List Byte) : (s.setOutput v).outReady = s.outReady := rfl
@[simp] theorem State.setOutput_diagReady (s : State) (v : List Byte) : (s.setOutput v).diagReady = s.diagReady := rfl
@[simp] theorem State.setOutput_agenda (s : State) (v : List Byte) : (s.setOutput v).agenda = s.agenda := rfl
@[simp] theorem State.setOutput_reply (s : State) (v : List Byte) : (s.setOutput v).reply = s.reply := rfl
@[simp] theorem State.setOutput_epoch (s : State) (v : List Byte) : (s.setOutput v).epoch = s.epoch := rfl
@[simp] theorem State.setOutput_scrEpoch (s : State) (v : List Byte) : (s.setOutput v).scrEpoch = s.scrEpoch := rfl
@[simp] theorem State.setOutput_fmtEpoch (s : State) (v : List Byte) : (s.setOutput v).fmtEpoch = s.fmtEpoch := rfl
@[simp] theorem State.setOutput_fresh (s : State) (v : List Byte) : (s.setOutput v).fresh = s.fresh := rfl

@[simp] theorem State.setDiag_params (s : State) (v : List Byte) : (s.setDiag v).params = s.params := rfl
@[simp] theorem State.setDiag_bufram (s : State) (v : List Byte) : (s.setDiag v).bufram = s.bufram := rfl
@[simp] theorem State.setDiag_status (s : State) (v : List Byte) : (s.setDiag v).status = s.status := rfl
@[simp] theorem State.setDiag_args (s : State) (v : List Byte) : (s.setDiag v).args = s.args := rfl
@[simp] theorem State.setDiag_result (s : State) (v : List Byte) : (s.setDiag v).result = s.result := rfl
@[simp] theorem State.setDiag_exit (s : State) (v : List Byte) : (s.setDiag v).exit = s.exit := rfl
@[simp] theorem State.setDiag_scr (s : State) (v : List Byte) : (s.setDiag v).scr = s.scr := rfl
@[simp] theorem State.setDiag_fmtBuf (s : State) (v : List Byte) : (s.setDiag v).fmtBuf = s.fmtBuf := rfl
@[simp] theorem State.setDiag_seq (s : State) (v : List Byte) : (s.setDiag v).seq = s.seq := rfl
@[simp] theorem State.setDiag_input (s : State) (v : List Byte) : (s.setDiag v).input = s.input := rfl
@[simp] theorem State.setDiag_output (s : State) (v : List Byte) : (s.setDiag v).output = s.output := rfl
@[simp] theorem State.setDiag_diag (s : State) (v : List Byte) : (s.setDiag v).diag = v := rfl
@[simp] theorem State.setDiag_outReady (s : State) (v : List Byte) : (s.setDiag v).outReady = s.outReady := rfl
@[simp] theorem State.setDiag_diagReady (s : State) (v : List Byte) : (s.setDiag v).diagReady = s.diagReady := rfl
@[simp] theorem State.setDiag_agenda (s : State) (v : List Byte) : (s.setDiag v).agenda = s.agenda := rfl
@[simp] theorem State.setDiag_reply (s : State) (v : List Byte) : (s.setDiag v).reply = s.reply := rfl
@[simp] theorem State.setDiag_epoch (s : State) (v : List Byte) : (s.setDiag v).epoch = s.epoch := rfl
@[simp] theorem State.setDiag_scrEpoch (s : State) (v : List Byte) : (s.setDiag v).scrEpoch = s.scrEpoch := rfl
@[simp] theorem State.setDiag_fmtEpoch (s : State) (v : List Byte) : (s.setDiag v).fmtEpoch = s.fmtEpoch := rfl
@[simp] theorem State.setDiag_fresh (s : State) (v : List Byte) : (s.setDiag v).fresh = s.fresh := rfl

@[simp] theorem State.setOutReady_params (s : State) (v : Nat) : (s.setOutReady v).params = s.params := rfl
@[simp] theorem State.setOutReady_bufram (s : State) (v : Nat) : (s.setOutReady v).bufram = s.bufram := rfl
@[simp] theorem State.setOutReady_status (s : State) (v : Nat) : (s.setOutReady v).status = s.status := rfl
@[simp] theorem State.setOutReady_args (s : State) (v : Nat) : (s.setOutReady v).args = s.args := rfl
@[simp] theorem State.setOutReady_result (s : State) (v : Nat) : (s.setOutReady v).result = s.result := rfl
@[simp] theorem State.setOutReady_exit (s : State) (v : Nat) : (s.setOutReady v).exit = s.exit := rfl
@[simp] theorem State.setOutReady_scr (s : State) (v : Nat) : (s.setOutReady v).scr = s.scr := rfl
@[simp] theorem State.setOutReady_fmtBuf (s : State) (v : Nat) : (s.setOutReady v).fmtBuf = s.fmtBuf := rfl
@[simp] theorem State.setOutReady_seq (s : State) (v : Nat) : (s.setOutReady v).seq = s.seq := rfl
@[simp] theorem State.setOutReady_input (s : State) (v : Nat) : (s.setOutReady v).input = s.input := rfl
@[simp] theorem State.setOutReady_output (s : State) (v : Nat) : (s.setOutReady v).output = s.output := rfl
@[simp] theorem State.setOutReady_diag (s : State) (v : Nat) : (s.setOutReady v).diag = s.diag := rfl
@[simp] theorem State.setOutReady_outReady (s : State) (v : Nat) : (s.setOutReady v).outReady = v := rfl
@[simp] theorem State.setOutReady_diagReady (s : State) (v : Nat) : (s.setOutReady v).diagReady = s.diagReady := rfl
@[simp] theorem State.setOutReady_agenda (s : State) (v : Nat) : (s.setOutReady v).agenda = s.agenda := rfl
@[simp] theorem State.setOutReady_reply (s : State) (v : Nat) : (s.setOutReady v).reply = s.reply := rfl
@[simp] theorem State.setOutReady_epoch (s : State) (v : Nat) : (s.setOutReady v).epoch = s.epoch := rfl
@[simp] theorem State.setOutReady_scrEpoch (s : State) (v : Nat) : (s.setOutReady v).scrEpoch = s.scrEpoch := rfl
@[simp] theorem State.setOutReady_fmtEpoch (s : State) (v : Nat) : (s.setOutReady v).fmtEpoch = s.fmtEpoch := rfl
@[simp] theorem State.setOutReady_fresh (s : State) (v : Nat) : (s.setOutReady v).fresh = s.fresh := rfl

@[simp] theorem State.setDiagReady_params (s : State) (v : Nat) : (s.setDiagReady v).params = s.params := rfl
@[simp] theorem State.setDiagReady_bufram (s : State) (v : Nat) : (s.setDiagReady v).bufram = s.bufram := rfl
@[simp] theorem State.setDiagReady_status (s : State) (v : Nat) : (s.setDiagReady v).status = s.status := rfl
@[simp] theorem State.setDiagReady_args (s : State) (v : Nat) : (s.setDiagReady v).args = s.args := rfl
@[simp] theorem State.setDiagReady_result (s : State) (v : Nat) : (s.setDiagReady v).result = s.result := rfl
@[simp] theorem State.setDiagReady_exit (s : State) (v : Nat) : (s.setDiagReady v).exit = s.exit := rfl
@[simp] theorem State.setDiagReady_scr (s : State) (v : Nat) : (s.setDiagReady v).scr = s.scr := rfl
@[simp] theorem State.setDiagReady_fmtBuf (s : State) (v : Nat) : (s.setDiagReady v).fmtBuf = s.fmtBuf := rfl
@[simp] theorem State.setDiagReady_seq (s : State) (v : Nat) : (s.setDiagReady v).seq = s.seq := rfl
@[simp] theorem State.setDiagReady_input (s : State) (v : Nat) : (s.setDiagReady v).input = s.input := rfl
@[simp] theorem State.setDiagReady_output (s : State) (v : Nat) : (s.setDiagReady v).output = s.output := rfl
@[simp] theorem State.setDiagReady_diag (s : State) (v : Nat) : (s.setDiagReady v).diag = s.diag := rfl
@[simp] theorem State.setDiagReady_outReady (s : State) (v : Nat) : (s.setDiagReady v).outReady = s.outReady := rfl
@[simp] theorem State.setDiagReady_diagReady (s : State) (v : Nat) : (s.setDiagReady v).diagReady = v := rfl
@[simp] theorem State.setDiagReady_agenda (s : State) (v : Nat) : (s.setDiagReady v).agenda = s.agenda := rfl
@[simp] theorem State.setDiagReady_reply (s : State) (v : Nat) : (s.setDiagReady v).reply = s.reply := rfl
@[simp] theorem State.setDiagReady_epoch (s : State) (v : Nat) : (s.setDiagReady v).epoch = s.epoch := rfl
@[simp] theorem State.setDiagReady_scrEpoch (s : State) (v : Nat) : (s.setDiagReady v).scrEpoch = s.scrEpoch := rfl
@[simp] theorem State.setDiagReady_fmtEpoch (s : State) (v : Nat) : (s.setDiagReady v).fmtEpoch = s.fmtEpoch := rfl
@[simp] theorem State.setDiagReady_fresh (s : State) (v : Nat) : (s.setDiagReady v).fresh = s.fresh := rfl

@[simp] theorem State.setAgenda_params (s : State) (v : List Event) : (s.setAgenda v).params = s.params := rfl
@[simp] theorem State.setAgenda_bufram (s : State) (v : List Event) : (s.setAgenda v).bufram = s.bufram := rfl
@[simp] theorem State.setAgenda_status (s : State) (v : List Event) : (s.setAgenda v).status = s.status := rfl
@[simp] theorem State.setAgenda_args (s : State) (v : List Event) : (s.setAgenda v).args = s.args := rfl
@[simp] theorem State.setAgenda_result (s : State) (v : List Event) : (s.setAgenda v).result = s.result := rfl
@[simp] theorem State.setAgenda_exit (s : State) (v : List Event) : (s.setAgenda v).exit = s.exit := rfl
@[simp] theorem State.setAgenda_scr (s : State) (v : List Event) : (s.setAgenda v).scr = s.scr := rfl
@[simp] theorem State.setAgenda_fmtBuf (s : State) (v : List Event) : (s.setAgenda v).fmtBuf = s.fmtBuf := rfl
@[simp] theorem State.setAgenda_seq (s : State) (v : List Event) : (s.setAgenda v).seq = s.seq := rfl
@[simp] theorem State.setAgenda_input (s : State) (v : List Event) : (s.setAgenda v).input = s.input := rfl
@[simp] theorem State.setAgenda_output (s : State) (v : List Event) : (s.setAgenda v).output = s.output := rfl
@[simp] theorem State.setAgenda_diag (s : State) (v : List Event) : (s.setAgenda v).diag = s.diag := rfl
@[simp] theorem State.setAgenda_outReady (s : State) (v : List Event) : (s.setAgenda v).outReady = s.outReady := rfl
@[simp] theorem State.setAgenda_diagReady (s : State) (v : List Event) : (s.setAgenda v).diagReady = s.diagReady := rfl
@[simp] theorem State.setAgenda_agenda (s : State) (v : List Event) : (s.setAgenda v).agenda = v := rfl
@[simp] theorem State.setAgenda_reply (s : State) (v : List Event) : (s.setAgenda v).reply = s.reply := rfl
@[simp] theorem State.setAgenda_epoch (s : State) (v : List Event) : (s.setAgenda v).epoch = s.epoch := rfl
@[simp] theorem State.setAgenda_scrEpoch (s : State) (v : List Event) : (s.setAgenda v).scrEpoch = s.scrEpoch := rfl
@[simp] theorem State.setAgenda_fmtEpoch (s : State) (v : List Event) : (s.setAgenda v).fmtEpoch = s.fmtEpoch := rfl
@[simp] theorem State.setAgenda_fresh (s : State) (v : List Event) : (s.setAgenda v).fresh = s.fresh := rfl

@[simp] theorem State.setReply_params (s : State) (v : Reply) : (s.setReply v).params = s.params := rfl
@[simp] theorem State.setReply_bufram (s : State) (v : Reply) : (s.setReply v).bufram = s.bufram := rfl
@[simp] theorem State.setReply_status (s : State) (v : Reply) : (s.setReply v).status = s.status := rfl
@[simp] theorem State.setReply_args (s : State) (v : Reply) : (s.setReply v).args = s.args := rfl
@[simp] theorem State.setReply_result (s : State) (v : Reply) : (s.setReply v).result = s.result := rfl
@[simp] theorem State.setReply_exit (s : State) (v : Reply) : (s.setReply v).exit = s.exit := rfl
@[simp] theorem State.setReply_scr (s : State) (v : Reply) : (s.setReply v).scr = s.scr := rfl
@[simp] theorem State.setReply_fmtBuf (s : State) (v : Reply) : (s.setReply v).fmtBuf = s.fmtBuf := rfl
@[simp] theorem State.setReply_seq (s : State) (v : Reply) : (s.setReply v).seq = s.seq := rfl
@[simp] theorem State.setReply_input (s : State) (v : Reply) : (s.setReply v).input = s.input := rfl
@[simp] theorem State.setReply_output (s : State) (v : Reply) : (s.setReply v).output = s.output := rfl
@[simp] theorem State.setReply_diag (s : State) (v : Reply) : (s.setReply v).diag = s.diag := rfl
@[simp] theorem State.setReply_outReady (s : State) (v : Reply) : (s.setReply v).outReady = s.outReady := rfl
@[simp] theorem State.setReply_diagReady (s : State) (v : Reply) : (s.setReply v).diagReady = s.diagReady := rfl
@[simp] theorem State.setReply_agenda (s : State) (v : Reply) : (s.setReply v).agenda = s.agenda := rfl
@[simp] theorem State.setReply_reply (s : State) (v : Reply) : (s.setReply v).reply = v := rfl
@[simp] theorem State.setReply_epoch (s : State) (v : Reply) : (s.setReply v).epoch = s.epoch := rfl
@[simp] theorem State.setReply_scrEpoch (s : State) (v : Reply) : (s.setReply v).scrEpoch = s.scrEpoch := rfl
@[simp] theorem State.setReply_fmtEpoch (s : State) (v : Reply) : (s.setReply v).fmtEpoch = s.fmtEpoch := rfl
@[simp] theorem State.setReply_fresh (s : State) (v : Reply) : (s.setReply v).fresh = s.fresh := rfl

@[simp] theorem State.setEpoch_params (s : State) (v : Nat) : (s.setEpoch v).params = s.params := rfl
@[simp] theorem State.setEpoch_bufram (s : State) (v : Nat) : (s.setEpoch v).bufram = s.bufram := rfl
@[simp] theorem State.setEpoch_status (s : State) (v : Nat) : (s.setEpoch v).status = s.status := rfl
@[simp] theorem State.setEpoch_args (s : State) (v : Nat) : (s.setEpoch v).args = s.args := rfl
@[simp] theorem State.setEpoch_result (s : State) (v : Nat) : (s.setEpoch v).result = s.result := rfl
@[simp] theorem State.setEpoch_exit (s : State) (v : Nat) : (s.setEpoch v).exit = s.exit := rfl
@[simp] theorem State.setEpoch_scr (s : State) (v : Nat) : (s.setEpoch v).scr = s.scr := rfl
@[simp] theorem State.setEpoch_fmtBuf (s : State) (v : Nat) : (s.setEpoch v).fmtBuf = s.fmtBuf := rfl
@[simp] theorem State.setEpoch_seq (s : State) (v : Nat) : (s.setEpoch v).seq = s.seq := rfl
@[simp] theorem State.setEpoch_input (s : State) (v : Nat) : (s.setEpoch v).input = s.input := rfl
@[simp] theorem State.setEpoch_output (s : State) (v : Nat) : (s.setEpoch v).output = s.output := rfl
@[simp] theorem State.setEpoch_diag (s : State) (v : Nat) : (s.setEpoch v).diag = s.diag := rfl
@[simp] theorem State.setEpoch_outReady (s : State) (v : Nat) : (s.setEpoch v).outReady = s.outReady := rfl
@[simp] theorem State.setEpoch_diagReady (s : State) (v : Nat) : (s.setEpoch v).diagReady = s.diagReady := rfl
@[simp] theorem State.setEpoch_agenda (s : State) (v : Nat) : (s.setEpoch v).agenda = s.agenda := rfl
@[simp] theorem State.setEpoch_reply (s : State) (v : Nat) : (s.setEpoch v).reply = s.reply := rfl
@[simp] theorem State.setEpoch_epoch (s : State) (v : Nat) : (s.setEpoch v).epoch = v := rfl
@[simp] theorem State.setEpoch_scrEpoch (s : State) (v : Nat) : (s.setEpoch v).scrEpoch = s.scrEpoch := rfl
@[simp] theorem State.setEpoch_fmtEpoch (s : State) (v : Nat) : (s.setEpoch v).fmtEpoch = s.fmtEpoch := rfl
@[simp] theorem State.setEpoch_fresh (s : State) (v : Nat) : (s.setEpoch v).fresh = s.fresh := rfl

@[simp] theorem State.setScrEpoch_params (s : State) (v : Nat) : (s.setScrEpoch v).params = s.params := rfl
@[simp] theorem State.setScrEpoch_bufram (s : State) (v : Nat) : (s.setScrEpoch v).bufram = s.bufram := rfl
@[simp] theorem State.setScrEpoch_status (s : State) (v : Nat) : (s.setScrEpoch v).status = s.status := rfl
@[simp] theorem State.setScrEpoch_args (s : State) (v : Nat) : (s.setScrEpoch v).args = s.args := rfl
@[simp] theorem State.setScrEpoch_result (s : State) (v : Nat) : (s.setScrEpoch v).result = s.result := rfl
@[simp] theorem State.setScrEpoch_exit (s : State) (v : Nat) : (s.setScrEpoch v).exit = s.exit := rfl
@[simp] theorem State.setScrEpoch_scr (s : State) (v : Nat) : (s.setScrEpoch v).scr = s.scr := rfl
@[simp] theorem State.setScrEpoch_fmtBuf (s : State) (v : Nat) : (s.setScrEpoch v).fmtBuf = s.fmtBuf := rfl
@[simp] theorem State.setScrEpoch_seq (s : State) (v : Nat) : (s.setScrEpoch v).seq = s.seq := rfl
@[simp] theorem State.setScrEpoch_input (s : State) (v : Nat) : (s.setScrEpoch v).input = s.input := rfl
@[simp] theorem State.setScrEpoch_output (s : State) (v : Nat) : (s.setScrEpoch v).output = s.output := rfl
@[simp] theorem State.setScrEpoch_diag (s : State) (v : Nat) : (s.setScrEpoch v).diag = s.diag := rfl
@[simp] theorem State.setScrEpoch_outReady (s : State) (v : Nat) : (s.setScrEpoch v).outReady = s.outReady := rfl
@[simp] theorem State.setScrEpoch_diagReady (s : State) (v : Nat) : (s.setScrEpoch v).diagReady = s.diagReady := rfl
@[simp] theorem State.setScrEpoch_agenda (s : State) (v : Nat) : (s.setScrEpoch v).agenda = s.agenda := rfl
@[simp] theorem State.setScrEpoch_reply (s : State) (v : Nat) : (s.setScrEpoch v).reply = s.reply := rfl
@[simp] theorem State.setScrEpoch_epoch (s : State) (v : Nat) : (s.setScrEpoch v).epoch = s.epoch := rfl
@[simp] theorem State.setScrEpoch_scrEpoch (s : State) (v : Nat) : (s.setScrEpoch v).scrEpoch = v := rfl
@[simp] theorem State.setScrEpoch_fmtEpoch (s : State) (v : Nat) : (s.setScrEpoch v).fmtEpoch = s.fmtEpoch := rfl
@[simp] theorem State.setScrEpoch_fresh (s : State) (v : Nat) : (s.setScrEpoch v).fresh = s.fresh := rfl

@[simp] theorem State.setFmtEpoch_params (s : State) (v : Nat) : (s.setFmtEpoch v).params = s.params := rfl
@[simp] theorem State.setFmtEpoch_bufram (s : State) (v : Nat) : (s.setFmtEpoch v).bufram = s.bufram := rfl
@[simp] theorem State.setFmtEpoch_status (s : State) (v : Nat) : (s.setFmtEpoch v).status = s.status := rfl
@[simp] theorem State.setFmtEpoch_args (s : State) (v : Nat) : (s.setFmtEpoch v).args = s.args := rfl
@[simp] theorem State.setFmtEpoch_result (s : State) (v : Nat) : (s.setFmtEpoch v).result = s.result := rfl
@[simp] theorem State.setFmtEpoch_exit (s : State) (v : Nat) : (s.setFmtEpoch v).exit = s.exit := rfl
@[simp] theorem State.setFmtEpoch_scr (s : State) (v : Nat) : (s.setFmtEpoch v).scr = s.scr := rfl
@[simp] theorem State.setFmtEpoch_fmtBuf (s : State) (v : Nat) : (s.setFmtEpoch v).fmtBuf = s.fmtBuf := rfl
@[simp] theorem State.setFmtEpoch_seq (s : State) (v : Nat) : (s.setFmtEpoch v).seq = s.seq := rfl
@[simp] theorem State.setFmtEpoch_input (s : State) (v : Nat) : (s.setFmtEpoch v).input = s.input := rfl
@[simp] theorem State.setFmtEpoch_output (s : State) (v : Nat) : (s.setFmtEpoch v).output = s.output := rfl
@[simp] theorem State.setFmtEpoch_diag (s : State) (v : Nat) : (s.setFmtEpoch v).diag = s.diag := rfl
@[simp] theorem State.setFmtEpoch_outReady (s : State) (v : Nat) : (s.setFmtEpoch v).outReady = s.outReady := rfl
@[simp] theorem State.setFmtEpoch_diagReady (s : State) (v : Nat) : (s.setFmtEpoch v).diagReady = s.diagReady := rfl
@[simp] theorem State.setFmtEpoch_agenda (s : State) (v : Nat) : (s.setFmtEpoch v).agenda = s.agenda := rfl
@[simp] theorem State.setFmtEpoch_reply (s : State) (v : Nat) : (s.setFmtEpoch v).reply = s.reply := rfl
@[simp] theorem State.setFmtEpoch_epoch (s : State) (v : Nat) : (s.setFmtEpoch v).epoch = s.epoch := rfl
@[simp] theorem State.setFmtEpoch_scrEpoch (s : State) (v : Nat) : (s.setFmtEpoch v).scrEpoch = s.scrEpoch := rfl
@[simp] theorem State.setFmtEpoch_fmtEpoch (s : State) (v : Nat) : (s.setFmtEpoch v).fmtEpoch = v := rfl
@[simp] theorem State.setFmtEpoch_fresh (s : State) (v : Nat) : (s.setFmtEpoch v).fresh = s.fresh := rfl

@[simp] theorem State.setFresh_params (s : State) (v : Nat) : (s.setFresh v).params = s.params := rfl
@[simp] theorem State.setFresh_bufram (s : State) (v : Nat) : (s.setFresh v).bufram = s.bufram := rfl
@[simp] theorem State.setFresh_status (s : State) (v : Nat) : (s.setFresh v).status = s.status := rfl
@[simp] theorem State.setFresh_args (s : State) (v : Nat) : (s.setFresh v).args = s.args := rfl
@[simp] theorem State.setFresh_result (s : State) (v : Nat) : (s.setFresh v).result = s.result := rfl
@[simp] theorem State.setFresh_exit (s : State) (v : Nat) : (s.setFresh v).exit = s.exit := rfl
@[simp] theorem State.setFresh_scr (s : State) (v : Nat) : (s.setFresh v).scr = s.scr := rfl
@[simp] theorem State.setFresh_fmtBuf (s : State) (v : Nat) : (s.setFresh v).fmtBuf = s.fmtBuf := rfl
@[simp] theorem State.setFresh_seq (s : State) (v : Nat) : (s.setFresh v).seq = s.seq := rfl
@[simp] theorem State.setFresh_input (s : State) (v : Nat) : (s.setFresh v).input = s.input := rfl
@[simp] theorem State.setFresh_output (s : State) (v : Nat) : (s.setFresh v).output = s.output := rfl
@[simp] theorem State.setFresh_diag (s : State) (v : Nat) : (s.setFresh v).diag = s.diag := rfl
@[simp] theorem State.setFresh_outReady (s : State) (v : Nat) : (s.setFresh v).outReady = s.outReady := rfl
@[simp] theorem State.setFresh_diagReady (s : State) (v : Nat) : (s.setFresh v).diagReady = s.diagReady := rfl
@[simp] theorem State.setFresh_agenda (s : State) (v : Nat) : (s.setFresh v).agenda = s.agenda := rfl
@[simp] theorem State.setFresh_reply (s : State) (v : Nat) : (s.setFresh v).reply = s.reply := rfl
@[simp] theorem State.setFresh_epoch (s : State) (v : Nat) : (s.setFresh v).epoch = s.epoch := rfl
@[simp] theorem State.setFresh_scrEpoch (s : State) (v : Nat) : (s.setFresh v).scrEpoch = s.scrEpoch := rfl
@[simp] theorem State.setFresh_fmtEpoch (s : State) (v : Nat) : (s.setFresh v).fmtEpoch = s.fmtEpoch := rfl
@[simp] theorem State.setFresh_fresh (s : State) (v : Nat) : (s.setFresh v).fresh = v := rfl

end Sys2Proof.Machine
end

