-- ==== Sys2Proof/Laws/Memory.lean ====
section
/-!
SUPPORT. The laws of `BUFRAM` and of the internal buffers: reading back what was written, what a write
leaves alone, the canonical form, and the number a word buffer holds (00_scope.md R12).
-/
namespace Sys2Proof.Machine

/-! ### Bytes -/

@[simp] theorem State.readByte_writeByte_same (s : State) (a : Nat) (b : Byte) : (s.writeByte a b).readByte a = b := by
  simp [State.readByte, State.writeByte]

theorem State.readByte_writeByte_ne (s : State) {a a' : Nat} (h : a' ≠ a) (b : Byte) :
    (s.writeByte a b).readByte a' = s.readByte a' := by
  simp [State.readByte, State.writeByte, cellGet_cellPut_ne h]

/-- A byte of a state is its `bufram` and its `epoch`. -/
theorem State.readByte_congr {s t : State} (hm : t.bufram = s.bufram) (he : t.epoch = s.epoch) (a : Nat) :
    t.readByte a = s.readByte a := by
  simp [State.readByte, hm, he]

/-! ### Words -/

theorem State.readWord_congr {s t : State} {k : Nat} (h : ∀ j, j < 8 → t.readByte (8 * k + j) = s.readByte (8 * k + j)) :
    t.readWord k = s.readWord k := by
  have h0 := h 0 (by omega); have h1 := h 1 (by omega); have h2 := h 2 (by omega); have h3 := h 3 (by omega)
  have h4 := h 4 (by omega); have h5 := h 5 (by omega); have h6 := h 6 (by omega); have h7 := h 7 (by omega)
  rw [Nat.add_zero] at h0
  simp only [State.readWord, h0, h1, h2, h3, h4, h5, h6, h7]

theorem State.readWord_congr' {s t : State} (hm : t.bufram = s.bufram) (he : t.epoch = s.epoch) (k : Nat) :
    t.readWord k = s.readWord k :=
  State.readWord_congr fun _ _ => State.readByte_congr hm he _

/-- What a word write leaves in every byte: its lane inside the word, the old byte outside. -/
theorem State.readByte_writeWord (s : State) (k : Nat) (v : Word) (a : Nat) :
    (s.writeWord k v).readByte a = if 8 * k ≤ a ∧ a < 8 * k + 8 then lane v (a - 8 * k) else s.readByte a := by
  have step : ∀ (t : State) (c : Nat) (b : Byte), (t.writeByte c b).readByte a = if a = c then b else t.readByte a := by
    intro t c b
    split
    · subst_vars; simp
    · rw [State.readByte_writeByte_ne _ (by assumption)]
  simp only [State.writeWord, step]
  by_cases h : 8 * k ≤ a ∧ a < 8 * k + 8
  · rw [if_pos h]
    obtain ⟨j, hj, rfl⟩ : ∃ j, j < 8 ∧ a = 8 * k + j := ⟨a - 8 * k, by omega, by omega⟩
    have : j = 0 ∨ j = 1 ∨ j = 2 ∨ j = 3 ∨ j = 4 ∨ j = 5 ∨ j = 6 ∨ j = 7 := by omega
    rcases this with rfl | rfl | rfl | rfl | rfl | rfl | rfl | rfl <;> simp
  · rw [if_neg h]
    repeat' rw [if_neg (by omega)]

/-- The lanes of a word make the word. -/
theorem lanes_join (v : Word) :
    (lane v 7 ++ lane v 6 ++ lane v 5 ++ lane v 4 ++ lane v 3 ++ lane v 2 ++ lane v 1 ++ lane v 0 : BitVec 64) = v := by
  apply BitVec.eq_of_getLsbD_eq
  intro i hi
  simp only [BitVec.getLsbD_append, lane, BitVec.getLsbD_extractLsb']
  repeat' split
  all_goals
    rw [decide_eq_true (by omega), Bool.true_and]
    congr 1
    omega

@[simp] theorem State.readWord_writeWord_same (s : State) (k : Nat) (v : Word) : (s.writeWord k v).readWord k = v := by
  conv_rhs => rw [← lanes_join v]
  simp only [State.readWord, State.readByte_writeWord]
  simp

theorem State.readWord_writeWord_ne (s : State) {k k' : Nat} (h : k' ≠ k) (v : Word) :
    (s.writeWord k v).readWord k' = s.readWord k' := by
  apply State.readWord_congr
  intro j hj
  rw [State.readByte_writeWord, if_neg (by omega)]

theorem State.readWord_writeWord (s : State) (k k' : Nat) (v : Word) :
    (s.writeWord k v).readWord k' = if k' = k then v else s.readWord k' := by
  split
  · subst_vars; simp
  · rw [State.readWord_writeWord_ne _ (by assumption)]

/-- A word write is a write of `bufram` and of nothing else. -/
theorem State.writeWord_eq (s : State) (k : Nat) (v : Word) : s.writeWord k v = s.setBufram (s.writeWord k v).bufram := rfl

/-! ### The canonical form -/

theorem State.writeByte_wf {s : State} {a : Nat} (b : Byte) (h : a < 8 * s.params.bufWords)
    (w : Memory.wf s.params s.bufram = true) : Memory.wf s.params (s.writeByte a b).bufram = true :=
  cellsWf_cellPut (Nat.zero_le a) h b w

theorem State.writeWord_wf {s : State} {k : Nat} (v : Word) (h : k < s.params.bufWords)
    (w : Memory.wf s.params s.bufram = true) : Memory.wf s.params (s.writeWord k v).bufram = true := by
  have put : ∀ (a : Nat) (b : Byte) (m : List Host.Cell), a < 8 * s.params.bufWords →
      Memory.wf s.params m = true → Memory.wf s.params (cellPut a b m) = true :=
    fun a b m ha hm => cellsWf_cellPut (Nat.zero_le a) ha b hm
  simp only [State.writeWord, State.writeByte, State.setBufram_bufram]
  repeat' (first | exact w | apply put _ _ _ (by omega))

theorem State.unspecify_wf {s : State} {r : Range} (h : r.base + r.count ≤ s.params.bufWords)
    (w : Memory.wf s.params s.bufram = true) : Memory.wf s.params (s.unspecify r).bufram = true :=
  cellsWf_freeBytes (by omega) w

theorem State.reset_wf : Memory.wf State.reset.params State.reset.bufram = true := rfl

/-! ### Unspecified content -/

/-- What becoming unspecified leaves in every byte. -/
theorem State.readByte_unspecify (s : State) (r : Range) (a : Nat) :
    (s.unspecify r).readByte a
      = if 8 * r.base ≤ a ∧ a < 8 * r.base + 8 * r.count then Config.freeRam (s.fresh + 1) a else s.readByte a := by
  simp only [State.readByte, State.unspecify, State.setFresh_bufram, State.setBufram_bufram, State.setFresh_epoch,
    State.setBufram_epoch, cellGet_freeBytes]
  split <;> rfl

/-! ### The internal buffers -/

theorem State.readScr_writeScr (s : State) (k k' : Nat) (v : Word) :
    (s.writeScr k v).readScr k' = if k' = k then v else s.readScr k' := by
  split
  · subst_vars; simp [State.readScr, State.writeScr]
  · simp [State.readScr, State.writeScr, cellGet_cellPut_ne (by assumption)]

theorem State.readFmt_writeFmt (s : State) (k k' : Nat) (b : Byte) :
    (s.writeFmt k b).readFmt k' = if k' = k then b else s.readFmt k' := by
  split
  · subst_vars; simp [State.readFmt, State.writeFmt]
  · simp [State.readFmt, State.writeFmt, cellGet_cellPut_ne (by assumption)]

/-! ### The number a word buffer holds -/

theorem State.val_lt (s : State) (a n : Nat) : s.val a n < 2 ^ (64 * n) := by
  induction n generalizing a with
  | zero => simp [State.val]
  | succ n ih =>
    have h := ih (a + 1)
    have hw := (s.readWord a).isLt
    have : 2 ^ (64 * (n + 1)) = 2 ^ 64 * 2 ^ (64 * n) := by rw [← pow_add]; congr 1; omega
    rw [State.val, this]
    nlinarith

theorem State.val_congr {s t : State} {a n : Nat} (h : ∀ k, a ≤ k → k < a + n → t.readWord k = s.readWord k) :
    t.val a n = s.val a n := by
  induction n generalizing a with
  | zero => rfl
  | succ n ih =>
    rw [State.val, State.val, h a (by omega) (by omega), ih fun k h1 h2 => h k (by omega) (by omega)]

/-- The top word of a buffer on its own. -/
theorem State.val_succ_top (s : State) (a n : Nat) :
    s.val a (n + 1) = s.val a n + 2 ^ (64 * n) * (s.readWord (a + n)).toNat := by
  induction n generalizing a with
  | zero => simp [State.val]
  | succ n ih =>
    have e : 2 ^ (64 * (n + 1)) = 2 ^ 64 * 2 ^ (64 * n) := by rw [← pow_add]; congr 1; omega
    rw [State.val, ih (a + 1), State.val, e, show a + 1 + n = a + (n + 1) by omega]
    ring

/-- A buffer cut in two. -/
theorem State.val_add (s : State) (a m n : Nat) : s.val a (m + n) = s.val a m + 2 ^ (64 * m) * s.val (a + m) n := by
  induction m generalizing a with
  | zero => simp [State.val]
  | succ m ih =>
    have e : 2 ^ (64 * (m + 1)) = 2 ^ 64 * 2 ^ (64 * m) := by rw [← pow_add]; congr 1; omega
    rw [show m + 1 + n = m + n + 1 by omega, State.val, ih, State.val, e, show a + (m + 1) = a + 1 + m by omega]
    ring

theorem State.val_eq_zero_iff (s : State) (a n : Nat) :
    s.val a n = 0 ↔ ∀ k, a ≤ k → k < a + n → s.readWord k = 0 := by
  induction n generalizing a with
  | zero => simp only [State.val, true_iff]; omega
  | succ n ih =>
    rw [State.val, Nat.add_eq_zero_iff, Nat.mul_eq_zero, ih]
    constructor
    · rintro ⟨h0, h1⟩ k hk hk'
      rcases Nat.lt_or_ge a k with h | h
      · exact (h1.resolve_left (by norm_num)) k h (by omega)
      · obtain rfl : k = a := by omega
        exact BitVec.eq_of_toNat_eq (by simpa using h0)
    · intro h
      refine ⟨by rw [h a (by omega) (by omega)]; rfl, Or.inr fun k h1 h2 => h k (by omega) (by omega)⟩

end Sys2Proof.Machine
end

