-- ==== Sys2Proof/Laws/Ops.lean ====
section
/-!
SUPPORT. What each shared operation can do: one lemma that says all of it, and the fields it leaves alone.
-/
namespace Sys2Proof.Machine

/-! ### Fields an operation leaves alone -/

@[simp] theorem State.writeWord_params (s : State) (k : Nat) (v : Word) : (s.writeWord k v).params = s.params := rfl
@[simp] theorem State.writeWord_status (s : State) (k : Nat) (v : Word) : (s.writeWord k v).status = s.status := rfl
@[simp] theorem State.writeWord_args (s : State) (k : Nat) (v : Word) : (s.writeWord k v).args = s.args := rfl
@[simp] theorem State.writeWord_result (s : State) (k : Nat) (v : Word) : (s.writeWord k v).result = s.result := rfl
@[simp] theorem State.writeWord_exit (s : State) (k : Nat) (v : Word) : (s.writeWord k v).exit = s.exit := rfl
@[simp] theorem State.writeWord_scr (s : State) (k : Nat) (v : Word) : (s.writeWord k v).scr = s.scr := rfl
@[simp] theorem State.writeWord_fmtBuf (s : State) (k : Nat) (v : Word) : (s.writeWord k v).fmtBuf = s.fmtBuf := rfl
@[simp] theorem State.writeWord_seq (s : State) (k : Nat) (v : Word) : (s.writeWord k v).seq = s.seq := rfl
@[simp] theorem State.writeWord_input (s : State) (k : Nat) (v : Word) : (s.writeWord k v).input = s.input := rfl
@[simp] theorem State.writeWord_output (s : State) (k : Nat) (v : Word) : (s.writeWord k v).output = s.output := rfl
@[simp] theorem State.writeWord_diag (s : State) (k : Nat) (v : Word) : (s.writeWord k v).diag = s.diag := rfl
@[simp] theorem State.writeWord_outReady (s : State) (k : Nat) (v : Word) : (s.writeWord k v).outReady = s.outReady := rfl
@[simp] theorem State.writeWord_diagReady (s : State) (k : Nat) (v : Word) : (s.writeWord k v).diagReady = s.diagReady := rfl
@[simp] theorem State.writeWord_agenda (s : State) (k : Nat) (v : Word) : (s.writeWord k v).agenda = s.agenda := rfl
@[simp] theorem State.writeWord_reply (s : State) (k : Nat) (v : Word) : (s.writeWord k v).reply = s.reply := rfl
@[simp] theorem State.writeWord_epoch (s : State) (k : Nat) (v : Word) : (s.writeWord k v).epoch = s.epoch := rfl
@[simp] theorem State.writeWord_scrEpoch (s : State) (k : Nat) (v : Word) : (s.writeWord k v).scrEpoch = s.scrEpoch := rfl
@[simp] theorem State.writeWord_fmtEpoch (s : State) (k : Nat) (v : Word) : (s.writeWord k v).fmtEpoch = s.fmtEpoch := rfl
@[simp] theorem State.writeWord_fresh (s : State) (k : Nat) (v : Word) : (s.writeWord k v).fresh = s.fresh := rfl

@[simp] theorem State.writeScr_params (s : State) (k : Nat) (v : Word) : (s.writeScr k v).params = s.params := rfl
@[simp] theorem State.writeScr_bufram (s : State) (k : Nat) (v : Word) : (s.writeScr k v).bufram = s.bufram := rfl
@[simp] theorem State.writeScr_status (s : State) (k : Nat) (v : Word) : (s.writeScr k v).status = s.status := rfl
@[simp] theorem State.writeScr_args (s : State) (k : Nat) (v : Word) : (s.writeScr k v).args = s.args := rfl
@[simp] theorem State.writeScr_result (s : State) (k : Nat) (v : Word) : (s.writeScr k v).result = s.result := rfl
@[simp] theorem State.writeScr_exit (s : State) (k : Nat) (v : Word) : (s.writeScr k v).exit = s.exit := rfl
@[simp] theorem State.writeScr_fmtBuf (s : State) (k : Nat) (v : Word) : (s.writeScr k v).fmtBuf = s.fmtBuf := rfl
@[simp] theorem State.writeScr_seq (s : State) (k : Nat) (v : Word) : (s.writeScr k v).seq = s.seq := rfl
@[simp] theorem State.writeScr_input (s : State) (k : Nat) (v : Word) : (s.writeScr k v).input = s.input := rfl
@[simp] theorem State.writeScr_output (s : State) (k : Nat) (v : Word) : (s.writeScr k v).output = s.output := rfl
@[simp] theorem State.writeScr_diag (s : State) (k : Nat) (v : Word) : (s.writeScr k v).diag = s.diag := rfl
@[simp] theorem State.writeScr_outReady (s : State) (k : Nat) (v : Word) : (s.writeScr k v).outReady = s.outReady := rfl
@[simp] theorem State.writeScr_diagReady (s : State) (k : Nat) (v : Word) : (s.writeScr k v).diagReady = s.diagReady := rfl
@[simp] theorem State.writeScr_agenda (s : State) (k : Nat) (v : Word) : (s.writeScr k v).agenda = s.agenda := rfl
@[simp] theorem State.writeScr_reply (s : State) (k : Nat) (v : Word) : (s.writeScr k v).reply = s.reply := rfl
@[simp] theorem State.writeScr_epoch (s : State) (k : Nat) (v : Word) : (s.writeScr k v).epoch = s.epoch := rfl
@[simp] theorem State.writeScr_scrEpoch (s : State) (k : Nat) (v : Word) : (s.writeScr k v).scrEpoch = s.scrEpoch := rfl
@[simp] theorem State.writeScr_fmtEpoch (s : State) (k : Nat) (v : Word) : (s.writeScr k v).fmtEpoch = s.fmtEpoch := rfl
@[simp] theorem State.writeScr_fresh (s : State) (k : Nat) (v : Word) : (s.writeScr k v).fresh = s.fresh := rfl

@[simp] theorem State.writeFmt_params (s : State) (k : Nat) (b : Byte) : (s.writeFmt k b).params = s.params := rfl
@[simp] theorem State.writeFmt_bufram (s : State) (k : Nat) (b : Byte) : (s.writeFmt k b).bufram = s.bufram := rfl
@[simp] theorem State.writeFmt_status (s : State) (k : Nat) (b : Byte) : (s.writeFmt k b).status = s.status := rfl
@[simp] theorem State.writeFmt_args (s : State) (k : Nat) (b : Byte) : (s.writeFmt k b).args = s.args := rfl
@[simp] theorem State.writeFmt_result (s : State) (k : Nat) (b : Byte) : (s.writeFmt k b).result = s.result := rfl
@[simp] theorem State.writeFmt_exit (s : State) (k : Nat) (b : Byte) : (s.writeFmt k b).exit = s.exit := rfl
@[simp] theorem State.writeFmt_scr (s : State) (k : Nat) (b : Byte) : (s.writeFmt k b).scr = s.scr := rfl
@[simp] theorem State.writeFmt_seq (s : State) (k : Nat) (b : Byte) : (s.writeFmt k b).seq = s.seq := rfl
@[simp] theorem State.writeFmt_input (s : State) (k : Nat) (b : Byte) : (s.writeFmt k b).input = s.input := rfl
@[simp] theorem State.writeFmt_output (s : State) (k : Nat) (b : Byte) : (s.writeFmt k b).output = s.output := rfl
@[simp] theorem State.writeFmt_diag (s : State) (k : Nat) (b : Byte) : (s.writeFmt k b).diag = s.diag := rfl
@[simp] theorem State.writeFmt_outReady (s : State) (k : Nat) (b : Byte) : (s.writeFmt k b).outReady = s.outReady := rfl
@[simp] theorem State.writeFmt_diagReady (s : State) (k : Nat) (b : Byte) : (s.writeFmt k b).diagReady = s.diagReady := rfl
@[simp] theorem State.writeFmt_agenda (s : State) (k : Nat) (b : Byte) : (s.writeFmt k b).agenda = s.agenda := rfl
@[simp] theorem State.writeFmt_reply (s : State) (k : Nat) (b : Byte) : (s.writeFmt k b).reply = s.reply := rfl
@[simp] theorem State.writeFmt_epoch (s : State) (k : Nat) (b : Byte) : (s.writeFmt k b).epoch = s.epoch := rfl
@[simp] theorem State.writeFmt_scrEpoch (s : State) (k : Nat) (b : Byte) : (s.writeFmt k b).scrEpoch = s.scrEpoch := rfl
@[simp] theorem State.writeFmt_fmtEpoch (s : State) (k : Nat) (b : Byte) : (s.writeFmt k b).fmtEpoch = s.fmtEpoch := rfl
@[simp] theorem State.writeFmt_fresh (s : State) (k : Nat) (b : Byte) : (s.writeFmt k b).fresh = s.fresh := rfl

@[simp] theorem State.outWrite_params (s : State) (b : Byte) : (s.outWrite b).params = s.params := rfl
@[simp] theorem State.outWrite_bufram (s : State) (b : Byte) : (s.outWrite b).bufram = s.bufram := rfl
@[simp] theorem State.outWrite_status (s : State) (b : Byte) : (s.outWrite b).status = s.status := rfl
@[simp] theorem State.outWrite_args (s : State) (b : Byte) : (s.outWrite b).args = s.args := rfl
@[simp] theorem State.outWrite_result (s : State) (b : Byte) : (s.outWrite b).result = s.result := rfl
@[simp] theorem State.outWrite_exit (s : State) (b : Byte) : (s.outWrite b).exit = s.exit := rfl
@[simp] theorem State.outWrite_scr (s : State) (b : Byte) : (s.outWrite b).scr = s.scr := rfl
@[simp] theorem State.outWrite_fmtBuf (s : State) (b : Byte) : (s.outWrite b).fmtBuf = s.fmtBuf := rfl
@[simp] theorem State.outWrite_seq (s : State) (b : Byte) : (s.outWrite b).seq = s.seq := rfl
@[simp] theorem State.outWrite_input (s : State) (b : Byte) : (s.outWrite b).input = s.input := rfl
@[simp] theorem State.outWrite_diag (s : State) (b : Byte) : (s.outWrite b).diag = s.diag := rfl
@[simp] theorem State.outWrite_diagReady (s : State) (b : Byte) : (s.outWrite b).diagReady = s.diagReady := rfl
@[simp] theorem State.outWrite_agenda (s : State) (b : Byte) : (s.outWrite b).agenda = s.agenda := rfl
@[simp] theorem State.outWrite_reply (s : State) (b : Byte) : (s.outWrite b).reply = s.reply := rfl
@[simp] theorem State.outWrite_epoch (s : State) (b : Byte) : (s.outWrite b).epoch = s.epoch := rfl
@[simp] theorem State.outWrite_scrEpoch (s : State) (b : Byte) : (s.outWrite b).scrEpoch = s.scrEpoch := rfl
@[simp] theorem State.outWrite_fmtEpoch (s : State) (b : Byte) : (s.outWrite b).fmtEpoch = s.fmtEpoch := rfl
@[simp] theorem State.outWrite_fresh (s : State) (b : Byte) : (s.outWrite b).fresh = s.fresh := rfl

@[simp] theorem State.diagWrite_params (s : State) (b : Byte) : (s.diagWrite b).params = s.params := rfl
@[simp] theorem State.diagWrite_bufram (s : State) (b : Byte) : (s.diagWrite b).bufram = s.bufram := rfl
@[simp] theorem State.diagWrite_status (s : State) (b : Byte) : (s.diagWrite b).status = s.status := rfl
@[simp] theorem State.diagWrite_args (s : State) (b : Byte) : (s.diagWrite b).args = s.args := rfl
@[simp] theorem State.diagWrite_result (s : State) (b : Byte) : (s.diagWrite b).result = s.result := rfl
@[simp] theorem State.diagWrite_exit (s : State) (b : Byte) : (s.diagWrite b).exit = s.exit := rfl
@[simp] theorem State.diagWrite_scr (s : State) (b : Byte) : (s.diagWrite b).scr = s.scr := rfl
@[simp] theorem State.diagWrite_fmtBuf (s : State) (b : Byte) : (s.diagWrite b).fmtBuf = s.fmtBuf := rfl
@[simp] theorem State.diagWrite_seq (s : State) (b : Byte) : (s.diagWrite b).seq = s.seq := rfl
@[simp] theorem State.diagWrite_input (s : State) (b : Byte) : (s.diagWrite b).input = s.input := rfl
@[simp] theorem State.diagWrite_output (s : State) (b : Byte) : (s.diagWrite b).output = s.output := rfl
@[simp] theorem State.diagWrite_outReady (s : State) (b : Byte) : (s.diagWrite b).outReady = s.outReady := rfl
@[simp] theorem State.diagWrite_agenda (s : State) (b : Byte) : (s.diagWrite b).agenda = s.agenda := rfl
@[simp] theorem State.diagWrite_reply (s : State) (b : Byte) : (s.diagWrite b).reply = s.reply := rfl
@[simp] theorem State.diagWrite_epoch (s : State) (b : Byte) : (s.diagWrite b).epoch = s.epoch := rfl
@[simp] theorem State.diagWrite_scrEpoch (s : State) (b : Byte) : (s.diagWrite b).scrEpoch = s.scrEpoch := rfl
@[simp] theorem State.diagWrite_fmtEpoch (s : State) (b : Byte) : (s.diagWrite b).fmtEpoch = s.fmtEpoch := rfl
@[simp] theorem State.diagWrite_fresh (s : State) (b : Byte) : (s.diagWrite b).fresh = s.fresh := rfl

@[simp] theorem State.run_params (s : State) (r : Running) : (s.run r).params = s.params := rfl
@[simp] theorem State.run_bufram (s : State) (r : Running) : (s.run r).bufram = s.bufram := rfl
@[simp] theorem State.run_status (s : State) (r : Running) : (s.run r).status = s.status := rfl
@[simp] theorem State.run_args (s : State) (r : Running) : (s.run r).args = s.args := rfl
@[simp] theorem State.run_result (s : State) (r : Running) : (s.run r).result = s.result := rfl
@[simp] theorem State.run_exit (s : State) (r : Running) : (s.run r).exit = s.exit := rfl
@[simp] theorem State.run_scr (s : State) (r : Running) : (s.run r).scr = s.scr := rfl
@[simp] theorem State.run_fmtBuf (s : State) (r : Running) : (s.run r).fmtBuf = s.fmtBuf := rfl
@[simp] theorem State.run_input (s : State) (r : Running) : (s.run r).input = s.input := rfl
@[simp] theorem State.run_output (s : State) (r : Running) : (s.run r).output = s.output := rfl
@[simp] theorem State.run_diag (s : State) (r : Running) : (s.run r).diag = s.diag := rfl
@[simp] theorem State.run_outReady (s : State) (r : Running) : (s.run r).outReady = s.outReady := rfl
@[simp] theorem State.run_diagReady (s : State) (r : Running) : (s.run r).diagReady = s.diagReady := rfl
@[simp] theorem State.run_agenda (s : State) (r : Running) : (s.run r).agenda = s.agenda := rfl
@[simp] theorem State.run_reply (s : State) (r : Running) : (s.run r).reply = s.reply := rfl
@[simp] theorem State.run_epoch (s : State) (r : Running) : (s.run r).epoch = s.epoch := rfl
@[simp] theorem State.run_scrEpoch (s : State) (r : Running) : (s.run r).scrEpoch = s.scrEpoch := rfl
@[simp] theorem State.run_fmtEpoch (s : State) (r : Running) : (s.run r).fmtEpoch = s.fmtEpoch := rfl
@[simp] theorem State.run_fresh (s : State) (r : Running) : (s.run r).fresh = s.fresh := rfl

/-! ### Everything an operation does -/

theorem State.begin_eq (s : State) (r : Running) :
    s.begin r = { s with status := { s.status with busy := true, done := false }, seq := .busy r } := rfl

theorem State.complete_eq (s : State) (v : Word) (t z : Bool) :
    s.complete v t z
      = { s with
          result := v, seq := .idle,
          status := { s.status with busy := false, done := true, trunc := t, zero := z } } := rfl

theorem State.forgetScr_eq (s : State) :
    s.forgetScr = { s with scr := [], scrEpoch := s.fresh + 1, fresh := s.fresh + 1 } := rfl

theorem State.forgetFmt_eq (s : State) :
    s.forgetFmt = { s with fmtBuf := [], fmtEpoch := s.fresh + 1, fresh := s.fresh + 1 } := rfl

theorem State.terminate_eq (s : State) (x : Args) (code : Byte) :
    s.terminate x code
      = { s with
          status := { s.status with busy := false, done := false, term := true }, exit := code,
          seq := .terminated, fresh := s.fresh + 1,
          bufram := freeBytes (s.fresh + 1) (8 * x.a.toNat) (8 * x.len.toNat) s.bufram } := rfl

theorem State.raiseFault_eq (s : State) (code : FaultCode) :
    s.raiseFault code
      = { s with status := { s.status with fault := true, faultCode := code.code, done := false } } := rfl

theorem State.drop_eq (s : State) : s.drop = { s with status := { s.status with haz := true } } := rfl

/-- The three things a `CMD` write can do (R121, R122). -/
theorem command_cases (i : Instr) (body : Running → State → State) (s : State) :
    (s.status.blocked = true ∧ command i body s = s.drop) ∨
    (s.status.blocked = false ∧ ∃ code, check i s.args s.params = some code ∧ command i body s = s.raiseFault code) ∨
    (s.status.blocked = false ∧ check i s.args s.params = none ∧
      command i body s = body (Running.start i s.args) (s.begin (Running.start i s.args))) := by
  unfold command
  cases hb : s.status.blocked with
  | true => exact .inl ⟨rfl, by simp⟩
  | false =>
    cases hc : check i s.args s.params with
    | some code => exact .inr (.inl ⟨rfl, code, rfl, by simp⟩)
    | none => exact .inr (.inr ⟨rfl, rfl, by simp⟩)

/-- A `CMD` write to a block that takes it, with arguments that pass (R121). -/
theorem command_accepted {i : Instr} {s : State} (hb : s.status.blocked = false)
    (hc : check i s.args s.params = none) (body : Running → State → State) :
    command i body s = body (Running.start i s.args) (s.begin (Running.start i s.args)) := by
  simp [command, hb, hc]

/-! ### The word loop -/

/-- What every step of a loop does to the state, the loop does. -/
theorem forWords_rel {R : State → State → Prop} (refl : ∀ s, R s s) (trans : ∀ s t u, R s t → R t u → R s u)
    {body : WordBody} {n i : Nat} (h : ∀ k c s, i ≤ k → k < i + n → R s (body k c s).2) (c : Word) (s : State) :
    R s (forWords body n i c s).2 := by
  induction n generalizing i c s with
  | zero => exact refl s
  | succ n ih =>
    rw [forWords]
    exact trans _ _ _ (h i c s (by omega) (by omega)) (ih (fun k c s h1 h2 => h k c s (by omega) (by omega)) _ _)

/-- What every step of a loop keeps true, the loop keeps true. -/
theorem forWords_keeps {P : State → Prop} {body : WordBody} {n i : Nat}
    (h : ∀ k c s, i ≤ k → k < i + n → P s → P (body k c s).2) (c : Word) (s : State) (hs : P s) :
    P (forWords body n i c s).2 :=
  forWords_rel (R := fun s t => P s → P t) (fun _ => id) (fun _ _ _ f g => g ∘ f) h c s hs

/-- A loop whose steps change `bufram` only changes `bufram` only. -/
theorem forWords_onlyRam {body : WordBody} (h : ∀ k c s, ∃ m, (body k c s).2 = s.setBufram m) (n i : Nat) (c : Word)
    (s : State) : ∃ m, (forWords body n i c s).2 = s.setBufram m :=
  forWords_rel (R := fun s t => ∃ m, t = s.setBufram m) (fun s => ⟨s.bufram, rfl⟩)
    (by rintro s t u ⟨m, rfl⟩ ⟨m', rfl⟩; exact ⟨m', rfl⟩) (fun k c s _ _ => h k c s) c s

/-- A loop whose steps change `scr` only changes `scr` only. -/
theorem forWords_onlyScr {body : WordBody} (h : ∀ k c s, ∃ m, (body k c s).2 = s.setScr m) (n i : Nat) (c : Word)
    (s : State) : ∃ m, (forWords body n i c s).2 = s.setScr m :=
  forWords_rel (R := fun s t => ∃ m, t = s.setScr m) (fun s => ⟨s.scr, rfl⟩)
    (by rintro s t u ⟨m, rfl⟩ ⟨m', rfl⟩; exact ⟨m', rfl⟩) (fun k c s _ _ => h k c s) c s

/-- A loop leaves every byte alone that each of its steps leaves alone. -/
theorem forWords_readByte {body : WordBody} {n i a : Nat}
    (h : ∀ k c s, i ≤ k → k < i + n → (body k c s).2.readByte a = s.readByte a) (c : Word) (s : State) :
    (forWords body n i c s).2.readByte a = s.readByte a :=
  forWords_rel (R := fun s t => t.readByte a = s.readByte a) (fun _ => rfl) (fun _ _ _ f g => g.trans f) h c s

/-- A loop leaves every word alone that each of its steps leaves alone. -/
theorem forWords_readWord {body : WordBody} {n i a : Nat}
    (h : ∀ k c s, i ≤ k → k < i + n → (body k c s).2.readWord a = s.readWord a) (c : Word) (s : State) :
    (forWords body n i c s).2.readWord a = s.readWord a :=
  forWords_rel (R := fun s t => t.readWord a = s.readWord a) (fun _ => rfl) (fun _ _ _ f g => g.trans f) h c s

end Sys2Proof.Machine
end

