-- ==== Sys2Proof/Laws/Loops.lean ====
section
/-!
SUPPORT. What the word loops compute: the carry chains of addition and multiplication, the division from
the top word, and the loops that zero, copy and test (41_short_arithmetic.md R141, R151, R161;
42_long_arithmetic.md R181; 44_buffer_utilities.md).
-/
namespace Sys2Proof.Machine

/-! ### Sums of word digits -/

/-- `Σ f k · 2^(64 (k - i))` over `k` from `i` to `i + n - 1`. -/
def digitSum (f : Nat → Nat) : Nat → Nat → Nat
  | _, 0 => 0
  | i, n + 1 => f i + 2 ^ 64 * digitSum f (i + 1) n

theorem digitSum_congr {f g : Nat → Nat} {i n : Nat} (h : ∀ k, i ≤ k → k < i + n → f k = g k) :
    digitSum f i n = digitSum g i n := by
  induction n generalizing i with
  | zero => rfl
  | succ n ih =>
    rw [digitSum, digitSum, h i (by omega) (by omega), ih fun k h1 h2 => h k (by omega) (by omega)]

theorem digitSum_mul (f : Nat → Nat) (w i n : Nat) : digitSum (fun k => f k * w) i n = digitSum f i n * w := by
  induction n generalizing i with
  | zero => simp [digitSum]
  | succ n ih => simp only [digitSum, ih]; ring

theorem digitSum_add (f g : Nat → Nat) (i n : Nat) :
    digitSum (fun k => f k + g k) i n = digitSum f i n + digitSum g i n := by
  induction n generalizing i with
  | zero => simp [digitSum]
  | succ n ih => simp only [digitSum, ih]; ring

/-- The top digit on its own. -/
theorem digitSum_succ_top (f : Nat → Nat) (i n : Nat) :
    digitSum f i (n + 1) = digitSum f i n + 2 ^ (64 * n) * f (i + n) := by
  induction n generalizing i with
  | zero => simp [digitSum]
  | succ n ih =>
    have e : 2 ^ (64 * (n + 1)) = 2 ^ 64 * 2 ^ (64 * n) := by rw [← pow_add]; congr 1; omega
    rw [digitSum, ih (i + 1), digitSum, e, show i + 1 + n = i + (n + 1) by omega]
    ring

theorem State.val_eq_digitSum (s : State) (a i n : Nat) :
    s.val (a + i) n = digitSum (fun k => (s.readWord (a + k)).toNat) i n := by
  induction n generalizing i with
  | zero => rfl
  | succ n ih => rw [State.val, digitSum, Nat.add_assoc, ih]

/-! ### Splitting an exact number -/

theorem lowWord_toNat (n : Nat) : (lowWord n).toNat = n % 2 ^ 64 := by simp [lowWord]

theorem highWord_toNat {n : Nat} (h : n < 2 ^ 128) : (highWord n).toNat = n / 2 ^ 64 := by
  simp only [highWord, BitVec.toNat_ofNat]
  exact Nat.mod_eq_of_lt (Nat.div_lt_of_lt_mul (by rw [← pow_add]; exact h))

/-! ### Carry chains -/

/-- A loop that stores the low word of `u s i + c` at `base + i` and carries the high word on. `get` and
`put` are the store it works on: `BUFRAM` or `SCR`. -/
theorem forWords_carry {get : State → Nat → Word} {put : State → Nat → Word → State} {base : Nat}
    {u : State → Nat → Nat} {body : WordBody}
    (hget : ∀ s k k' v, get (put s k v) k' = if k' = k then v else get s k')
    (hbody : ∀ i c s, body i c s = (highWord (u s i + c.toNat), put s (base + i) (lowWord (u s i + c.toNat))))
    (n i : Nat) (hu : ∀ s j k v, j < k → k < i + n → u (put s (base + j) v) k = u s k)
    (hb : ∀ s k (c : Word), u s k + c.toNat < 2 ^ 128) (c : Word) (s : State) :
    digitSum (fun k => (get (forWords body n i c s).2 (base + k)).toNat) i n
        + 2 ^ (64 * n) * (forWords body n i c s).1.toNat = digitSum (u s) i n + c.toNat ∧
    ∀ k, k < base + i ∨ base + i + n ≤ k → get (forWords body n i c s).2 k = get s k := by
  induction n generalizing i c s with
  | zero => simp [forWords, digitSum]
  | succ n ih =>
    obtain ⟨h1, h2⟩ := ih (i + 1) (fun s j k v h h' => hu s j k v h (by omega))
      (body i c s).1 (body i c s).2
    rw [forWords]
    set f := forWords body n (i + 1) (body i c s).1 (body i c s).2
    have e1 : (body i c s).1 = highWord (u s i + c.toNat) := by rw [hbody]
    have e2 : (body i c s).2 = put s (base + i) (lowWord (u s i + c.toNat)) := by rw [hbody]
    constructor
    · have hi : get f.2 (base + i) = lowWord (u s i + c.toNat) := by
        rw [h2 _ (Or.inl (by omega)), e2, hget, if_pos rfl]
      have hs : digitSum (u (body i c s).2) (i + 1) n = digitSum (u s) (i + 1) n :=
        digitSum_congr fun k h h' => by rw [e2, hu s i k _ (by omega) (by omega)]
      rw [hs, e1, highWord_toNat (hb s i c)] at h1
      have p : 2 ^ (64 * (n + 1)) = 2 ^ 64 * 2 ^ (64 * n) := by rw [← pow_add]; congr 1; omega
      have d := Nat.mod_add_div (u s i + c.toNat) (2 ^ 64)
      simp only [digitSum, hi, lowWord_toNat, p]
      nlinarith
    · intro k hk
      rw [h2 k (by omega), e2, hget, if_neg (by omega)]

theorem word_add_lt (x y : Word) (c : Word) : x.toNat + y.toNat + c.toNat < 2 ^ 128 := by
  have := x.isLt; have := y.isLt; have := c.isLt; omega

theorem word_mul_lt (x y : Word) (c : Word) : x.toNat * y.toNat + c.toNat < 2 ^ 128 := by
  have hx : x.toNat ≤ 2 ^ 64 - 1 := by have := x.isLt; omega
  have hy : y.toNat ≤ 2 ^ 64 - 1 := by have := y.isLt; omega
  have hc := c.isLt
  have : x.toNat * y.toNat ≤ (2 ^ 64 - 1) * (2 ^ 64 - 1) := Nat.mul_le_mul hx hy
  omega

/-- The addition loop (R141). -/
theorem forWords_addWord (base n : Nat) (c : Word) (s : State) :
    (forWords (addWord base) n 0 c s).2.val base n + 2 ^ (64 * n) * (forWords (addWord base) n 0 c s).1.toNat
        = s.val base n + c.toNat ∧
    ∀ k, k < base ∨ base + n ≤ k → (forWords (addWord base) n 0 c s).2.readWord k = s.readWord k := by
  have h := forWords_carry (get := State.readWord) (put := State.writeWord) (base := base)
    (u := fun s i => (s.readWord (base + i)).toNat) (body := addWord base)
    (fun s k k' v => State.readWord_writeWord s k k' v) (fun i c s => rfl) n 0
    (fun s j k v h _ => by rw [State.readWord_writeWord_ne _ (by omega)])
    (fun s k c => by have := (s.readWord (base + k)).isLt; have := c.isLt; omega) c s
  have e := fun t : State => t.val_eq_digitSum base 0 n
  simp only [Nat.add_zero] at e h
  rw [e, e]
  exact h

/-- The multiplication loop (R151). -/
theorem forWords_mulWord (base : Nat) (w : Word) (n : Nat) (c : Word) (s : State) :
    (forWords (mulWord base w) n 0 c s).2.val base n + 2 ^ (64 * n) * (forWords (mulWord base w) n 0 c s).1.toNat
        = s.val base n * w.toNat + c.toNat ∧
    ∀ k, k < base ∨ base + n ≤ k → (forWords (mulWord base w) n 0 c s).2.readWord k = s.readWord k := by
  have h := forWords_carry (get := State.readWord) (put := State.writeWord) (base := base)
    (u := fun s i => (s.readWord (base + i)).toNat * w.toNat) (body := mulWord base w)
    (fun s k k' v => State.readWord_writeWord s k k' v) (fun i c s => rfl) n 0
    (fun s j k v h _ => by rw [State.readWord_writeWord_ne _ (by omega)])
    (fun s k c => word_mul_lt _ w c) c s
  have e := fun t : State => t.val_eq_digitSum base 0 n
  simp only [Nat.add_zero, digitSum_mul] at e h
  rw [e, e]
  exact h

/-- The loop of ADD_LONG over ranges that do not overlap (R181). -/
theorem forWords_addLongWord {x : Args} (h : (Args.rangeA x).overlaps (Args.rangeB x) = false) (c : Word) (s : State) :
    (forWords (addLongWord x) x.len.toNat 0 c s).2.val x.a.toNat x.len.toNat
        + 2 ^ (64 * x.len.toNat) * (forWords (addLongWord x) x.len.toNat 0 c s).1.toNat
      = s.val x.a.toNat x.len.toNat + s.val x.b.toNat x.len.toNat + c.toNat ∧
    ∀ k, k < x.a.toNat ∨ x.a.toNat + x.len.toNat ≤ k →
      (forWords (addLongWord x) x.len.toNat 0 c s).2.readWord k = s.readWord k := by
  simp only [Range.overlaps_eq_false_iff, Args.rangeA, Args.rangeB] at h
  have h := forWords_carry (get := State.readWord) (put := State.writeWord) (base := x.a.toNat)
    (u := fun s i => (s.readWord (x.a.toNat + i)).toNat + (s.readWord (x.b.toNat + i)).toNat) (body := addLongWord x)
    (fun s k k' v => State.readWord_writeWord s k k' v) (fun i c s => rfl) x.len.toNat 0
    (fun s j k v _ _ => by
      rw [State.readWord_writeWord_ne _ (by omega), State.readWord_writeWord_ne _ (by omega)])
    (fun s k c => word_add_lt _ _ c) c s
  have e := fun (t : State) (a : Nat) => t.val_eq_digitSum a 0 x.len.toNat
  simp only [Nat.add_zero, digitSum_add] at e h
  rw [e, e, e]
  exact h

/-! ### Division -/

/-- The division loop from the word `n - 1` of `len` down to word 0, with remainder `r < w` coming in (R161). -/
theorem forWords_divWord {base len : Nat} {w : Word} {n : Nat} (hn : n ≤ len) {r : Word} (hr : r.toNat < w.toNat)
    (s : State) :
    r.toNat * 2 ^ (64 * n) + s.val base n
        = w.toNat * (forWords (divWord base len w) n (len - n) r s).2.val base n
          + (forWords (divWord base len w) n (len - n) r s).1.toNat ∧
    (forWords (divWord base len w) n (len - n) r s).1.toNat < w.toNat ∧
    ∀ k, k < base ∨ base + n ≤ k → (forWords (divWord base len w) n (len - n) r s).2.readWord k = s.readWord k := by
  induction n generalizing r s with
  | zero => simpa [forWords, State.val] using hr
  | succ n ih =>
    have hw := w.isLt
    have top : base + (len - 1 - (len - (n + 1))) = base + n := by omega
    have next : len - (n + 1) + 1 = len - n := by omega
    set d := r.toNat * 2 ^ 64 + (s.readWord (base + n)).toNat with hd
    have hdw : d < w.toNat * 2 ^ 64 := by
      have := (s.readWord (base + n)).isLt
      nlinarith
    have hq : d / w.toNat < 2 ^ 64 := Nat.div_lt_of_lt_mul hdw
    have hm : d % w.toNat < w.toNat := Nat.mod_lt _ (by omega)
    have e1 : (divWord base len w (len - (n + 1)) r s).1 = lowWord (d % w.toNat) := by simp [divWord, top, hd]
    have e2 : (divWord base len w (len - (n + 1)) r s).2 = s.writeWord (base + n) (lowWord (d / w.toNat)) := by
      simp [divWord, top, hd]
    have t1 : (lowWord (d % w.toNat)).toNat = d % w.toNat := by rw [lowWord_toNat]; exact Nat.mod_eq_of_lt (by omega)
    have t2 : (lowWord (d / w.toNat)).toNat = d / w.toNat := by rw [lowWord_toNat]; exact Nat.mod_eq_of_lt hq
    rw [forWords, next, e1, e2]
    obtain ⟨h1, h2, h3⟩ := ih (by omega) (r := lowWord (d % w.toNat)) (by rw [t1]; exact hm)
      (s.writeWord (base + n) (lowWord (d / w.toNat)))
    set f := forWords (divWord base len w) n (len - n) (lowWord (d % w.toNat))
      (s.writeWord (base + n) (lowWord (d / w.toNat)))
    refine ⟨?_, h2, fun k hk => ?_⟩
    · rw [State.val_succ_top, State.val_succ_top, h3 (base + n) (Or.inr (by omega)), State.readWord_writeWord_same, t2]
      have low : (s.writeWord (base + n) (lowWord (d / w.toNat))).val base n = s.val base n :=
        State.val_congr fun k _ h => State.readWord_writeWord_ne _ (by omega) _
      rw [low, t1] at h1
      have dm := Nat.mod_add_div d w.toNat
      have p : 2 ^ (64 * (n + 1)) = 2 ^ 64 * 2 ^ (64 * n) := by rw [← pow_add]; congr 1; omega
      calc r.toNat * 2 ^ (64 * (n + 1)) + (s.val base n + 2 ^ (64 * n) * (s.readWord (base + n)).toNat)
          = d * 2 ^ (64 * n) + s.val base n := by rw [p, hd]; ring
        _ = (d % w.toNat + w.toNat * (d / w.toNat)) * 2 ^ (64 * n) + s.val base n := by rw [dm]
        _ = (d % w.toNat * 2 ^ (64 * n) + s.val base n) + w.toNat * (2 ^ (64 * n) * (d / w.toNat)) := by ring
        _ = w.toNat * (f.2.val base n + 2 ^ (64 * n) * (d / w.toNat)) + f.1.toNat := by rw [h1]; ring
    · rw [h3 k (by omega), State.readWord_writeWord_ne _ (by omega)]

/-! ### Zeroing, copying, testing -/

/-- The zeroing loop (R280). -/
theorem forWords_zeroWord (base n i : Nat) (c : Word) (s : State) (k : Nat) :
    (forWords (zeroWord base) n i c s).2.readWord k
      = if base + i ≤ k ∧ k < base + i + n then 0 else s.readWord k := by
  induction n generalizing i c s with
  | zero => rw [forWords, if_neg (by omega)]
  | succ n ih =>
    rw [forWords, ih]
    simp only [zeroWord, State.readWord_writeWord]
    split
    · rw [if_pos (by omega)]
    · split
      · rw [if_pos (by omega)]
      · rw [if_neg (by omega)]

/-- The copying loop over ranges that do not overlap (R275). -/
theorem forWords_copyWord {dst src n i : Nat} (h : n = 0 ∨ dst + i + n ≤ src + i ∨ src + i + n ≤ dst + i) (c : Word)
    (s : State) (k : Nat) :
    (forWords (copyWord dst src) n i c s).2.readWord k
      = if dst + i ≤ k ∧ k < dst + i + n then s.readWord (src + (k - dst)) else s.readWord k := by
  induction n generalizing i c s with
  | zero => rw [forWords, if_neg (by omega)]
  | succ n ih =>
    rw [forWords, ih (by omega)]
    simp only [copyWord, State.readWord_writeWord]
    by_cases h1 : dst + (i + 1) ≤ k ∧ k < dst + (i + 1) + n
    · rw [if_pos h1, if_neg (by omega), if_pos (by omega)]
    · rw [if_neg h1]
      by_cases h2 : k = dst + i
      · rw [if_pos h2, if_pos (by omega)]
        congr 1
        omega
      · rw [if_neg h2, if_neg (by omega)]

/-- The testing loop: the flag stays unless some word is not zero, and the state stays (R270). -/
theorem forWords_testWord (base n i : Nat) (c : Word) (s : State) :
    forWords (testWord base) n i c s = (if s.val (base + i) n = 0 then c else 0, s) := by
  induction n generalizing i c with
  | zero => simp [forWords, State.val]
  | succ n ih =>
    have e : s.val (base + i) (n + 1) = 0 ↔ s.readWord (base + i) = 0 ∧ s.val (base + (i + 1)) n = 0 := by
      rw [State.val, Nat.add_eq_zero_iff, Nat.mul_eq_zero, Nat.add_assoc, ← BitVec.toNat_inj]
      simp
    simp only [forWords, testWord, ih, e]
    by_cases h : s.readWord (base + i) = 0
    · simp only [h, true_and, if_true]
    · simp only [h, false_and, if_false, ite_self]

end Sys2Proof.Machine
end

