-- ==== Sys2Proof/Laws/Codec.lean ====
section
/-!
SUPPORT. What the decimal codec computes: DIGCAP, the digit extraction and emission of FORMAT, the digit
steps of PARSE (43_decimal_codec.md R222, R223, R241, R244).
-/
namespace Sys2Proof.Machine

/-! ### DIGCAP -/

theorem log10From_spec {v : Nat} (k acc : Nat) (h1 : 10 ^ acc ≤ v) (h2 : v < 10 ^ (acc + 2 ^ k)) :
    10 ^ log10From v k acc ≤ v ∧ v < 10 ^ (log10From v k acc + 1) := by
  induction k generalizing acc with
  | zero => exact ⟨h1, h2⟩
  | succ k ih =>
    rw [log10From]
    split
    · exact ih _ (by assumption) (by rwa [Nat.add_assoc, ← Nat.two_mul, ← Nat.pow_succ'])
    · exact ih _ h1 (by omega)

/-- A power of 2 is at most the power of 10 with a third of its exponent. -/
theorem two_pow_le_ten_pow {e d : Nat} (h : e ≤ 3 * d) : 2 ^ e ≤ 10 ^ d :=
  calc 2 ^ e ≤ 2 ^ (3 * d) := Nat.pow_le_pow_right (by decide) h
    _ = (2 ^ 3) ^ d := pow_mul 2 3 d
    _ ≤ 10 ^ d := Nat.pow_le_pow_left (by decide) d

/-- The search from 0 finds the digit count, less one. -/
theorem log10From_digits {v k : Nat} (lo : 1 ≤ v) (hi : v < 10 ^ (0 + 2 ^ k)) :
    10 ^ (log10From v k 0 + 1 - 1) ≤ v ∧ v < 10 ^ (log10From v k 0 + 1) := log10From_spec k 0 lo hi

/-- DIGCAP is the number of decimal digits of `2^(128 N) - 1` (R8). -/
theorem digcap_spec {p : Params} (h1 : 1 ≤ p.n) (h2 : p.n ≤ 16383) :
    10 ^ (digcap p - 1) ≤ 2 ^ (128 * p.n) - 1 ∧ 2 ^ (128 * p.n) - 1 < 10 ^ digcap p := by
  have lo : 1 < 2 ^ (128 * p.n) := Nat.one_lt_two_pow (by omega)
  have hi : ∀ d, 128 * p.n ≤ 3 * d → 2 ^ (128 * p.n) - 1 < 10 ^ d := fun d h =>
    Nat.lt_of_lt_of_le (Nat.sub_lt (Nat.zero_lt_of_lt lo) Nat.one_pos) (two_pow_le_ten_pow h)
  unfold digcap
  exact log10From_digits (Nat.le_sub_one_of_lt lo) (hi (0 + 2 ^ 20) (by omega))

theorem digcap_pos (p : Params) : 0 < digcap p := Nat.succ_pos _

/-! ### FORMAT: the digits -/

/-- How many digits FORMAT extracts from `v`: at least one (R242). -/
def digitCount (v : Nat) : Nat := if v < 10 then 1 else (Nat.digits 10 v).length

theorem digitCount_step {v : Nat} (h : 10 ≤ v) : digitCount v = digitCount (v / 10) + 1 := by
  have e : (Nat.digits 10 v).length = (Nat.digits 10 (v / 10)).length + 1 := by
    rw [Nat.digits_def' (by omega) (by omega)]; rfl
  rw [digitCount, if_neg (by omega), e, digitCount]
  split
  · rename_i h'
    rw [Nat.digits_of_lt 10 _ (by omega) h']; rfl
  · rfl

theorem digitCount_le_iff {v n : Nat} (hn : 0 < n) : digitCount v ≤ n ↔ v < 10 ^ n := by
  unfold digitCount
  split
  · have : 10 ^ 1 ≤ 10 ^ n := Nat.pow_le_pow_right (by omega) hn
    constructor <;> intro <;> omega
  · exact Nat.digits_length_le_iff (by omega) v

/-- The decimal text of a number, digit by digit from the most significant one. -/
theorem decimalBytes_eq (v : Nat) :
    decimalBytes v
      = (List.range (digitCount v)).map
          (fun k => BitVec.ofNat 8 (0x30 + v / 10 ^ (digitCount v - 1 - k) % 10)) := by
  by_cases h0 : v = 0
  · subst h0; decide
  have hl : digitCount v = (Nat.digits 10 v).length := by
    unfold digitCount
    split
    · rw [Nat.digits_of_lt 10 v h0 (by assumption)]; rfl
    · rfl
  rw [decimalBytes, if_neg h0]
  apply List.ext_getElem
  · simp [hl]
  · intro k h1 h2
    simp only [List.length_reverse, List.length_map] at h1
    simp only [List.getElem_reverse, List.getElem_map, List.getElem_range, List.length_map, hl]
    congr 2
    rw [← Nat.getD_digits v _ (by omega)]
    exact (List.getD_eq_getElem _ _ (by omega)).symm

/-- One division of FORMAT: the value goes from `V` to `V / 10` and the carry is its last digit. -/
theorem formatDiv_spec (x : Args) (s : State) :
    (forWords (formatDivWord x) x.len.toNat 0 0 s).1.toNat = s.val x.a.toNat x.len.toNat % 10 ∧
    (forWords (formatDivWord x) x.len.toNat 0 0 s).2.val x.a.toNat x.len.toNat = s.val x.a.toNat x.len.toNat / 10 ∧
    (∀ k, k < x.a.toNat ∨ x.a.toNat + x.len.toNat ≤ k →
      (forWords (formatDivWord x) x.len.toNat 0 0 s).2.readWord k = s.readWord k) ∧
    ∃ m, (forWords (formatDivWord x) x.len.toNat 0 0 s).2 = s.setBufram m := by
  have h := forWords_divWord (base := x.a.toNat) (len := x.len.toNat) (w := 10) (n := x.len.toNat) le_rfl (r := 0)
    (by decide) s
  rw [Nat.sub_self] at h
  have t : (10 : Word).toNat = 10 := rfl
  have z : (0 : Word).toNat = 0 := rfl
  rw [t, z, Nat.zero_mul, Nat.zero_add] at h
  obtain ⟨h1, h2, h3⟩ := h
  refine ⟨?_, ?_, h3, forWords_onlyRam (fun k c s => ⟨_, rfl⟩) _ _ _ _⟩
  · show (forWords (divWord x.a.toNat x.len.toNat 10) x.len.toNat 0 0 s).1.toNat = _
    omega
  · show (forWords (divWord x.a.toNat x.len.toNat 10) x.len.toNat 0 0 s).2.val x.a.toNat x.len.toNat = _
    omega

/-- The do-while loop of FORMAT with enough fuel: one digit per decimal place, the buffer left zero. -/
theorem formatDigits_spec (x : Args) (fuel n : Nat) (s : State) (hf : s.val x.a.toNat x.len.toNat < 10 ^ fuel)
    (h1 : 0 < fuel) :
    (formatDigits x fuel n s).1 = n + digitCount (s.val x.a.toNat x.len.toNat) ∧
    (formatDigits x fuel n s).2.val x.a.toNat x.len.toNat = 0 ∧
    (∀ k, k < x.a.toNat ∨ x.a.toNat + x.len.toNat ≤ k → (formatDigits x fuel n s).2.readWord k = s.readWord k) ∧
    (n + digitCount (s.val x.a.toNat x.len.toNat) ≤ digcap s.params → ∀ j,
      (n < j → j ≤ n + digitCount (s.val x.a.toNat x.len.toNat) →
        (formatDigits x fuel n s).2.readFmt (digcap s.params - j)
          = BitVec.ofNat 8 (0x30 + s.val x.a.toNat x.len.toNat / 10 ^ (j - n - 1) % 10)) ∧
      (j ≤ n → (formatDigits x fuel n s).2.readFmt (digcap s.params - j) = s.readFmt (digcap s.params - j))) ∧
    ∃ m v, (formatDigits x fuel n s).2 = (s.setBufram m).setFmtBuf v := by
  induction fuel generalizing n s with
  | zero => omega
  | succ fuel ih =>
    obtain ⟨d1, d2, d3, m, d4⟩ := formatDiv_spec x s
    set V := s.val x.a.toNat x.len.toNat with hV
    set q := forWords (formatDivWord x) x.len.toNat 0 0 s with hq
    set s1 := placeDigit (n + 1) q.1 q.2 with hs1
    have hz : forWords (formatTestWord x) x.len.toNat 0 1 s1
        = (if s1.val x.a.toNat x.len.toNat = 0 then 1 else 0, s1) := forWords_testWord x.a.toNat x.len.toNat 0 1 s1
    have p1 : q.2.params = s.params := by rw [d4]; rfl
    have p2 : s1.params = s.params := p1
    have w1 : ∀ k, s1.readWord k = q.2.readWord k := fun k => State.readWord_congr' rfl rfl k
    have v1 : s1.val x.a.toNat x.len.toNat = V / 10 := by rw [← d2]; exact State.val_congr fun k _ _ => w1 k
    have f1 : ∀ k, s1.readFmt k = if k = digcap s.params - (n + 1) then digitByte q.1 else s.readFmt k := fun k => by
      rw [hs1, placeDigit, State.readFmt_writeFmt, p1]
      congr 1
      rw [d4]; rfl
    have b0 : digitByte q.1 = BitVec.ofNat 8 (0x30 + V % 10) := by rw [digitByte, d1]
    have hs : ∃ m v, s1 = (s.setBufram m).setFmtBuf v := ⟨m, s1.fmtBuf, by rw [hs1, placeDigit, State.writeFmt, d4]; rfl⟩
    have e : formatDigits x (fuel + 1) n s
        = if (forWords (formatTestWord x) x.len.toNat 0 1 s1).1 = 0 then
            formatDigits x fuel (n + 1) (forWords (formatTestWord x) x.len.toNat 0 1 s1).2
          else (n + 1, (forWords (formatTestWord x) x.len.toNat 0 1 s1).2) := rfl
    rw [e, hz]
    simp only [v1]
    by_cases hv : V / 10 = 0
    · have c1 : digitCount V = 1 := by rw [digitCount, if_pos (by omega)]
      rw [if_pos hv, if_neg (by decide), c1]
      refine ⟨rfl, by rw [v1, hv], fun k hk => (w1 k).trans (d3 k hk), fun hc j => ⟨fun h1 h2 => ?_, fun h1 => ?_⟩, hs⟩
      · obtain rfl : j = n + 1 := by omega
        rw [f1, if_pos rfl, b0, show n + 1 - n - 1 = 0 by omega, pow_zero, Nat.div_one]
      · rw [f1, if_neg (by omega)]
    · have hlt : s1.val x.a.toNat x.len.toNat < 10 ^ fuel := by
        rw [v1]
        have : (10 : Nat) ^ (fuel + 1) = 10 * 10 ^ fuel := by rw [pow_succ, Nat.mul_comm]
        omega
      have hpos : 0 < fuel := by
        rcases Nat.eq_zero_or_pos fuel with h0 | h0
        · rw [v1, h0, pow_zero] at hlt; omega
        · exact h0
      obtain ⟨i1, i2, i3, i4, i5⟩ := ih (n + 1) s1 hlt hpos
      rw [v1, p2] at i4
      rw [v1] at i1
      have c1 : digitCount V = digitCount (V / 10) + 1 := digitCount_step (by omega)
      rw [if_neg hv, if_pos rfl, c1]
      refine ⟨by rw [i1]; omega, i2, fun k hk => (i3 k hk).trans ((w1 k).trans (d3 k hk)), fun hc j => ⟨fun h1 h2 => ?_, fun h1 => ?_⟩, ?_⟩
      · rcases Nat.lt_or_ge (n + 1) j with h | h
        · rw [(i4 (by omega) j).1 h (by omega), Nat.div_div_eq_div_mul, show j - n - 1 = (j - (n + 1) - 1) + 1 by omega, pow_succ,
            Nat.mul_comm]
        · obtain rfl : j = n + 1 := by omega
          rw [(i4 (by omega) _).2 le_rfl, f1, if_pos rfl, b0, show n + 1 - n - 1 = 0 by omega, pow_zero, Nat.div_one]
      · rw [(i4 (by omega) j).2 (by omega), f1, if_neg (by omega)]
      · obtain ⟨m1, v1, e1⟩ := hs
        obtain ⟨m2, v2, e2⟩ := i5
        exact ⟨m2, v2, by rw [e2, e1]; rfl⟩

/-! ### FORMAT: the emission -/

/-- Emission while the host accepts: as many bytes as are left to emit and accepted. -/
theorem emitDigits_spec (n m k : Nat) (s : State) :
    (emitDigits n m k s).1 = k + min m s.outReady ∧
    (emitDigits n m k s).2
      = (s.setOutput (s.output ++ (List.range (min m s.outReady)).map (fun j => emittedDigit n (k + j) s))).setOutReady
          (s.outReady - min m s.outReady) := by
  induction m generalizing k s with
  | zero => simp [emitDigits, State.setOutput, State.setOutReady]
  | succ m ih =>
    rw [emitDigits]
    split
    · rename_i h
      simp [h, State.setOutput, State.setOutReady]
      cases s; simp_all
    · rename_i h
      obtain ⟨i1, i2⟩ := ih (k + 1) (s.outWrite (emittedDigit n k s))
      have e : min (m + 1) s.outReady = min m (s.outReady - 1) + 1 := by omega
      have r : (s.outWrite (emittedDigit n k s)).outReady = s.outReady - 1 := rfl
      rw [r] at i1 i2
      constructor
      · rw [i1, e]; omega
      · rw [i2, e, List.range_succ_eq_map, List.map_cons, List.map_map]
        have f : (fun j => emittedDigit n (k + 1 + j) (s.outWrite (emittedDigit n k s)))
            = (fun j => emittedDigit n (k + j) s) ∘ Nat.succ := by
          funext j
          show emittedDigit n (k + 1 + j) s = emittedDigit n (k + (j + 1)) s
          congr 1
          omega
        rw [f]
        have g : s.outReady - 1 - min m (s.outReady - 1) = s.outReady - (min m (s.outReady - 1) + 1) := by omega
        simp [State.outWrite, State.setOutput, State.setOutReady, g]

/-! ### PARSE -/

/-- A digit step: the value goes from `V` to `10 V + d` without what exceeds the buffer, and the flag says
whether anything did (R222). -/
theorem digitStep_spec (x : Args) (d : Word) (s : State) :
    (digitStep x d s).2.val x.a.toNat x.len.toNat
      = (10 * s.val x.a.toNat x.len.toNat + d.toNat) % 2 ^ (64 * x.len.toNat) ∧
    ((digitStep x d s).1 = true ↔ 2 ^ (64 * x.len.toNat) ≤ 10 * s.val x.a.toNat x.len.toNat + d.toNat) ∧
    (∀ k, k < x.a.toNat ∨ x.a.toNat + x.len.toNat ≤ k → (digitStep x d s).2.readWord k = s.readWord k) ∧
    ∃ m, (digitStep x d s).2 = s.setBufram m := by
  have hm := forWords_mulWord x.a.toNat 10 x.len.toNat 0 s
  have om := forWords_onlyRam (body := mulWord x.a.toNat 10) (fun k c s => ⟨_, rfl⟩) x.len.toNat 0 0 s
  simp only [digitStep, parseTimesWord, parseAddWord]
  set m := forWords (mulWord x.a.toNat 10) x.len.toNat 0 0 s
  have hp := forWords_addWord x.a.toNat x.len.toNat d m.2
  have op := forWords_onlyRam (body := addWord x.a.toNat) (fun k c s => ⟨_, rfl⟩) x.len.toNat 0 d m.2
  set p := forWords (addWord x.a.toNat) x.len.toNat 0 d m.2
  have t : (10 : Word).toNat = 10 := rfl
  have z : (0 : Word).toNat = 0 := rfl
  rw [t, z, Nat.add_zero] at hm
  obtain ⟨m1, m2⟩ := hm
  obtain ⟨p1, p2⟩ := hp
  have bm := m.2.val_lt x.a.toNat x.len.toNat
  have bp := p.2.val_lt x.a.toNat x.len.toNat
  set B := 2 ^ (64 * x.len.toNat)
  set V := s.val x.a.toNat x.len.toNat
  have tot : 10 * V + d.toNat = p.2.val x.a.toNat x.len.toNat + B * (m.1.toNat + p.1.toNat) := by
    rw [Nat.mul_add]; omega
  have cl : ∀ c : Word, carryLost c = true ↔ c.toNat ≠ 0 := fun c => by
    simp [carryLost, ← BitVec.toNat_inj]
  refine ⟨?_, ?_, fun k hk => (p2 k hk).trans (m2 k hk), ?_⟩
  · rw [tot, Nat.add_mul_mod_self_left, Nat.mod_eq_of_lt bp]
  · rw [Bool.or_eq_true, cl, cl, tot]
    constructor
    · intro h
      have : B * 1 ≤ B * (m.1.toNat + p.1.toNat) := Nat.mul_le_mul_left _ (by omega)
      omega
    · intro h
      by_contra hc
      have : m.1.toNat + p.1.toNat = 0 := by omega
      rw [this, Nat.mul_zero] at h
      omega
  · obtain ⟨w1, e1⟩ := om
    obtain ⟨w2, e2⟩ := op
    exact ⟨w2, by rw [e2, e1]; rfl⟩

end Sys2Proof.Machine
end

