-- ==== Sys2Proof/Laws/Parse.lean ====
section
/-!
SUPPORT. What PARSE does with the items of its stream: digits, a terminator, an invalid byte
(43_decimal_codec.md R220 to R231).
-/
namespace Sys2Proof.Machine

/-! ### Moves -/

theorem parseMove_digit {d : Nat} (h : d ≤ 9) (n : Nat) :
    parseMove n (.byte (BitVec.ofNat 8 (0x30 + d))) = .digit (lowWord d) := by
  interval_cases d <;> rfl

theorem parseMove_newline (n : Nat) : parseMove n (.byte newline) = .complete := rfl

theorem parseMove_end (n : Nat) : parseMove n .endItem = if n = 0 then .exhausted else .complete := rfl

/-- A byte that is no digit and no newline (R224). -/
theorem parseMove_invalid {b : Byte} (h1 : b ≠ newline) (h2 : b.toNat < 0x30 ∨ 0x39 < b.toNat) (n : Nat) :
    parseMove n (.byte b) = .invalid b := by
  rw [parseMove, if_neg h1, if_neg (by omega)]

/-! ### Numerals -/

theorem numeralValue_foldl (ds : List Nat) : numeralValue ds = ds.foldl (fun v d => 10 * v + d) 0 := by
  have gen : ∀ (ds : List Nat) (v : Nat),
      ds.foldl (fun v d => 10 * v + d) v = Nat.ofDigits 10 ds.reverse + 10 ^ ds.length * v := by
    intro ds
    induction ds with
    | nil => simp
    | cons d ds ih =>
      intro v
      rw [List.foldl_cons, ih, List.reverse_cons, Nat.ofDigits_append, List.length_reverse, List.length_cons]
      simp only [Nat.ofDigits_singleton]
      ring
  rw [gen, numeralValue, Nat.mul_zero, Nat.add_zero]

/-- The digit loop of PARSE over digits `ds`, from the exact prefix value `P` (R223). -/
theorem parseItems_digits {ds : List Nat} (hd : ∀ d ∈ ds, d ≤ 9) (tail : List InItem) (r : Running) (P : Nat) (s : State)
    (hv : s.val r.args.a.toNat r.args.len.toNat = P % 2 ^ (64 * r.args.len.toNat))
    (ht : r.trunc = decide (2 ^ (64 * r.args.len.toNat) ≤ P)) (hi : s.input = digitItems ds ++ tail) :
    ∃ m, parseItems r (digitItems ds ++ tail) s
        = parseItems
            { r with
              count := r.count + ds.length,
              trunc := decide (2 ^ (64 * r.args.len.toNat) ≤ ds.foldl (fun v d => 10 * v + d) P) }
            tail ((s.setBufram m).setInput tail) ∧
      ((s.setBufram m).setInput tail).val r.args.a.toNat r.args.len.toNat
        = ds.foldl (fun v d => 10 * v + d) P % 2 ^ (64 * r.args.len.toNat) ∧
      ∀ k, k < r.args.a.toNat ∨ r.args.a.toNat + r.args.len.toNat ≤ k →
        ((s.setBufram m).setInput tail).readWord k = s.readWord k := by
  induction ds generalizing r P s with
  | nil =>
    refine ⟨s.bufram, ?_, ?_, fun k _ => State.readWord_congr' rfl rfl k⟩
    · have : ((s.setBufram s.bufram).setInput tail) = s := by
        have : s.input = tail := by simpa [digitItems] using hi
        cases s; simp_all [State.setBufram, State.setInput]
      rw [this, List.foldl_nil, ← ht]
      rfl
    · rw [List.foldl_nil, ← hv]
      exact State.val_congr fun k _ _ => State.readWord_congr' rfl rfl k
  | cons d ds ih =>
    obtain ⟨q1, q2, q3, m1, q4⟩ := digitStep_spec r.args (lowWord d) (s.setInput (digitItems ds ++ tail))
    have d9 : d ≤ 9 := hd d (by simp)
    have dd : (lowWord d).toNat = d := by rw [lowWord_toNat]; exact Nat.mod_eq_of_lt (by omega)
    have same : (s.setInput (digitItems ds ++ tail)).val r.args.a.toNat r.args.len.toNat
        = s.val r.args.a.toNat r.args.len.toNat := State.val_congr fun k _ _ => State.readWord_congr' rfl rfl k
    rw [same, hv, dd] at q1 q2
    set B := 2 ^ (64 * r.args.len.toNat) with hB
    have hBpos : 0 < B := Nat.pow_pos (by omega)
    have e : parseItems r (digitItems (d :: ds) ++ tail) s
        = parseItems
            { r with
              count := r.count + 1,
              trunc := r.trunc || (digitStep r.args (lowWord d) (s.setInput (digitItems ds ++ tail))).1 }
            (digitItems ds ++ tail) (digitStep r.args (lowWord d) (s.setInput (digitItems ds ++ tail))).2 := by
      show parseItems r (.byte (BitVec.ofNat 8 (0x30 + d)) :: (digitItems ds ++ tail)) s = _
      rw [parseItems, parseMove_digit d9]
    have hmod : (10 * (P % B) + d) % B = (10 * P + d) % B := by
      rw [Nat.add_mod, Nat.mul_mod, Nat.mod_mod, ← Nat.mul_mod, ← Nat.add_mod]
    have hflag : (r.trunc || (digitStep r.args (lowWord d) (s.setInput (digitItems ds ++ tail))).1)
        = decide (B ≤ 10 * P + d) := by
      rw [Bool.eq_iff_iff, Bool.or_eq_true, q2, ht, decide_eq_true_iff, decide_eq_true_iff]
      rcases Nat.lt_or_ge P B with h | h
      · rw [Nat.mod_eq_of_lt h]; omega
      · constructor <;> intro <;> [omega; exact Or.inl h]
    rw [hmod] at q1
    rw [hflag] at e
    obtain ⟨m2, i1, i2, i3⟩ := ih (fun d' h' => hd d' (by simp [h']))
      { r with count := r.count + 1, trunc := decide (B ≤ 10 * P + d) } (10 * P + d)
      (digitStep r.args (lowWord d) (s.setInput (digitItems ds ++ tail))).2 q1 rfl (by rw [q4]; rfl)
    have eq2 : ((digitStep r.args (lowWord d) (s.setInput (digitItems ds ++ tail))).2.setBufram m2).setInput tail
        = (s.setBufram m2).setInput tail := by rw [q4]; rfl
    rw [eq2] at i1 i2 i3
    refine ⟨m2, ?_, i2, fun k hk => (i3 k hk).trans ((q3 k hk).trans (State.readWord_congr' rfl rfl k))⟩
    rw [e, i1, List.foldl_cons]
    congr 1
    simp only [List.length_cons]
    congr 1
    omega

/-! ### The diagnostic -/

theorem emitDiag_spec (bs : List Byte) (k : Nat) (s : State) :
    (emitDiag bs k s).1 = k + min bs.length s.diagReady ∧
    (emitDiag bs k s).2
      = (s.setDiag (s.diag ++ bs.take s.diagReady)).setDiagReady (s.diagReady - min bs.length s.diagReady) := by
  induction bs generalizing k s with
  | nil => simp [emitDiag, State.setDiag, State.setDiagReady]
  | cons b bs ih =>
    rw [emitDiag]
    split
    · rename_i h
      simp [h, State.setDiag, State.setDiagReady]
      cases s; simp_all
    · rename_i h
      obtain ⟨i1, i2⟩ := ih (k + 1) (s.diagWrite b)
      have r : (s.diagWrite b).diagReady = s.diagReady - 1 := rfl
      rw [r] at i1 i2
      obtain ⟨n, hn⟩ : ∃ n, s.diagReady = n + 1 := ⟨s.diagReady - 1, by omega⟩
      rw [hn] at i1 i2 ⊢
      simp only [Nat.add_sub_cancel] at i1 i2
      constructor
      · rw [i1, List.length_cons]; omega
      · rw [i2, List.take_succ_cons]
        have g : n - min bs.length n = n + 1 - min (b :: bs).length (n + 1) := by rw [List.length_cons]; omega
        rw [g]
        simp only [State.diagWrite, State.setDiag, State.setDiagReady, List.append_assoc, List.singleton_append]

theorem diagnostic_length (x : Byte) : (diagnostic x).length = 21 := rfl

/-! ### The rest of the line -/

/-- Items before the newline are discarded, the newline is taken, the block terminates (R227). -/
theorem skipLine_newline {junk : List Byte} (hj : newline ∉ junk) (r : Running) (rest : List InItem) (s : State) :
    skipLine r (junk.map .byte ++ .byte newline :: rest) s = (s.setInput rest).terminate r.args 1 := by
  induction junk generalizing s with
  | nil => simp [skipLine]
  | cons b junk ih =>
    simp only [List.mem_cons, not_or] at hj
    rw [List.map_cons, List.cons_append, skipLine, if_neg (Ne.symm hj.1), ih hj.2]
    rfl

/-- `End` ends the line as well and stays (R227, R89). -/
theorem skipLine_end {junk : List Byte} (hj : newline ∉ junk) (r : Running) (rest : List InItem) (s : State)
    (hi : s.input = junk.map .byte ++ .endItem :: rest) :
    skipLine r (junk.map .byte ++ .endItem :: rest) s = (s.setInput (.endItem :: rest)).terminate r.args 1 := by
  induction junk generalizing s with
  | nil =>
    have : s.setInput (.endItem :: rest) = s := by cases s; simp_all [State.setInput]
    simp [skipLine, this]
  | cons b junk ih =>
    simp only [List.mem_cons, not_or] at hj
    rw [List.map_cons, List.cons_append, skipLine, if_neg (Ne.symm hj.1), ih hj.2 _ rfl]
    rfl

/-- A line that no newline or `End` has ended yet is discarded as far as it goes, and PARSE is held (R227, R90). -/
theorem skipLine_held {junk : List Byte} (hj : newline ∉ junk) (r : Running) (s : State)
    (hi : s.input = junk.map .byte) :
    skipLine r (junk.map .byte) s = (s.setInput []).run (r.goto .parseSkip) := by
  induction junk generalizing s with
  | nil =>
    have : s.setInput [] = s := by cases s; simp_all [State.setInput]
    simp [skipLine, this]
  | cons b junk ih =>
    simp only [List.mem_cons, not_or] at hj
    rw [List.map_cons, skipLine, if_neg (Ne.symm hj.1), ih hj.2 _ rfl]
    rfl

end Sys2Proof.Machine
end

