-- ==== Sys2Proof/Laws/Product.lean ====
section
/-!
SUPPORT. What MUL_LONG computes: one row at a time, without an internal carry-out (42_long_arithmetic.md
R190 to R192).
-/
namespace Sys2Proof.Machine

/-! ### The scratch -/

theorem forWords_scratchZero (n i : Nat) (c : Word) (s : State) (k : Nat) :
    (forWords scratchZeroWord n i c s).2.readScr k = if i ≤ k ∧ k < i + n then 0 else s.readScr k := by
  induction n generalizing i c s with
  | zero => rw [forWords, if_neg (by omega)]
  | succ n ih =>
    rw [forWords, ih]
    simp only [scratchZeroWord, State.readScr_writeScr]
    split
    · rw [if_pos (by omega)]
    · split
      · rw [if_pos (by omega)]
      · rw [if_neg (by omega)]

theorem forWords_scratchLoad (x : Args) (n i : Nat) (c : Word) (s : State) (k : Nat) :
    (forWords (scratchLoadWord x) n i c s).2.readScr k
      = if i ≤ k ∧ k < i + n then s.readWord (x.a.toNat + k) else s.readScr k := by
  induction n generalizing i c s with
  | zero => rw [forWords, if_neg (by omega)]
  | succ n ih =>
    rw [forWords, ih]
    have e : ∀ v j, (s.writeScr i v).readWord j = s.readWord j := fun v j => State.readWord_congr' (by simp) (by simp) j
    simp only [scratchLoadWord, State.readScr_writeScr, e]
    split
    · rw [if_pos (by omega)]
    · split
      · subst_vars; rw [if_pos (by omega)]
      · rw [if_neg (by omega)]

/-- The number the scratch holds after step 3: the first factor times one word of the second, no carry
lost (R192). -/
theorem scratch_value (x : Args) (i : Nat) (s : State) :
    let L := x.len.toNat
    let s2 := (forWords (scratchLoadWord x) L 0 0 (forWords scratchZeroWord (L + 1) 0 0 s).2).2
    let m := forWords (scratchMulWord x i) (L + 1) 0 0 s2
    digitSum (fun k => (m.2.readScr k).toNat) 0 (L + 1) = s.val x.a.toNat L * (s.readWord (x.b.toNat + i)).toNat ∧
      m.1 = 0 ∧ ∃ v, m.2 = s.setScr v := by
  intro L s2 m
  have z0 : (0 : Word).toNat = 0 := rfl
  obtain ⟨v1, h1⟩ := forWords_onlyScr (body := scratchZeroWord) (fun k c s => ⟨_, rfl⟩) (L + 1) 0 0 s
  obtain ⟨v2, h2⟩ := forWords_onlyScr (body := scratchLoadWord x) (fun k c s => ⟨_, rfl⟩) L 0 0
    (forWords scratchZeroWord (L + 1) 0 0 s).2
  obtain ⟨v3, h3⟩ := forWords_onlyScr (body := scratchMulWord x i) (fun k c s => ⟨_, rfl⟩) (L + 1) 0 0 s2
  have r1 : ∀ k, (forWords scratchZeroWord (L + 1) 0 0 s).2.readWord k = s.readWord k := fun k => by
    rw [h1]; exact State.readWord_congr' rfl rfl k
  have r2 : ∀ k, s2.readWord k = s.readWord k := fun k => by
    show (forWords (scratchLoadWord x) L 0 0 _).2.readWord k = _
    rw [h2, ← r1]; exact State.readWord_congr' rfl rfl k
  have c := forWords_carry (get := State.readScr) (put := State.writeScr) (base := 0)
    (u := fun t k => (t.readScr k).toNat * (t.readWord (x.b.toNat + i)).toNat) (body := scratchMulWord x i)
    (fun s k k' v => State.readScr_writeScr s k k' v) (fun i c s => by rw [Nat.zero_add]; rfl) (L + 1) 0
    (fun s j k v h _ => by
      rw [State.readScr_writeScr, if_neg (by omega),
        State.readWord_congr' (s := s) (State.writeScr_bufram s _ v) (State.writeScr_epoch s _ v)])
    (fun s k c => word_mul_lt _ _ c) 0 s2
  have hx : digitSum (fun k => (s2.readScr k).toNat) 0 (L + 1) = s.val x.a.toNat L := by
    have e := digitSum_succ_top (fun k => (s2.readScr k).toNat) 0 L
    have z : s2.readScr L = 0 := by
      show (forWords (scratchLoadWord x) L 0 0 _).2.readScr L = 0
      rw [forWords_scratchLoad, if_neg (by omega), forWords_scratchZero, if_pos (by omega)]
    have v := s.val_eq_digitSum x.a.toNat 0 L
    rw [Nat.add_zero] at v
    rw [e, Nat.zero_add, z, z0, Nat.mul_zero, Nat.add_zero, v]
    apply digitSum_congr
    intro k _ hk
    show ((forWords (scratchLoadWord x) L 0 0 _).2.readScr k).toNat = _
    rw [forWords_scratchLoad, if_pos (by omega), r1]
  simp only [Nat.zero_add, digitSum_mul, r2, hx, z0, Nat.add_zero] at c
  have bound : s.val x.a.toNat L * (s.readWord (x.b.toNat + i)).toNat < 2 ^ (64 * (L + 1)) := by
    have e : 2 ^ (64 * (L + 1)) = 2 ^ (64 * L) * 2 ^ 64 := by rw [← pow_add]; congr 1
    rw [e]
    exact Nat.mul_lt_mul'' (s.val_lt _ _) (s.readWord _).isLt
  have m0 : m.1.toNat = 0 := by
    by_contra h
    have : 2 ^ (64 * (L + 1)) * 1 ≤ 2 ^ (64 * (L + 1)) * m.1.toNat := Nat.mul_le_mul_left _ (by omega)
    have := c.1
    change _ + 2 ^ (64 * (L + 1)) * m.1.toNat = _ at this
    omega
  refine ⟨?_, BitVec.eq_of_toNat_eq (by simpa using m0), ?_⟩
  · have := c.1
    change _ + 2 ^ (64 * (L + 1)) * m.1.toNat = _ at this
    rwa [m0, Nat.mul_zero, Nat.add_zero] at this
  · refine ⟨v3, ?_⟩
    show (forWords (scratchMulWord x i) (L + 1) 0 0 s2).2 = _
    rw [h3]
    show (forWords (scratchLoadWord x) L 0 0 _).2.setScr v3 = _
    rw [h2, h1]
    rfl

/-! ### The rows -/

/-- One row: the product gains the first factor times one word of the second, no carry lost (R192). -/
theorem mulRow_spec {x : Args} {i : Nat} (hi : i < x.len.toNat) (t : Bool) {s : State}
    (hs : s.val x.p.toNat (2 * x.len.toNat) = s.val x.a.toNat x.len.toNat * s.val x.b.toNat i) :
    (mulRow x i t s).1 = t ∧
    (mulRow x i t s).2.val x.p.toNat (2 * x.len.toNat)
      = s.val x.a.toNat x.len.toNat * s.val x.b.toNat (i + 1) ∧
    (∀ k, k < x.p.toNat ∨ x.p.toNat + 2 * x.len.toNat ≤ k → (mulRow x i t s).2.readWord k = s.readWord k) ∧
    ∃ m v, (mulRow x i t s).2 = (s.setBufram m).setScr v := by
  have hv := scratch_value x i s
  simp only [mulRow]
  simp only at hv
  set L := x.len.toNat with hL
  set m := forWords (scratchMulWord x i) (L + 1) 0 0
    (forWords (scratchLoadWord x) L 0 0 (forWords scratchZeroWord (L + 1) 0 0 s).2).2 with hm
  obtain ⟨sv, m0, v, hmv⟩ := hv
  have rw_m : ∀ k, m.2.readWord k = s.readWord k := fun k => by rw [hmv]; exact State.readWord_congr' rfl rfl k
  have val_m : ∀ a n, m.2.val a n = s.val a n := fun a n => State.val_congr fun k _ _ => rw_m k
  obtain ⟨w, hw⟩ := forWords_onlyRam (body := productAddWord x i) (fun k c s => ⟨_, rfl⟩) (L + 1) 0 0 m.2
  have c := forWords_carry (get := State.readWord) (put := State.writeWord) (base := x.p.toNat + i)
    (u := fun t k => (t.readWord (x.p.toNat + i + k)).toNat + (t.readScr k).toNat) (body := productAddWord x i)
    (fun s k k' v => State.readWord_writeWord s k k' v) (fun i c s => rfl) (L + 1) 0
    (fun s j k v h _ => by
      rw [State.readWord_writeWord_ne _ (by omega)]
      congr 1)
    (fun s k c => word_add_lt _ _ c) 0 m.2
  set p := forWords (productAddWord x i) (L + 1) 0 0 m.2 with hp
  obtain ⟨c1, c2⟩ := c
  have e1 := p.2.val_eq_digitSum (x.p.toNat + i) 0 (L + 1)
  have e2 := m.2.val_eq_digitSum (x.p.toNat + i) 0 (L + 1)
  rw [Nat.add_zero] at e1 e2
  rw [digitSum_add, ← e1, ← e2, sv, val_m] at c1
  simp only [Nat.add_zero, show (0 : Word).toNat = 0 from rfl] at c1 c2
  -- the three parts of the product buffer
  have cut : ∀ u : State, u.val x.p.toNat (2 * L) = u.val x.p.toNat i
      + 2 ^ (64 * i) * (u.val (x.p.toNat + i) (L + 1)
        + 2 ^ (64 * (L + 1)) * u.val (x.p.toNat + i + (L + 1)) (L - i - 1)) := fun u => by
    rw [← State.val_add, ← State.val_add]; congr 1; omega
  have same : ∀ k, k < x.p.toNat + i ∨ x.p.toNat + i + (L + 1) ≤ k → p.2.readWord k = s.readWord k := fun k hk => by
    rw [← rw_m k]; exact c2 k (by omega)
  have low : p.2.val x.p.toNat i = s.val x.p.toNat i := State.val_congr fun k _ h => same k (by omega)
  have high : p.2.val (x.p.toNat + i + (L + 1)) (L - i - 1) = s.val (x.p.toNat + i + (L + 1)) (L - i - 1) :=
    State.val_congr fun k h _ => same k (by omega)
  set X := s.val x.a.toNat L
  set y := (s.readWord (x.b.toNat + i)).toNat
  have total : p.2.val x.p.toNat (2 * L) + 2 ^ (64 * (L + (i + 1))) * p.1.toNat = X * s.val x.b.toNat (i + 1) := by
    have q : 2 ^ (64 * (L + (i + 1))) = 2 ^ (64 * i) * 2 ^ (64 * (L + 1)) := by rw [← pow_add]; congr 1; omega
    have hs' := hs
    rw [cut s] at hs'
    rw [cut p.2, low, high, q, s.val_succ_top x.b.toNat i]
    calc s.val x.p.toNat i + 2 ^ (64 * i) * (p.2.val (x.p.toNat + i) (L + 1)
            + 2 ^ (64 * (L + 1)) * s.val (x.p.toNat + i + (L + 1)) (L - i - 1))
          + 2 ^ (64 * i) * 2 ^ (64 * (L + 1)) * p.1.toNat
        = s.val x.p.toNat i + 2 ^ (64 * i) * (2 ^ (64 * (L + 1)) * s.val (x.p.toNat + i + (L + 1)) (L - i - 1))
          + 2 ^ (64 * i) * (p.2.val (x.p.toNat + i) (L + 1) + 2 ^ (64 * (L + 1)) * p.1.toNat) := by ring
      _ = s.val x.p.toNat i + 2 ^ (64 * i) * (s.val (x.p.toNat + i) (L + 1)
          + 2 ^ (64 * (L + 1)) * s.val (x.p.toNat + i + (L + 1)) (L - i - 1)) + 2 ^ (64 * i) * (X * y) := by
        rw [c1]; ring
      _ = X * (s.val x.b.toNat i + 2 ^ (64 * i) * y) := by rw [hs']; ring
  have bound : X * s.val x.b.toNat (i + 1) < 2 ^ (64 * (L + (i + 1))) := by
    have e : 2 ^ (64 * (L + (i + 1))) = 2 ^ (64 * L) * 2 ^ (64 * (i + 1)) := by rw [← pow_add]; congr 1; omega
    rw [e]
    exact Nat.mul_lt_mul'' (s.val_lt _ _) (s.val_lt _ _)
  have p0 : p.1.toNat = 0 := by
    by_contra h
    have : 2 ^ (64 * (L + (i + 1))) * 1 ≤ 2 ^ (64 * (L + (i + 1))) * p.1.toNat := Nat.mul_le_mul_left _ (by omega)
    omega
  have p0' : p.1 = 0 := BitVec.eq_of_toNat_eq (by simpa using p0)
  refine ⟨?_, ?_, fun k hk => same k (by omega), w, v, ?_⟩
  · simp [m0, p0', carryLost]
  · rw [p0] at total
    simpa using total
  · rw [hw, hmv]; rfl

/-- All rows from `i` on (R191). -/
theorem mulRows_spec {x : Args} (ha : (Args.rangeP x).overlaps (Args.rangeA x) = false)
    (hb : (Args.rangeP x).overlaps (Args.rangeB x) = false) {n i : Nat} (hi : i + n = x.len.toNat) (t : Bool) {s : State}
    (hs : s.val x.p.toNat (2 * x.len.toNat) = s.val x.a.toNat x.len.toNat * s.val x.b.toNat i) :
    (mulRows x n i t s).1 = t ∧
    (mulRows x n i t s).2.val x.p.toNat (2 * x.len.toNat)
      = s.val x.a.toNat x.len.toNat * s.val x.b.toNat x.len.toNat ∧
    (∀ k, k < x.p.toNat ∨ x.p.toNat + 2 * x.len.toNat ≤ k → (mulRows x n i t s).2.readWord k = s.readWord k) ∧
    ∃ m v, (mulRows x n i t s).2 = (s.setBufram m).setScr v := by
  induction n generalizing i t s with
  | zero =>
    have : i = x.len.toNat := by omega
    subst this
    exact ⟨rfl, hs, fun _ _ => rfl, s.bufram, s.scr, rfl⟩
  | succ n ih =>
    obtain ⟨r1, r2, r3, m, v, r4⟩ := mulRow_spec (by omega : i < x.len.toNat) t hs
    have da : ∀ k, x.a.toNat ≤ k → k < x.a.toNat + x.len.toNat → (mulRow x i t s).2.readWord k = s.readWord k := by
      simp only [Range.overlaps_eq_false_iff, Args.rangeA, Args.rangeP] at ha
      exact fun k _ _ => r3 k (by omega)
    have db : ∀ k, x.b.toNat ≤ k → k < x.b.toNat + x.len.toNat → (mulRow x i t s).2.readWord k = s.readWord k := by
      simp only [Range.overlaps_eq_false_iff, Args.rangeB, Args.rangeP] at hb
      exact fun k _ _ => r3 k (by omega)
    have va : (mulRow x i t s).2.val x.a.toNat x.len.toNat = s.val x.a.toNat x.len.toNat := State.val_congr da
    have vb : ∀ j, j ≤ x.len.toNat → (mulRow x i t s).2.val x.b.toNat j = s.val x.b.toNat j :=
      fun j hj => State.val_congr fun k h1 h2 => db k h1 (by omega)
    obtain ⟨q1, q2, q3, m', v', q4⟩ := ih (i := i + 1) (by omega) (mulRow x i t s).1
      (s := (mulRow x i t s).2) (by rw [r2, va, vb _ (by omega)])
    rw [mulRows]
    refine ⟨q1.trans r1, by rw [q2, va, vb _ le_rfl], fun k hk => (q3 k hk).trans (r3 k hk), m', v', ?_⟩
    rw [q4, r4]
    rfl

end Sys2Proof.Machine
end

