-- ==== Sys2Proof/Laws/Effects.lean ====
section
/-!
SUPPORT. Everything a running command can do to the state, command by command: which fields it changes, that
it leaves every byte outside its range alone (20_memory.md R71), and that it keeps the canonical form of the
memories. The provers cite these lemmas and need not unfold a command.
-/
namespace Sys2Proof.Machine

/-- `t` is `s` but for words `base` to `base + n - 1` of `BUFRAM`, in canonical form if `s` is. -/
def OnlyWords (base n : Nat) (s t : State) : Prop :=
  (∃ m, t = s.setBufram m) ∧
  (∀ a, a < 8 * base ∨ 8 * base + 8 * n ≤ a → t.readByte a = s.readByte a) ∧
  (base + n ≤ s.params.bufWords → Memory.wf s.params s.bufram = true → Memory.wf t.params t.bufram = true)

theorem OnlyWords.refl (base n : Nat) (s : State) : OnlyWords base n s s :=
  ⟨⟨s.bufram, rfl⟩, fun _ _ => rfl, fun _ h => h⟩

theorem OnlyWords.trans {base n : Nat} {s t u : State} (h1 : OnlyWords base n s t) (h2 : OnlyWords base n t u) :
    OnlyWords base n s u := by
  obtain ⟨⟨m, rfl⟩, a1, w1⟩ := h1
  obtain ⟨⟨m', rfl⟩, a2, w2⟩ := h2
  exact ⟨⟨m', rfl⟩, fun a ha => (a2 a ha).trans (a1 a ha), fun hb hw => w2 hb (w1 hb hw)⟩

theorem OnlyWords.writeWord {base n k : Nat} (h1 : base ≤ k) (h2 : k < base + n) (v : Word) (s : State) :
    OnlyWords base n s (s.writeWord k v) := by
  refine ⟨⟨_, State.writeWord_eq s k v⟩, fun a ha => ?_, fun hb hw => ?_⟩
  · rw [State.readByte_writeWord, if_neg (by omega)]
  · rw [State.writeWord_params]
    exact State.writeWord_wf v (by omega) hw

/-- A loop whose steps stay in a range stays in it. -/
theorem OnlyWords.loop {base n : Nat} {body : WordBody} {m i : Nat}
    (h : ∀ k c s, i ≤ k → k < i + m → OnlyWords base n s (body k c s).2) (c : Word) (s : State) :
    OnlyWords base n s (forWords body m i c s).2 :=
  forWords_rel (R := OnlyWords base n) (OnlyWords.refl base n) (fun _ _ _ => OnlyWords.trans) h c s

/-! ### The word steps -/

theorem zeroWord_effect {base n k : Nat} (h : k < n) (c : Word) (s : State) :
    OnlyWords base n s (zeroWord base k c s).2 := OnlyWords.writeWord (by omega) (by omega) _ _

theorem copyArgsWord_effect {x : Args} {k : Nat} (h : k < x.len.toNat) (c : Word) (s : State) :
    OnlyWords x.a.toNat x.len.toNat s (copyArgsWord x k c s).2 := OnlyWords.writeWord (by omega) (by omega) _ _

theorem testWord_effect (base : Nat) {n k : Nat} (c : Word) (s : State) : OnlyWords base n s (testWord base k c s).2 :=
  OnlyWords.refl _ _ _

theorem addWord_effect {base n k : Nat} (h : k < n) (c : Word) (s : State) :
    OnlyWords base n s (addWord base k c s).2 := OnlyWords.writeWord (by omega) (by omega) _ _

theorem mulWord_effect {base n k : Nat} {w : Word} (h : k < n) (c : Word) (s : State) :
    OnlyWords base n s (mulWord base w k c s).2 := OnlyWords.writeWord (by omega) (by omega) _ _

theorem divWord_effect {base n k : Nat} {w : Word} (h : k < n) (c : Word) (s : State) :
    OnlyWords base n s (divWord base n w k c s).2 :=
  OnlyWords.writeWord (k := base + (n - 1 - k)) (by omega) (by omega) _ _

theorem addLongWord_effect {x : Args} {k : Nat} (h : k < x.len.toNat) (c : Word) (s : State) :
    OnlyWords x.a.toNat x.len.toNat s (addLongWord x k c s).2 := OnlyWords.writeWord (by omega) (by omega) _ _

theorem productAddWord_effect {x : Args} {i k : Nat} (hi : i < x.len.toNat) (h : k < x.len.toNat + 1) (c : Word)
    (s : State) : OnlyWords x.p.toNat (2 * x.len.toNat) s (productAddWord x i k c s).2 :=
  OnlyWords.writeWord (k := x.p.toNat + i + k) (by omega) (by omega) _ _

/-! ### The commands that are one loop -/

/-- A command that is one loop ends in its completion, after changing words of its range only. -/
theorem oneLoop_effect {base n : Nat} {word : Args → WordBody} {done : Word → State → State} {r : Running}
    (h : ∀ k c s, k < r.args.len.toNat → OnlyWords base n s (word r.args k c s).2) (s : State) :
    ∃ c t, OnlyWords base n s t ∧ oneLoop word done r s = done c t :=
  ⟨_, _, OnlyWords.loop (fun k c s _ hk => h k c s (by omega)) _ _, rfl⟩

/-! ### MUL_LONG -/

/-- `t` is `s` but for the product range of MUL_LONG and `SCR`. -/
def OnlyProduct (x : Args) (s t : State) : Prop :=
  (∃ m v, t = (s.setBufram m).setScr v) ∧
  (∀ a, a < 8 * x.p.toNat ∨ 8 * x.p.toNat + 8 * (2 * x.len.toNat) ≤ a → t.readByte a = s.readByte a) ∧
  (x.p.toNat + 2 * x.len.toNat ≤ s.params.bufWords → Memory.wf s.params s.bufram = true →
    Memory.wf t.params t.bufram = true) ∧
  (x.len.toNat ≤ s.params.n → cellsWf 0 (s.params.n + 1) s.scr = true → cellsWf 0 (t.params.n + 1) t.scr = true)

theorem OnlyProduct.refl (x : Args) (s : State) : OnlyProduct x s s :=
  ⟨⟨s.bufram, s.scr, rfl⟩, fun _ _ => rfl, fun _ h => h, fun _ h => h⟩

theorem OnlyProduct.trans {x : Args} {s t u : State} (h1 : OnlyProduct x s t) (h2 : OnlyProduct x t u) :
    OnlyProduct x s u := by
  obtain ⟨⟨m, v, rfl⟩, a1, w1, c1⟩ := h1
  obtain ⟨⟨m', v', rfl⟩, a2, w2, c2⟩ := h2
  exact ⟨⟨m', v', rfl⟩, fun a ha => (a2 a ha).trans (a1 a ha), fun hb hw => w2 hb (w1 hb hw),
    fun hb hw => c2 hb (c1 hb hw)⟩

theorem OnlyWords.product {x : Args} {s t : State} (h : OnlyWords x.p.toNat (2 * x.len.toNat) s t) :
    OnlyProduct x s t := by
  obtain ⟨⟨m, rfl⟩, a, w⟩ := h
  exact ⟨⟨m, s.scr, rfl⟩, a, w, fun _ h => h⟩

theorem OnlyProduct.writeScr {x : Args} {k : Nat} (h : k < x.len.toNat + 1) (v : Word) (s : State) :
    OnlyProduct x s (s.writeScr k v) :=
  ⟨⟨s.bufram, _, rfl⟩, fun _ _ => rfl, fun _ h => h, fun hn hw => cellsWf_cellPut (by omega) (by show k < s.params.n + 1; omega) v hw⟩

theorem OnlyProduct.loop {x : Args} {body : WordBody} {m i : Nat}
    (h : ∀ k c s, i ≤ k → k < i + m → OnlyProduct x s (body k c s).2) (c : Word) (s : State) :
    OnlyProduct x s (forWords body m i c s).2 :=
  forWords_rel (R := OnlyProduct x) (OnlyProduct.refl x) (fun _ _ _ => OnlyProduct.trans) h c s

theorem mulRow_effect {x : Args} {i : Nat} (hi : i < x.len.toNat) (t : Bool) (s : State) :
    OnlyProduct x s (mulRow x i t s).2 := by
  refine OnlyProduct.trans ?_ (OnlyProduct.loop (fun k c s _ hk => (productAddWord_effect hi (by omega) c s).product) 0 _)
  refine OnlyProduct.trans ?_ (OnlyProduct.loop (fun k c s _ hk => OnlyProduct.writeScr (by omega) _ s) 0 _)
  refine OnlyProduct.trans ?_ (OnlyProduct.loop (fun k c s _ hk => OnlyProduct.writeScr (by omega) _ s) 0 _)
  exact OnlyProduct.loop (fun k c s _ hk => OnlyProduct.writeScr (by omega) _ s) 0 _

theorem mulRows_effect {x : Args} {n i : Nat} (hi : i + n = x.len.toNat) (t : Bool) (s : State) :
    OnlyProduct x s (mulRows x n i t s).2 := by
  induction n generalizing i t s with
  | zero => exact OnlyProduct.refl x s
  | succ n ih =>
    rw [mulRows]
    exact (mulRow_effect (by omega) t s).trans (ih (by omega) _ _)

theorem mulLongRun_effect (r : Running) (s : State) :
    ∃ c t, OnlyProduct r.args s t ∧ mulLongRun r s = mulLongDone c t :=
  ⟨_, _, (OnlyWords.loop (fun k c s _ hk => zeroWord_effect (by omega) c s) 0 s).product.trans
    (mulRows_effect (by omega) false _), rfl⟩

/-! ### PARSE -/

/-- `t` is `s` but for PARSE's destination, items taken off `IN`, and bytes put on `DIAG` (R229, R231). -/
def OnlyParsed (x : Args) (s t : State) : Prop :=
  (∃ m i d k, t = (((s.setBufram m).setInput i).setDiag d).setDiagReady k) ∧
  (∀ a, a < 8 * x.a.toNat ∨ 8 * x.a.toNat + 8 * x.len.toNat ≤ a → t.readByte a = s.readByte a) ∧
  (x.a.toNat + x.len.toNat ≤ s.params.bufWords → Memory.wf s.params s.bufram = true →
    Memory.wf t.params t.bufram = true) ∧
  (∃ taken, s.input = taken ++ t.input) ∧ ∃ l, t.diag = s.diag ++ l ∧ t.diagReady + l.length = s.diagReady

theorem OnlyParsed.refl (x : Args) (s : State) : OnlyParsed x s s :=
  ⟨⟨s.bufram, s.input, s.diag, s.diagReady, rfl⟩, fun _ _ => rfl, fun _ h => h, ⟨[], rfl⟩, [], by simp, by simp⟩

theorem OnlyParsed.trans {x : Args} {s t u : State} (h1 : OnlyParsed x s t) (h2 : OnlyParsed x t u) :
    OnlyParsed x s u := by
  obtain ⟨⟨m, i, d, k, rfl⟩, a1, w1, ⟨c1, e1⟩, l1, f1, g1⟩ := h1
  obtain ⟨⟨m', i', d', k', rfl⟩, a2, w2, ⟨c2, e2⟩, l2, f2, g2⟩ := h2
  refine ⟨⟨m', i', d', k', rfl⟩, fun a ha => (a2 a ha).trans (a1 a ha), fun hb hw => w2 hb (w1 hb hw),
    ⟨c1 ++ c2, by rw [e1, e2, List.append_assoc]⟩, l1 ++ l2, by rw [f2, f1, List.append_assoc], ?_⟩
  rw [List.length_append]
  omega

theorem OnlyWords.parsed {x : Args} {s t : State} (h : OnlyWords x.a.toNat x.len.toNat s t) : OnlyParsed x s t := by
  obtain ⟨⟨m, rfl⟩, a, w⟩ := h
  exact ⟨⟨m, s.input, s.diag, s.diagReady, rfl⟩, a, w, ⟨[], rfl⟩, [], by simp, by simp⟩

theorem OnlyParsed.setInput (x : Args) {s : State} {taken rest : List InItem} (h : s.input = taken ++ rest) :
    OnlyParsed x s (s.setInput rest) :=
  ⟨⟨s.bufram, rest, s.diag, s.diagReady, rfl⟩, fun _ _ => rfl, fun _ h => h, ⟨taken, h⟩, [], by simp, by simp⟩

theorem OnlyParsed.diagWrite (x : Args) {s : State} (h : s.diagReady ≠ 0) (b : Byte) :
    OnlyParsed x s (s.diagWrite b) :=
  ⟨⟨s.bufram, s.input, _, _, rfl⟩, fun _ _ => rfl, fun _ h => h, ⟨[], rfl⟩, [b], rfl,
    Nat.sub_add_cancel (Nat.pos_of_ne_zero h)⟩

theorem emitDiag_effect (x : Args) (bs : List Byte) (k : Nat) (s : State) : OnlyParsed x s (emitDiag bs k s).2 := by
  induction bs generalizing k s with
  | nil => exact OnlyParsed.refl x s
  | cons b bs ih =>
    rw [emitDiag]
    split
    · exact OnlyParsed.refl x s
    · exact (OnlyParsed.diagWrite x (by assumption) b).trans (ih _ _)

theorem digitStep_effect (x : Args) (d : Word) (s : State) : OnlyWords x.a.toNat x.len.toNat s (digitStep x d s).2 :=
  (OnlyWords.loop (fun k c s _ hk => mulWord_effect (by omega) c s) 0 s).trans
    (OnlyWords.loop (fun k c s _ hk => addWord_effect (by omega) c s) d _)

/-- How PARSE leaves the sequencer: held, complete, or terminated (R123, R340, R353). -/
def ParseEnds (r : Running) (t u : State) : Prop :=
  (∃ r' : Running, r'.op = r.op ∧ r'.args = r.args ∧ r'.phase.ofParse = true ∧ r'.held t = true ∧
    u = t.run r') ∨
  (∃ n f, u = parseDone n f t) ∨ ∃ code, (code = 1 ∨ code = 2) ∧ u = t.terminate r.args code

theorem skipLine_effect (r : Running) (items : List InItem) (s : State) (h : s.input = items) :
    ∃ t, OnlyParsed r.args s t ∧ ParseEnds r t (skipLine r items s) := by
  induction items generalizing s with
  | nil => exact ⟨s, OnlyParsed.refl _ _, .inl ⟨r.goto .parseSkip, rfl, rfl, rfl, List.isEmpty_iff.2 h, rfl⟩⟩
  | cons it rest ih =>
    cases it with
    | endItem => exact ⟨s, OnlyParsed.refl _ _, .inr (.inr ⟨1, .inl rfl, rfl⟩)⟩
    | byte b =>
      have hs : OnlyParsed r.args s (s.setInput rest) := OnlyParsed.setInput _ (taken := [.byte b]) h
      rw [skipLine]
      split
      · exact ⟨_, hs, .inr (.inr ⟨1, .inl rfl, rfl⟩)⟩
      · obtain ⟨t, h1, h2⟩ := ih (s.setInput rest) rfl
        exact ⟨t, hs.trans h1, h2⟩

/-- A diagnostic that is not all emitted has used up what the host accepts (R91). -/
theorem emitDiag_held {bs : List Byte} {k : Nat} {s : State} (h : (emitDiag bs k s).1 < k + bs.length) :
    (emitDiag bs k s).2.diagReady = 0 := by
  obtain ⟨h1, h2⟩ := emitDiag_spec bs k s
  rw [h2]
  show s.diagReady - min bs.length s.diagReady = 0
  omega

theorem diagnose_effect (r : Running) (x : Byte) (s : State) :
    ∃ t, OnlyParsed r.args s t ∧ ParseEnds r t (diagnose r x s) := by
  have h1 := emitDiag_effect r.args (diagnostic x) 0 s
  rw [diagnose]
  dsimp only
  split
  · rename_i hlt
    refine ⟨_, h1, .inl ⟨{ r.goto (.parseDiag x) with idx := (emitDiag (diagnostic x) 0 s).1 }, rfl, rfl, rfl, ?_, rfl⟩⟩
    have hz := emitDiag_held (by rwa [Nat.zero_add])
    simp [Running.held, Running.goto, hlt, hz]
  · obtain ⟨t, h2, h3⟩ := skipLine_effect r _ (emitDiag (diagnostic x) 0 s).2 rfl
    exact ⟨t, h1.trans h2, h3⟩

theorem parseItems_effect (r : Running) (items : List InItem) (s : State) (h : s.input = items) :
    ∃ t, OnlyParsed r.args s t ∧ ParseEnds r t (parseItems r items s) := by
  induction items generalizing r s with
  | nil => exact ⟨s, OnlyParsed.refl _ _, .inl ⟨r.goto .parseRead, rfl, rfl, rfl, List.isEmpty_iff.2 h, rfl⟩⟩
  | cons it rest ih =>
    have hs : OnlyParsed r.args s (s.setInput rest) := OnlyParsed.setInput _ (taken := [it]) h
    rw [parseItems]
    split
    · exact ⟨s, OnlyParsed.refl _ _, .inr (.inr ⟨2, .inr rfl, rfl⟩)⟩
    · refine ⟨_, ?_, .inr (.inl ⟨_, _, rfl⟩)⟩
      cases it with
      | endItem => exact OnlyParsed.setInput _ (taken := []) h
      | byte b => exact hs
    · rename_i d _
      have hd := digitStep_effect r.args d (s.setInput rest)
      have hi : (digitStep r.args d (s.setInput rest)).2.input = rest := by
        obtain ⟨⟨m, e⟩, _⟩ := hd
        rw [e]; rfl
      obtain ⟨t, h1, h2⟩ := ih { r with count := r.count + 1, trunc := r.trunc || (digitStep r.args d (s.setInput rest)).1 }
        (digitStep r.args d (s.setInput rest)).2 hi
      exact ⟨t, hs.trans (hd.parsed.trans h1), h2⟩
    · rename_i x _
      obtain ⟨t, h1, h2⟩ := diagnose_effect r x (s.setInput rest)
      exact ⟨t, hs.trans h1, h2⟩

theorem parseRun_effect (r : Running) (s : State) : ∃ t, OnlyParsed r.args s t ∧ ParseEnds r t (parseRun r s) := by
  have h0 : OnlyWords r.args.a.toNat r.args.len.toNat s (forWords (parseClearWord r.args) r.args.len.toNat 0 0 s).2 :=
    OnlyWords.loop (fun k c s _ hk => zeroWord_effect (by omega) c s) 0 s
  obtain ⟨t, h1, h2⟩ := parseItems_effect r _ (forWords (parseClearWord r.args) r.args.len.toNat 0 0 s).2 rfl
  exact ⟨t, h0.parsed.trans h1, h2⟩

/-! ### FORMAT -/

/-- `t` is `s` but for FORMAT's buffer, `FMT_BUF`, and bytes put on `OUT` (R240, R245). -/
def OnlyFormatted (x : Args) (s t : State) : Prop :=
  (∃ m f o k, t = (((s.setBufram m).setFmtBuf f).setOutput o).setOutReady k) ∧
  (∀ a, a < 8 * x.a.toNat ∨ 8 * x.a.toNat + 8 * x.len.toNat ≤ a → t.readByte a = s.readByte a) ∧
  (x.a.toNat + x.len.toNat ≤ s.params.bufWords → Memory.wf s.params s.bufram = true →
    Memory.wf t.params t.bufram = true) ∧
  (cellsWf 0 (digcap s.params) s.fmtBuf = true → cellsWf 0 (digcap t.params) t.fmtBuf = true) ∧
  ∃ l, t.output = s.output ++ l ∧ t.outReady + l.length = s.outReady

theorem OnlyFormatted.refl (x : Args) (s : State) : OnlyFormatted x s s :=
  ⟨⟨s.bufram, s.fmtBuf, s.output, s.outReady, rfl⟩, fun _ _ => rfl, fun _ h => h, id, [], by simp, by simp⟩

theorem OnlyFormatted.trans {x : Args} {s t u : State} (h1 : OnlyFormatted x s t) (h2 : OnlyFormatted x t u) :
    OnlyFormatted x s u := by
  obtain ⟨⟨m, i, d, k, rfl⟩, a1, w1, v1, l1, f1, g1⟩ := h1
  obtain ⟨⟨m', i', d', k', rfl⟩, a2, w2, v2, l2, f2, g2⟩ := h2
  refine ⟨⟨m', i', d', k', rfl⟩, fun a ha => (a2 a ha).trans (a1 a ha), fun hb hw => w2 hb (w1 hb hw),
    fun h => v2 (v1 h), l1 ++ l2, by rw [f2, f1, List.append_assoc], ?_⟩
  rw [List.length_append]
  omega

theorem OnlyWords.formatted {x : Args} {s t : State} (h : OnlyWords x.a.toNat x.len.toNat s t) :
    OnlyFormatted x s t := by
  obtain ⟨⟨m, rfl⟩, a, w⟩ := h
  exact ⟨⟨m, s.fmtBuf, s.output, s.outReady, rfl⟩, a, w, id, [], by simp, by simp⟩

/-- A digit lands in `FMT_BUF`, whatever its place from the end. -/
theorem placeDigit_effect (x : Args) {n : Nat} (hn : 0 < n) (r : Word) (s : State) :
    OnlyFormatted x s (placeDigit n r s) := by
  have hd := digcap_pos s.params
  refine ⟨⟨s.bufram, (placeDigit n r s).fmtBuf, s.output, s.outReady, rfl⟩, fun _ _ => rfl, fun _ h => h, fun h => ?_,
    [], (List.append_nil _).symm, rfl⟩
  exact cellsWf_cellPut (hi := digcap s.params) (Nat.zero_le _) (by omega) _ h

theorem OnlyFormatted.outWrite (x : Args) {s : State} (h : s.outReady ≠ 0) (b : Byte) :
    OnlyFormatted x s (s.outWrite b) :=
  ⟨⟨s.bufram, s.fmtBuf, _, _, rfl⟩, fun _ _ => rfl, fun _ h => h, id, [b], rfl,
    Nat.sub_add_cancel (Nat.pos_of_ne_zero h)⟩

theorem formatDigits_effect (x : Args) (fuel n : Nat) (s : State) : OnlyFormatted x s (formatDigits x fuel n s).2 := by
  induction fuel generalizing n s with
  | zero => exact OnlyFormatted.refl x s
  | succ fuel ih =>
    have h1 : OnlyWords x.a.toNat x.len.toNat s (forWords (formatDivWord x) x.len.toNat 0 0 s).2 :=
      OnlyWords.loop (fun k c s _ hk => divWord_effect (by omega) c s) 0 s
    have h2 := placeDigit_effect x (Nat.succ_pos n) (forWords (formatDivWord x) x.len.toNat 0 0 s).1
      (forWords (formatDivWord x) x.len.toNat 0 0 s).2
    have h3 : ∀ t : State, OnlyFormatted x t (forWords (formatTestWord x) x.len.toNat 0 1 t).2 := fun t =>
      (OnlyWords.loop (fun k c s _ _ => testWord_effect _ c s) 1 t).formatted
    rw [formatDigits]
    split
    · exact (h1.formatted.trans (h2.trans (h3 _))).trans (ih _ _)
    · exact h1.formatted.trans (h2.trans (h3 _))

theorem emitDigits_effect (x : Args) (n m k : Nat) (s : State) : OnlyFormatted x s (emitDigits n m k s).2 := by
  induction m generalizing k s with
  | zero => exact OnlyFormatted.refl x s
  | succ m ih =>
    rw [emitDigits]
    split
    · exact OnlyFormatted.refl x s
    · exact (OnlyFormatted.outWrite x (by assumption) _).trans (ih _ _)

/-- Digits that are not all emitted have used up what the host accepts (R91). -/
theorem emitDigits_held {n m k : Nat} {s : State} (h : (emitDigits n m k s).1 < k + m) :
    (emitDigits n m k s).2.outReady = 0 := by
  obtain ⟨h1, h2⟩ := emitDigits_spec n m k s
  rw [h2]
  show s.outReady - min m s.outReady = 0
  omega

/-- How FORMAT leaves the sequencer: held, or complete (R123, R353). -/
def FormatEnds (r : Running) (t u : State) : Prop :=
  (∃ r' : Running, r'.op = r.op ∧ r'.args = r.args ∧ (r'.phase = .fmtEmit ∨ r'.phase = .fmtNewline ∧ r.op.nlBit = true) ∧
    r'.held t = true ∧ u = t.run r') ∨
  ∃ n, u = formatDone n t

theorem formatRun_effect (r : Running) (s : State) : ∃ t, OnlyFormatted r.args s t ∧ FormatEnds r t (formatRun r s) := by
  have h1 := formatDigits_effect r.args (64 * r.args.len.toNat + 1) 0 s
  have h2 := h1.trans (emitDigits_effect r.args (formatDigits r.args (64 * r.args.len.toNat + 1) 0 s).1
    (formatDigits r.args (64 * r.args.len.toNat + 1) 0 s).1 0 (formatDigits r.args (64 * r.args.len.toNat + 1) 0 s).2)
  have h3 := fun h => emitDigits_held (n := (formatDigits r.args (64 * r.args.len.toNat + 1) 0 s).1)
    (m := (formatDigits r.args (64 * r.args.len.toNat + 1) 0 s).1) (k := 0)
    (s := (formatDigits r.args (64 * r.args.len.toNat + 1) 0 s).2) h
  rw [formatRun]
  dsimp only
  generalize formatDigits r.args (64 * r.args.len.toNat + 1) 0 s = q at h2 h3
  generalize emitDigits q.1 q.1 0 q.2 = p at h2 h3
  split
  · rename_i hlt
    have hz := h3 (by rwa [Nat.zero_add])
    exact ⟨_, h2, .inl ⟨{ { r with count := q.1 }.goto .fmtEmit with idx := p.1 }, rfl, rfl, .inl rfl,
      by simp [Running.held, Running.goto, hlt, hz], rfl⟩⟩
  · rw [formatTail]
    split
    · rename_i hn
      split
      · rename_i hz
        exact ⟨_, h2, .inl ⟨{ r with count := q.1 }.goto .fmtNewline, rfl, rfl, .inr ⟨rfl, hn⟩,
          by simp [Running.held, Running.goto, hz], rfl⟩⟩
      · exact ⟨_, h2.trans (OnlyFormatted.outWrite _ (by assumption) newline), .inr ⟨_, rfl⟩⟩
    · exact ⟨_, h2, .inr ⟨_, rfl⟩⟩

end Sys2Proof.Machine
end

