-- ==== Sys2Proof/Laws/Steps.lean ====
section
/-!
SUPPORT. The three inversions a whole-machine proof rests on: what a command does (exec), what a turn of the
sequencer does, and what a step does.
-/
namespace Sys2Proof.Machine

/-- `t` is `s` but for the memories and streams a running command works on; in canonical form if `s` is. -/
def OnlyRun (i : Instr) (x : Args) (s t : State) : Prop :=
  (∃ m v f inp o k d j, t
    = { s with
        bufram := m, scr := v, fmtBuf := f, input := inp, output := o, outReady := k, diag := d, diagReady := j }) ∧
  (check i x s.params = none → Memory.wf s.params s.bufram = true → Memory.wf t.params t.bufram = true) ∧
  (check i x s.params = none → cellsWf 0 (s.params.n + 1) s.scr = true → cellsWf 0 (t.params.n + 1) t.scr = true) ∧
  (cellsWf 0 (digcap s.params) s.fmtBuf = true → cellsWf 0 (digcap t.params) t.fmtBuf = true) ∧
  (endsInput s.input = true → endsInput t.input = true)

theorem endsInput_append {a b : List InItem} (h : endsInput (a ++ b) = true) : endsInput b = true := by
  induction a with
  | nil => exact h
  | cons it a ih =>
    cases it with
    | byte _ => exact ih h
    | endItem =>
      have : a ++ b = [] := by simpa [endsInput] using h
      rw [(List.append_eq_nil_iff.mp this).2]
      rfl

theorem OnlyWords.onlyRun {base n : Nat} {i : Instr} {x : Args} {s t : State} (h : OnlyWords base n s t)
    (hb : check i x s.params = none → base + n ≤ s.params.bufWords) : OnlyRun i x s t := by
  obtain ⟨⟨m, rfl⟩, _, w⟩ := h
  exact ⟨⟨m, _, _, _, _, _, _, _, rfl⟩, fun hc => w (hb hc), fun _ h => h, id, id⟩

theorem OnlyProduct.onlyRun {x : Args} {s t : State} (h : OnlyProduct x s t) : OnlyRun .mulLong x s t := by
  obtain ⟨⟨m, v, rfl⟩, _, w, c⟩ := h
  refine ⟨⟨m, v, _, _, _, _, _, _, rfl⟩, fun hc => w (rangeP_inBounds hc), fun hc => c ?_, id, id⟩
  have := ((check_eq_none_iff .mulLong x s.params).mp hc).1
  simpa [lengthFails] using this

theorem OnlyParsed.onlyRun {x : Args} {s t : State} (h : OnlyParsed x s t) : OnlyRun .parse x s t := by
  obtain ⟨⟨m, inp, d, j, rfl⟩, _, w, ⟨taken, e⟩, _⟩ := h
  exact ⟨⟨m, _, _, inp, _, _, d, j, rfl⟩, fun hc => w (rangeA_inBounds hc), fun _ h => h, id,
    fun h => endsInput_append (e ▸ h)⟩

theorem OnlyFormatted.onlyRun {nl : Bool} {x : Args} {s t : State} (h : OnlyFormatted x s t) :
    OnlyRun (.format nl) x s t := by
  obtain ⟨⟨m, f, o, k, rfl⟩, _, w, c, _⟩ := h
  exact ⟨⟨m, _, f, _, o, k, _, _, rfl⟩, fun hc => w (rangeA_inBounds hc), fun _ h => h, c, id⟩

/-- How a turn or a whole command leaves the sequencer. -/
def RunEnds (r : Running) (t u : State) : Prop :=
  (∃ r' : Running, (r.wellFormed t.params = true → r'.wellFormed t.params = true) ∧ u = t.run r') ∨
  (∃ v f z, u = t.complete v f z ∨ u = (t.complete v f z).forgetScr ∨ u = (t.complete v f z).forgetFmt) ∨ ∃ code, (code = 1 ∨ code = 2) ∧ u = t.terminate r.args code

/-- A record of PARSE. -/
theorem wellFormed_parse {r r' : Running} {p : Params} (ho : r'.op = .parse) (ha : r'.args = r.args)
    (hp : r'.phase.ofParse = true) (hr : r.op = .parse) (hw : r.wellFormed p = true) : r'.wellFormed p = true := by
  have hn : r'.phase.inRow = false := by cases h : r'.phase <;> simp_all [Phase.ofParse, Phase.inRow]
  simp only [Running.wellFormed, hr, Bool.and_eq_true, decide_eq_true_eq] at hw
  simp [Running.wellFormed, ho, ha, hw.1.1, Phase.fits, hp, hn]

/-- A record of FORMAT. -/
theorem wellFormed_format {nl : Bool} {r r' : Running} {p : Params} (ho : r'.op = .format nl) (ha : r'.args = r.args)
    (hp : r'.phase.ofFormat nl = true) (hr : r.op = .format nl) (hw : r.wellFormed p = true) :
    r'.wellFormed p = true := by
  have hn : r'.phase.inRow = false := by cases h : r'.phase <;> simp_all [Phase.ofFormat, Phase.inRow]
  simp only [Running.wellFormed, hr, Bool.and_eq_true, decide_eq_true_eq] at hw
  simp [Running.wellFormed, ho, ha, hw.1.1, Phase.fits, hp, hn]

/-- The body a command's meaning runs once the command is accepted (R121). -/
def runBody : Instr → Running → State → State
  | .zeroFill => oneLoop zeroFillWord zeroFillDone
  | .copy => oneLoop copyArgsWord copyDone
  | .isZero => oneLoop isZeroWord isZeroDone
  | .addShort => oneLoop addShortWord addShortDone
  | .mulShort => oneLoop mulShortWord mulShortDone
  | .divShort => oneLoop divShortWord divShortDone
  | .addLong => oneLoop addLongWord addLongDone
  | .mulLong => mulLongRun
  | .parse => parseRun
  | .format _ => formatRun

/-- Every command is a `CMD` write that drops, faults, or runs its body. -/
theorem exec_eq (i : Instr) (s : State) : exec i s = .next (command i (runBody i) s) := by cases i <;> rfl

/-- The record a command starts with is one of an accepted command. -/
theorem start_wellFormed {i : Instr} {x : Args} {p : Params} (h : check i x p = none) :
    (Running.start i x).wellFormed p = true := by
  cases i <;>
    simp [Running.wellFormed, Running.start, firstPhase, Phase.fits, Phase.ofMulLong, Phase.ofParse, Phase.ofFormat,
      Phase.inRow, h]

/-- What the body of a command does, from its acceptance to its end or to a hold. -/
theorem runBody_effect (i : Instr) (r : Running) (hr : r.op = i) (s : State) :
    ∃ t, OnlyRun i r.args s t ∧ RunEnds r t (runBody i r s) := by
  have loop : ∀ (word : Args → WordBody) (done : Word → State → State),
      (∀ k c s, k < r.args.len.toNat → OnlyWords r.args.a.toNat r.args.len.toNat s (word r.args k c s).2) →
      (∀ c s, ∃ v f z, done c s = State.complete s v f z) →
      ∃ t, OnlyRun i r.args s t ∧ RunEnds r t (oneLoop word done r s) := fun word done h hd => by
    obtain ⟨c, t, h1, h2⟩ := oneLoop_effect (done := done) h s
    obtain ⟨v, f, z, e⟩ := hd c t
    exact ⟨t, h1.onlyRun rangeA_inBounds, .inr (.inl ⟨v, f, z, .inl (h2.trans e)⟩)⟩
  cases i with
  | zeroFill => exact loop _ _ (fun k c s hk => zeroWord_effect hk c s) (fun c s => ⟨_, _, _, rfl⟩)
  | copy => exact loop _ _ (fun k c s hk => copyArgsWord_effect hk c s) (fun c s => ⟨_, _, _, rfl⟩)
  | isZero => exact loop _ _ (fun k c s _ => testWord_effect _ c s) (fun c s => ⟨_, _, _, rfl⟩)
  | addShort => exact loop _ _ (fun k c s hk => addWord_effect hk c s) (fun c s => ⟨_, _, _, rfl⟩)
  | mulShort => exact loop _ _ (fun k c s hk => mulWord_effect hk c s) (fun c s => ⟨_, _, _, rfl⟩)
  | divShort => exact loop _ _ (fun k c s hk => divWord_effect hk c s) (fun c s => ⟨_, _, _, rfl⟩)
  | addLong => exact loop _ _ (fun k c s hk => addLongWord_effect hk c s) (fun c s => ⟨_, _, _, rfl⟩)
  | mulLong =>
    obtain ⟨c, t, h1, h2⟩ := mulLongRun_effect r s
    exact ⟨t, h1.onlyRun, .inr (.inl ⟨_, _, _, .inr (.inl h2)⟩)⟩
  | parse =>
    obtain ⟨t, h1, h2⟩ := parseRun_effect r s
    refine ⟨t, h1.onlyRun, ?_⟩
    rcases h2 with ⟨r', ho, ha, hp, _, e⟩ | ⟨n, f, e⟩ | h
    · exact .inl ⟨r', wellFormed_parse (ho.trans hr) ha hp hr, e⟩
    · exact .inr (.inl ⟨_, _, _, .inl e⟩)
    · exact .inr (.inr h)
  | format nl =>
    obtain ⟨t, h1, h2⟩ := formatRun_effect r s
    refine ⟨t, h1.onlyRun, ?_⟩
    rcases h2 with ⟨r', ho, ha, hp, _, e⟩ | ⟨n, e⟩
    · refine .inl ⟨r', wellFormed_format (ho.trans hr) ha ?_ hr, e⟩
      rcases hp with h | ⟨h, hn⟩
      · rw [h]; rfl
      · rw [h]; rw [hr] at hn; exact hn
    · exact .inr (.inl ⟨_, _, _, .inr (.inr e)⟩)

theorem OnlyRun.refl (i : Instr) (x : Args) (s : State) : OnlyRun i x s s :=
  ⟨⟨_, _, _, _, _, _, _, _, rfl⟩, fun _ h => h, fun _ h => h, id, id⟩

theorem fits_mulLong {ph : Phase} {i : Instr} (h : ph.ofMulLong = true) (hf : ph.fits i = true) : i = .mulLong := by
  cases i <;> cases ph <;> simp_all [Phase.fits, Phase.ofMulLong, Phase.ofParse, Phase.ofFormat]

theorem fits_parse {ph : Phase} {i : Instr} (h : ph.ofParse = true) (hf : ph.fits i = true) : i = .parse := by
  cases i <;> cases ph <;> simp_all [Phase.fits, Phase.ofMulLong, Phase.ofParse, Phase.ofFormat]

theorem fits_format {ph : Phase} {i : Instr} (h : ph.ofFormat true = true) (hf : ph.fits i = true) :
    ∃ nl, i = .format nl := by
  cases i <;> cases ph <;> simp_all [Phase.fits, Phase.ofMulLong, Phase.ofParse, Phase.ofFormat]

/-- A record of the same command, its phase another one outside the rows of MUL_LONG. -/
theorem wellFormed_goto {r r' : Running} {p : Params} (ho : r'.op = r.op) (ha : r'.args = r.args)
    (hp : r'.phase.fits r.op = true) (hn : r'.phase.inRow = true → r'.outer < r.args.len.toNat)
    (hw : r.wellFormed p = true) : r'.wellFormed p = true := by
  simp only [Running.wellFormed, Bool.and_eq_true, decide_eq_true_eq] at hw
  simp only [Running.wellFormed, ho, ha, hw.1.1, hp, decide_true, Bool.true_and, Bool.or_eq_true, Bool.not_eq_true',
    decide_eq_true_eq]
  cases h : r'.phase.inRow with
  | false => exact .inl rfl
  | true => exact .inr (hn h)

/-- A turn of a loop: the next word in the same phase, or what follows the loop. -/
theorem loopTurn_effect {body : WordBody} {len : Nat} {after : Running → State → State} {r : Running} {s : State}
    (hb : r.idx < len → OnlyRun r.op r.args s (body r.idx r.carry s).2)
    (ha : ∃ t, OnlyRun r.op r.args s t ∧ RunEnds r t (after r s)) :
    ∃ t, OnlyRun r.op r.args s t ∧ RunEnds r t (loopTurn body len after r s) := by
  rw [loopTurn]
  split
  · exact ⟨_, hb (by assumption), .inl ⟨{ r with idx := r.idx + 1, carry := _ }, fun h => h, rfl⟩⟩
  · exact ha

/-- What a turn of the sequencer does with the record of a running command. -/
theorem turn_effect {r : Running} {s : State} (hs : s.seq = .busy r) (hw : r.wellFormed s.params = true) :
    ∃ t, OnlyRun r.op r.args s t ∧ RunEnds r t (turn r s) := by
  have hw' := hw
  simp only [Running.wellFormed, Bool.and_eq_true, decide_eq_true_eq, Bool.or_eq_true, Bool.not_eq_true'] at hw'
  obtain ⟨⟨hc, hf⟩, hrow⟩ := hw'
  have ram : ∀ {t : State}, OnlyWords r.args.a.toNat r.args.len.toNat s t → OnlyRun r.op r.args s t :=
    fun h => h.onlyRun rangeA_inBounds
  have goto : ∀ {t : State} (r' : Running), OnlyRun r.op r.args s t → r'.op = r.op → r'.args = r.args →
      r'.phase.fits r.op = true → (r'.phase.inRow = true → r'.outer < r.args.len.toNat) →
      ∃ t', OnlyRun r.op r.args s t' ∧ RunEnds r t' (t.run r') :=
    fun r' h1 ho ha hp hn => ⟨_, h1, .inl ⟨r', wellFormed_goto ho ha hp hn, rfl⟩⟩
  have complete : ∀ {t : State} (v : Word) (f z : Bool), OnlyRun r.op r.args s t →
      ∃ t', OnlyRun r.op r.args s t' ∧ RunEnds r t' (t.complete v f z) :=
    fun v f z h => ⟨_, h, .inr (.inl ⟨v, f, z, .inl rfl⟩)⟩
  have mulDone : ∀ {t : State} (f : Bool), OnlyRun r.op r.args s t →
      ∃ t', OnlyRun r.op r.args s t' ∧ RunEnds r t' (mulLongDone f t) :=
    fun f h => ⟨_, h, .inr (.inl ⟨0, f, false, .inr (.inl rfl)⟩)⟩
  have fmtDone : ∀ {t : State} (n : Nat), OnlyRun r.op r.args s t →
      ∃ t', OnlyRun r.op r.args s t' ∧ RunEnds r t' (formatDone n t) :=
    fun n h => ⟨_, h, .inr (.inl ⟨lowWord n, false, false, .inr (.inr rfl)⟩)⟩
  have terminate : ∀ {t : State} (code : Byte), (code = 1 ∨ code = 2) → OnlyRun r.op r.args s t →
      ∃ t', OnlyRun r.op r.args s t' ∧ RunEnds r t' (t.terminate r.args code) :=
    fun code hcode h => ⟨_, h, .inr (.inr ⟨code, hcode, rfl⟩)⟩
  have stay : s = s.run r := by rw [State.run, State.setSeq, ← hs]
  have self := OnlyRun.refl r.op r.args s
  have next : ∀ {i : Nat} {r' : Running}, r'.op = r.op → r'.args = r.args → Phase.fits .mulZero r.op = true →
      ∃ t', OnlyRun r.op r.args s t' ∧ RunEnds r t' (mulNext i r' s) := fun {i r'} ho ha hm => by
    rw [mulNext]
    split
    · exact goto _ self ho ha hm (fun _ => by rw [← ha]; assumption)
    · exact mulDone _ self
  cases hp : r.phase with
  | words =>
    rw [hp] at hf
    cases ho : r.op <;> simp only [turn, hp, ho] <;> rw [← ho]
    · exact loopTurn_effect (fun h => ram (zeroWord_effect h _ _)) (complete _ _ _ self)
    · exact loopTurn_effect (fun h => ram (copyArgsWord_effect h _ _)) (complete _ _ _ self)
    · exact loopTurn_effect (fun _ => ram (testWord_effect _ _ _)) (complete _ _ _ self)
    · exact loopTurn_effect (fun h => ram (addWord_effect h _ _)) (complete _ _ _ self)
    · exact loopTurn_effect (fun h => ram (mulWord_effect h _ _)) (complete _ _ _ self)
    · exact loopTurn_effect (fun h => ram (divWord_effect h _ _)) (complete _ _ _ self)
    · exact loopTurn_effect (fun h => ram (addLongWord_effect h _ _)) (complete _ _ _ self)
    all_goals simp [ho, Phase.fits, Phase.ofMulLong, Phase.ofParse, Phase.ofFormat] at hf
  | mulClear =>
    have ho := fits_mulLong (hp ▸ rfl) hf
    rw [turn, hp]
    refine loopTurn_effect (fun h => ?_) (next rfl rfl (ho ▸ rfl))
    exact ho ▸ (zeroWord_effect h _ _).product.onlyRun
  | mulZero =>
    have ho := fits_mulLong (hp ▸ rfl) hf
    rw [turn, hp]
    refine loopTurn_effect (fun h => ?_) (goto _ self rfl rfl (ho ▸ rfl) fun _ => hrow.resolve_left (by simp [hp, Phase.inRow]))
    exact ho ▸ (OnlyProduct.writeScr h _ _).onlyRun
  | mulLoad =>
    have ho := fits_mulLong (hp ▸ rfl) hf
    rw [turn, hp]
    refine loopTurn_effect (fun h => ?_) (goto _ self rfl rfl (ho ▸ rfl) fun _ => hrow.resolve_left (by simp [hp, Phase.inRow]))
    exact ho ▸ (OnlyProduct.writeScr (by omega) _ _).onlyRun
  | mulTimes =>
    have ho := fits_mulLong (hp ▸ rfl) hf
    rw [turn, hp]
    refine loopTurn_effect (fun h => ?_) (goto _ self rfl rfl (ho ▸ rfl) fun _ => hrow.resolve_left (by simp [hp, Phase.inRow]))
    exact ho ▸ (OnlyProduct.writeScr h _ _).onlyRun
  | mulAdd =>
    have ho := fits_mulLong (hp ▸ rfl) hf
    have hi := hrow.resolve_left (by simp [hp, Phase.inRow])
    rw [turn, hp]
    refine loopTurn_effect (fun h => ?_) (next rfl rfl (ho ▸ rfl))
    exact ho ▸ (productAddWord_effect hi h _ _).product.onlyRun
  | parseClear =>
    have ho := fits_parse (hp ▸ rfl) hf
    rw [turn, hp]
    exact loopTurn_effect (fun h => ram (zeroWord_effect h _ _)) (goto _ self rfl rfl (ho ▸ rfl) nofun)
  | parseRead =>
    have ho := fits_parse (hp ▸ rfl) hf
    rw [turn, hp]
    show ∃ t, _ ∧ RunEnds r t (parseTake r s)
    rw [parseTake]
    split
    · exact ⟨s, self, .inl ⟨r, id, stay⟩⟩
    · rename_i it rest hi
      have taken : OnlyRun r.op r.args s (s.setInput rest) := ho ▸ (OnlyParsed.setInput r.args (taken := [it]) hi).onlyRun
      split
      · exact terminate 2 (.inr rfl) self
      · refine complete _ _ _ ?_
        cases it with
        | endItem => exact ho ▸ (OnlyParsed.setInput r.args (taken := []) hi).onlyRun
        | byte b => exact taken
      · exact goto _ taken rfl rfl (ho ▸ rfl) nofun
      · exact goto _ taken rfl rfl (ho ▸ rfl) nofun
  | parseTimes d =>
    have ho := fits_parse (hp ▸ rfl) hf
    rw [turn, hp]
    exact loopTurn_effect (fun h => ram (mulWord_effect h _ _)) (goto _ self rfl rfl (ho ▸ rfl) nofun)
  | parseAdd =>
    have ho := fits_parse (hp ▸ rfl) hf
    rw [turn, hp]
    exact loopTurn_effect (fun h => ram (addWord_effect h _ _)) (goto _ self rfl rfl (ho ▸ rfl) nofun)
  | parseDiag x =>
    have ho := fits_parse (hp ▸ rfl) hf
    rw [turn, hp]
    show ∃ t, _ ∧ RunEnds r t (diagTurn x r s)
    rw [diagTurn]
    split
    · refine goto _ ?_ rfl rfl (hp ▸ ho ▸ rfl) (by simp [hp, Phase.inRow])
      exact ⟨⟨_, _, _, _, _, _, _, _, rfl⟩, fun _ h => h, fun _ h => h, id, id⟩
    · exact goto _ self rfl rfl (ho ▸ rfl) nofun
  | parseSkip =>
    have ho := fits_parse (hp ▸ rfl) hf
    rw [turn, hp]
    show ∃ t, _ ∧ RunEnds r t (parseDiscard r s)
    rw [parseDiscard]
    split
    · exact ⟨s, self, .inl ⟨r, id, stay⟩⟩
    · exact terminate 1 (.inl rfl) self
    · rename_i b rest hi
      have taken : OnlyRun r.op r.args s (s.setInput rest) := ho ▸ (OnlyParsed.setInput r.args (taken := [.byte b]) hi).onlyRun
      split
      · exact terminate 1 (.inl rfl) taken
      · exact ⟨_, taken, .inl ⟨r, id, by rw [stay]; rfl⟩⟩
  | fmtDivide =>
    obtain ⟨nl, ho⟩ := fits_format (hp ▸ rfl) hf
    rw [turn, hp]
    refine loopTurn_effect (fun h => ram (divWord_effect h _ _)) (goto _ ?_ rfl rfl (ho ▸ rfl) nofun)
    exact ho ▸ (placeDigit_effect r.args (Nat.succ_pos _) _ s).onlyRun
  | fmtTest =>
    obtain ⟨nl, ho⟩ := fits_format (hp ▸ rfl) hf
    rw [turn, hp]
    refine loopTurn_effect (fun _ => ram (testWord_effect _ _ _)) (goto _ self rfl rfl ?_ ?_)
    · rw [ho]; show Phase.ofFormat nl (if _ then _ else _) = true; split <;> rfl
    · show Phase.inRow (if _ then _ else _) = true → _; split <;> nofun
  | fmtEmit =>
    obtain ⟨nl, ho⟩ := fits_format (hp ▸ rfl) hf
    rw [turn, hp]
    show ∃ t, _ ∧ RunEnds r t (emitTurn r s)
    rw [emitTurn]
    split
    · refine goto _ ?_ rfl rfl (hp ▸ ho ▸ rfl) (by simp [hp, Phase.inRow])
      exact ⟨⟨_, _, _, _, _, _, _, _, rfl⟩, fun _ h => h, fun _ h => h, id, id⟩
    · split
      · rename_i hn
        refine goto _ self rfl rfl ?_ nofun
        rw [ho] at hn ⊢
        exact hn
      · exact fmtDone _ self
  | fmtNewline =>
    rw [turn, hp]
    exact fmtDone _ ⟨⟨_, _, _, _, _, _, _, _, rfl⟩, fun _ h => h, fun _ h => h, id, id⟩

/-- The sequencer's turn: idle, terminated and held it waits; running, the command moves on. -/
theorem sequencerTurn_cases {s t : State} (h : sequencerTurn s = .next t) :
    t = s ∨ ∃ r, s.seq = .busy r ∧ r.wellFormed s.params = true ∧ r.held s = false ∧ t = turn r s := by
  unfold sequencerTurn at h
  cases hs : s.seq with
  | idle => rw [hs] at h; injection h with h; exact .inl h.symm
  | terminated => rw [hs] at h; injection h with h; exact .inl h.symm
  | busy r =>
    rw [hs] at h
    dsimp only at h
    split at h
    · injection h with h
      split at h
      · exact .inl h.symm
      · exact .inr ⟨r, rfl, by assumption, by simpa using (by assumption : ¬r.held s = true), h.symm⟩
    · cases h

/-- A step carries out the host's next action, or the sequencer takes a turn once the agenda's entry, if it
was the turn's own, is taken. -/
theorem step_cases (s : State) :
    (∃ a, s.nextAction = some a ∧ step s = act exec a s.popped) ∨
    (s.nextAction = none ∧ ∃ g, step s = sequencerTurn (s.setAgenda g)) := by
  unfold State.nextAction
  cases hag : s.agenda with
  | nil =>
    refine .inr ⟨rfl, s.agenda, ?_⟩
    show step s = sequencerTurn s
    rw [step, stepWith, hag]
  | cons e rest =>
    have hp : s.popped = s.setAgenda rest := by simp [State.popped, State.setAgenda, hag]
    cases e with
    | turn => exact .inr ⟨rfl, rest, by rw [step, stepWith, hag]⟩
    | now a => exact .inl ⟨a, rfl, by rw [step, stepWith, hag, hp]⟩
    | rest a =>
      cases hm : s.movable with
      | true =>
        refine .inr ⟨by simp, s.agenda, ?_⟩
        show step s = sequencerTurn s
        rw [step, stepWith, hag]
        simp [hm]
      | false => exact .inl ⟨a, by simp, by rw [step, stepWith, hag, hp]; simp [hm]⟩

/-- The step that carries out the host's next action. -/
theorem step_action {s : State} {a : HostAction} (h : s.nextAction = some a) : step s = act exec a s.popped := by
  rcases step_cases s with ⟨b, hb, e⟩ | ⟨hn, _⟩
  · rw [h] at hb
    injection hb with hb
    rw [e, hb]
  · rw [h] at hn
    cases hn

/-- An admitted access leads where the map of R79 says. -/
theorem decodeAccess_admitted (p : Params) {off : Nat} (h : off < windowBytes) (h8 : off % 8 = 0) :
    decodeAccess p (p.mmioBase + off) 64 = .target (targetAt p off) := by
  unfold decodeAccess
  rw [if_neg (by omega), if_neg (by rw [Nat.add_sub_cancel_left]; simp [h8]), Nat.add_sub_cancel_left]

/-- What a host action other than a `CMD` write and a reset does: the fields it may change, and how `STATUS`
may change (R34, R76). -/
def HostEffect (a : HostAction) (s t : State) : Prop :=
  (∃ st x m inp o d rep, t
    = { s with status := st, args := x, bufram := m, input := inp, outReady := o, diagReady := d, reply := rep } ∧
    (st = s.status ∨ st = s.status.withHaz ∨
      ∃ v, a = .write (s.params.mmioBase + 0x008) 64 v ∧ st = s.status.write v)) ∧
  (Memory.wf s.params s.bufram = true → Memory.wf t.params t.bufram = true) ∧
  (endsInput s.input = true → endsInput t.input = true)

theorem endsInput_deliver {l : List InItem} (it : InItem) (h : endsInput l = true) (hn : .endItem ∉ l) :
    endsInput (l ++ [it]) = true := by
  induction l with
  | nil => cases it <;> rfl
  | cons b l ih =>
    cases b with
    | byte b => exact ih h (fun hm => hn (List.mem_cons_of_mem _ hm))
    | endItem => exact absurd (List.mem_cons_self ..) hn

/-- The offset of a decoded target. -/
theorem target_ram {p : Params} {off k : Nat} (h : targetAt p off = .ram k) : k < p.bufWords := by
  unfold targetAt at h
  repeat' split at h
  all_goals first | (injection h with h; omega) | cases h

theorem target_status {p : Params} {off : Nat} (h : targetAt p off = .status) : off = 0x008 := by
  unfold targetAt at h
  repeat' split at h
  all_goals first | assumption | cases h

theorem target_cmd {p : Params} {off : Nat} (h : targetAt p off = .cmd) : off = 0x010 := by
  unfold targetAt at h
  repeat' split at h
  all_goals first | assumption | cases h

theorem decodeAccess_target {p : Params} {addr width : Nat} {t : Target} (h : decodeAccess p addr width = .target t) :
    width = 64 ∧ addr = p.mmioBase + (addr - p.mmioBase) ∧ targetAt p (addr - p.mmioBase) = t := by
  unfold decodeAccess at h
  split at h
  · cases h
  · split at h
    · cases h
    · injection h with h
      exact ⟨by omega, by omega, h⟩

/-- A host action by cases: reset, a `CMD` write, or one of the others. -/
theorem act_cases {a : HostAction} {s t : State} (h : act exec a s = .next t) :
    (a = .reset ∧ t = s.afterReset) ∨
    (∃ v i body, a = .write (s.params.mmioBase + 0x010) 64 v ∧ decode v = .command i ∧
      t = command i body (s.setReply .ack) ∧ (body = runBody i ∨ body = fun _ u => u)) ∨
    (∃ code, t = rejectWord code (s.setReply .ack)) ∨ HostEffect a s t := by
  have plain : ∀ rep, HostEffect a s (s.setReply rep) := fun rep =>
    ⟨⟨_, _, _, _, _, _, rep, rfl, .inl rfl⟩, id, id⟩
  cases a with
  | read addr width =>
    injection h with h
    subst h
    refine .inr (.inr (.inr ?_))
    rw [hostRead]
    split
    · rename_i tg _
      have eff : readEffect tg s = s ∨ readEffect tg s = s.drop := by
        cases tg <;> first | exact .inl rfl | (unfold readEffect; dsimp only; split <;> simp)
      rcases eff with e | e <;> rw [e]
      · exact plain _
      · exact ⟨⟨_, _, _, _, _, _, _, rfl, .inr (.inl rfl)⟩, id, id⟩
    · exact plain _
    · exact plain _
  | write addr width v =>
    change hostWrite exec addr width v s = _ at h
    rw [hostWrite] at h
    split at h
    · rename_i hdec
      obtain ⟨hw, haddr, htg⟩ := decodeAccess_target hdec
      rw [target_cmd htg] at haddr
      subst hw
      rw [writeCmd] at h
      split at h
      · injection h with h
        exact .inr (.inr (.inl ⟨_, h.symm⟩))
      · rename_i hd
        split at h
        · injection h with h
          exact .inr (.inl ⟨v, _, _, by rw [haddr], hd, h.symm, .inr rfl⟩)
        · rw [exec_eq] at h
          injection h with h
          exact .inr (.inl ⟨v, _, _, by rw [haddr], hd, h.symm, .inl rfl⟩)
    · rename_i tg hd hdec
      injection h with h
      subst h
      obtain ⟨hw, haddr, htg⟩ := decodeAccess_target hdec
      refine .inr (.inr (.inr ?_))
      have args : ∀ f : Args → Args, HostEffect (.write addr width v) s
          (unlessBusy (fun s => s.setArgs (f s.args)) (s.setReply .ack)) := fun f => by
        unfold unlessBusy
        split
        · exact ⟨⟨_, _, _, _, _, _, _, rfl, .inr (.inl rfl)⟩, id, id⟩
        · exact ⟨⟨_, _, _, _, _, _, _, rfl, .inl rfl⟩, id, id⟩
      cases tg with
      | status =>
        rw [target_status htg] at haddr
        exact ⟨⟨_, _, _, _, _, _, _, rfl, .inr (.inr ⟨v, by rw [haddr, hw], rfl⟩)⟩, id, id⟩
      | argA => exact args fun x => { x with a := v.setWidth 16 }
      | argB => exact args fun x => { x with b := v.setWidth 16 }
      | argP => exact args fun x => { x with p := v.setWidth 16 }
      | argLen => exact args fun x => { x with len := v.setWidth 16 }
      | argW => exact args fun x => { x with w := v }
      | ram k =>
        show HostEffect _ s (unlessBusy (fun s => s.writeWord k v) (s.setReply .ack))
        unfold unlessBusy
        split
        · exact ⟨⟨_, _, _, _, _, _, _, rfl, .inr (.inl rfl)⟩, id, id⟩
        · exact ⟨⟨_, _, _, _, _, _, _, State.writeWord_eq _ k v, .inl rfl⟩,
            fun hm => State.writeWord_wf (s := s.setReply .ack) v (target_ram htg) hm, id⟩
      | param => exact plain _
      | cmd => exact plain _
      | result => exact plain _
      | exit => exact plain _
      | reserved => exact plain _
    · injection h with h
      exact .inr (.inr (.inr (h ▸ plain _)))
    · injection h with h
      exact .inr (.inr (.inr (h ▸ plain _)))
  | deliver it =>
    injection h with h
    subst h
    refine .inr (.inr (.inr ?_))
    rw [State.deliver]
    split
    · exact ⟨⟨_, _, _, _, _, _, _, rfl, .inl rfl⟩, id, id⟩
    · rename_i hn
      exact ⟨⟨_, _, _, _, _, _, _, rfl, .inl rfl⟩, id, fun he => endsInput_deliver it he (by simpa using hn)⟩
  | readyOut k =>
    injection h with h
    exact .inr (.inr (.inr (h ▸ ⟨⟨_, _, _, _, _, _, _, rfl, .inl rfl⟩, id, id⟩)))
  | readyDiag k =>
    injection h with h
    exact .inr (.inr (.inr (h ▸ ⟨⟨_, _, _, _, _, _, _, rfl, .inl rfl⟩, id, id⟩)))
  | reset =>
    injection h with h
    exact .inl ⟨rfl, h.symm⟩

/-- A host action always gives a next state. -/
theorem act_next (a : HostAction) (s : State) : ∃ t, act exec a s = .next t := by
  cases a with
  | write addr width v =>
    show ∃ t, hostWrite exec addr width v s = .next t
    rw [hostWrite]
    split
    · rw [writeCmd]
      split
      · exact ⟨_, rfl⟩
      · split
        · exact ⟨_, rfl⟩
        · exact ⟨_, exec_eq _ _⟩
    all_goals exact ⟨_, rfl⟩
  | read _ _ => exact ⟨_, rfl⟩
  | deliver _ => exact ⟨_, rfl⟩
  | readyOut _ => exact ⟨_, rfl⟩
  | readyDiag _ => exact ⟨_, rfl⟩
  | reset => exact ⟨_, rfl⟩

end Sys2Proof.Machine
end

