-- ==== Sys2Proof/Laws/Driver.lean ====
section
/-!
SUPPORT. What a turn of a host that runs a program does, op by op, and how runs join.
-/
namespace Sys2Proof.Machine

/-- A host action on its own is the action, at the state with nothing else planned. -/
theorem hostDoes_eq (a : HostAction) (s : State) : hostDoes a s = act exec a (s.setAgenda []) := rfl

/-- With nothing planned the block's step is the sequencer's turn. -/
theorem step_quiet (s : State) : step (s.setAgenda []) = sequencerTurn (s.setAgenda []) := rfl

/-- A run in two parts. -/
theorem hostRun_append {xs ys : List (List HostAction)} {h h1 : HostRun} (h0 : hostRun xs h = .next h1) :
    hostRun (xs ++ ys) h = hostRun ys h1 := by
  induction xs generalizing h with
  | nil => simp only [hostRun, Host.Outcome.next.injEq] at h0; simp [h0]
  | cons x xs ih =>
    simp only [hostRun, List.cons_append] at h0 ⊢
    cases hm : hostMeanwhile x h with
    | next h2 =>
      simp only [hm] at h0 ⊢
      cases ht : hostTurn h2 with
      | next h3 => simp only [ht] at h0 ⊢; exact ih h0
      | fault r => simp [ht] at h0
      | refused r => simp [ht] at h0
    | fault r => simp [hm] at h0
    | refused r => simp [hm] at h0

/-- One turn of a host that does nothing beside its program. -/
theorem hostRun_turn {h h1 : HostRun} (ht : hostTurn h = .next h1) (n : Nat) :
    hostRun (List.replicate (n + 1) []) h = hostRun (List.replicate n []) h1 := by
  simp [List.replicate_succ, hostRun, hostMeanwhile, ht]

/-- A bus access of the program. -/
theorem hostTurn_access {a : HostAction} {s t : State} (h : act exec a (s.setAgenda []) = .next t)
    (rest : List HostOp) (e : Option Byte) :
    hostTurn { ops := .access a :: rest, exit := e, block := s } = .next { ops := rest, exit := e, block := t } := by
  simp [hostTurn, HostRun.withBlock, hostDoes_eq, h]

/-- Bit 0 of the value of `STATUS` is `BUSY`, as a host reads it. -/
theorem Reply.bit_busy (t : Status) : (Reply.data t.word).bit 0 = t.busy := by
  cases t with
  | mk b d f tm tr z hz fc => simp only [Reply.bit, Status.word, BitVec.getLsbD_append]; cases b <;> simp [BitVec.ofBool]

/-- Bit 3 of the value of `STATUS` is `TERM`, as a host reads it. -/
theorem Reply.bit_term (t : Status) : (Reply.data t.word).bit 3 = t.term := by
  cases t with
  | mk b d f tm tr z hz fc => simp only [Reply.bit, Status.word, BitVec.getLsbD_append]; cases tm <;> simp [BitVec.ofBool]

end Sys2Proof.Machine
end

