-- ==== Sys2Proof/Laws/PerInstr.lean ====
section
/-!
SUPPORT. What is stated once for every command, one lemma per constructor: the encoding of each command has
its opcode, its `NL` bit and clear reserved bits, and is a legal `CMD` value (30_encoding.md R100, R104, R105).
-/
namespace Sys2Proof.Laws.EncodingFields

/-- The fields of a command's encoding. -/
def Statement (i : Instr) : Prop :=
  Cmd64.ofWord (encode i) = { opc := i.opcode, nl := i.nlBit, reserved := 0 } ∧
    (Cmd64.ofWord (encode i)).wellFormed = true

theorem zeroFill : Statement .zeroFill := by unfold Statement; decide

theorem copy : Statement .copy := by unfold Statement; decide

theorem isZero : Statement .isZero := by unfold Statement; decide

theorem addShort : Statement .addShort := by unfold Statement; decide

theorem mulShort : Statement .mulShort := by unfold Statement; decide

theorem divShort : Statement .divShort := by unfold Statement; decide

theorem addLong : Statement .addLong := by unfold Statement; decide

theorem mulLong : Statement .mulLong := by unfold Statement; decide

theorem parse : Statement .parse := by unfold Statement; decide

theorem format (nl : Bool) : Statement (.format nl) := by unfold Statement; cases nl <;> decide

end Sys2Proof.Laws.EncodingFields
end

