-- ==== Sys2Proof/Laws/Sequencer.lean ====
section
/-!
SUPPORT. The sequencer turn by turn against the word loops: what a loop's turns reach, and which states the
turns of a running command lead to (10_state.md R41, 30_encoding.md R123).
-/
namespace Sys2Proof.Machine

/-! ### Running with nothing planned by the host -/

theorem step_turn {s : State} {r : Running} (ha : s.agenda = []) (hs : s.seq = .busy r)
    (hw : r.wellFormed s.params = true) : step s = .next (if r.held s then s else turn r s) := by
  simp [step, stepWith, ha, sequencerTurn, hs, hw]

/-- A run of any machine, its first step taken off. -/
theorem run_head (M : Host.Core) {k : Nat} {s t : M.State} (h : M.step s = .next t) : M.run (k + 1) s = M.run k t := by
  rw [Host.Core.run, h]

/-- A run that gives a next state begins with a step that does. -/
theorem run_uncons (M : Host.Core) {k : Nat} {s t : M.State} (h : M.run (k + 1) s = .next t) :
    ∃ u, M.step s = .next u ∧ M.run k u = .next t := by
  rw [Host.Core.run] at h
  cases e : M.step s with
  | next u => rw [e] at h; exact ⟨u, rfl, h⟩
  | fault r => rw [e] at h; cases h
  | refused r => rw [e] at h; cases h

theorem run_zero (M : Host.Core) {s t : M.State} (h : M.run 0 s = .next t) : s = t := by
  rw [Host.Core.run] at h
  injection h

/-- `t` is reached from `s` by some number of steps. -/
def Reaches (s t : State) : Prop := ∃ k, Sys2Proof.core.run k s = .next t

theorem Reaches.refl (s : State) : Reaches s s := ⟨0, Host.Core.run.eq_1 Sys2Proof.core s⟩

theorem Reaches.head {s t u : State} (h : step s = .next t) (r : Reaches t u) : Reaches s u := by
  obtain ⟨k, hk⟩ := r
  exact ⟨k + 1, (run_head Sys2Proof.core h).trans hk⟩

theorem Reaches.trans {s t u : State} (h1 : Reaches s t) (h2 : Reaches t u) : Reaches s u := by
  obtain ⟨k, hk⟩ := h1
  induction k generalizing s with
  | zero =>
    obtain rfl : s = t := run_zero Sys2Proof.core hk
    exact h2
  | succ k ih =>
    obtain ⟨v, hv, hk'⟩ := run_uncons Sys2Proof.core hk
    exact Reaches.head hv (ih hk')

/-! ### Word loops -/

/-- A step of a loop that leaves everything the sequencer's turns look at alone. -/
def Quiet (body : WordBody) : Prop :=
  ∀ i c s q, (body i c (s.setSeq q)).1 = (body i c s).1 ∧ (body i c (s.setSeq q)).2 = (body i c s).2.setSeq q ∧
    (body i c s).2.agenda = s.agenda ∧ (body i c s).2.params = s.params ∧ (body i c s).2.seq = s.seq

theorem forWords_quiet {body : WordBody} (h : Quiet body) (n i : Nat) (c : Word) (s : State) (q : Sequencer) :
    forWords body n i c (s.setSeq q)
      = ((forWords body n i c s).1, (forWords body n i c s).2.setSeq q) ∧
    (forWords body n i c s).2.agenda = s.agenda ∧ (forWords body n i c s).2.params = s.params ∧
    (forWords body n i c s).2.seq = s.seq := by
  induction n generalizing i c s with
  | zero => exact ⟨rfl, rfl, rfl, rfl⟩
  | succ n ih =>
    obtain ⟨h1, h2, h3, h4, h5⟩ := h i c s q
    obtain ⟨i1, i2, i3, i4⟩ := ih (i + 1) (body i c s).1 (body i c s).2
    simp only [forWords, h1, h2]
    exact ⟨i1, i2.trans h3, i3.trans h4, i4.trans h5⟩

/-- The turns of a loop reach the state its `forWords` gives, with the record past the last word. -/
theorem loop_reaches {body : WordBody} (hq : Quiet body) {len : Nat} {after : Running → State → State} {r : Running}
    {s : State} (ha : s.agenda = []) (hw : ∀ i c, { r with idx := i, carry := c }.wellFormed s.params = true)
    (hh : ∀ i c t, { r with idx := i, carry := c }.held t = false)
    (ht : ∀ i c t, turn { r with idx := i, carry := c } t = loopTurn body len after { r with idx := i, carry := c } t)
    (n i : Nat) (hn : i + n = len) (c : Word) (u : State)
    (hu : u = after { r with idx := len, carry := (forWords body n i c s).1 }
      ((forWords body n i c s).2.run { r with idx := len, carry := (forWords body n i c s).1 })) :
    Reaches (s.run { r with idx := i, carry := c }) u := by
  induction n generalizing i c s with
  | zero =>
    obtain rfl : i = len := by omega
    refine Reaches.head (t := u) ?_ (Reaches.refl u)
    rw [step_turn (s := s.run { r with idx := i, carry := c }) ha rfl (hw i c), hh, ht, loopTurn,
      if_neg (show ¬i < i from Nat.lt_irrefl i), hu]
    rfl
  | succ n ih =>
    obtain ⟨q1, q2, q3, q4, _⟩ := hq i c s (.busy { r with idx := i, carry := c })
    have hstep : step (s.run { r with idx := i, carry := c })
        = .next ((body i c s).2.run { r with idx := i + 1, carry := (body i c s).1 }) := by
      rw [step_turn (s := s.run { r with idx := i, carry := c }) ha rfl (hw i c), hh, ht, loopTurn,
        if_pos (show i < len by omega)]
      simp only [Bool.false_eq_true, if_false]
      show Host.Outcome.next ((body i c (s.setSeq _)).2.run { r with idx := i + 1, carry := (body i c (s.setSeq _)).1 }) = _
      rw [q1, q2]
      rfl
    refine Reaches.head hstep (ih (by rw [q3, ha]) (fun i c => by rw [q4]; exact hw i c) (i + 1) (by omega) _ ?_)
    rw [hu]
    rfl

/-! ### Every word step is quiet -/

theorem State.writeWord_setSeq (s : State) (q : Sequencer) (k : Nat) (v : Word) :
    (s.setSeq q).writeWord k v = (s.writeWord k v).setSeq q := rfl

theorem State.writeScr_setSeq (s : State) (q : Sequencer) (k : Nat) (v : Word) :
    (s.setSeq q).writeScr k v = (s.writeScr k v).setSeq q := rfl

/-- A step that writes one word of `BUFRAM`, computed without the sequencer's state. -/
theorem quiet_ram {body : WordBody} {f g : Nat → Word → State → Word} {k : Nat → Nat}
    (h : ∀ i c s, body i c s = (f i c s, s.writeWord (k i) (g i c s))) (hf : ∀ i c s q, f i c (s.setSeq q) = f i c s)
    (hg : ∀ i c s q, g i c (s.setSeq q) = g i c s) : Quiet body := by
  intro i c s q
  rw [h, h, hf, hg, State.writeWord_setSeq]
  exact ⟨rfl, rfl, State.writeWord_agenda _ _ _, State.writeWord_params _ _ _, State.writeWord_seq _ _ _⟩

/-- A step that writes one word of `SCR`, computed without the sequencer's state. -/
theorem quiet_scr {body : WordBody} {f g : Nat → Word → State → Word} {k : Nat → Nat}
    (h : ∀ i c s, body i c s = (f i c s, s.writeScr (k i) (g i c s))) (hf : ∀ i c s q, f i c (s.setSeq q) = f i c s)
    (hg : ∀ i c s q, g i c (s.setSeq q) = g i c s) : Quiet body := by
  intro i c s q
  rw [h, h, hf, hg, State.writeScr_setSeq]
  exact ⟨rfl, rfl, State.writeScr_agenda _ _ _, State.writeScr_params _ _ _, State.writeScr_seq _ _ _⟩

theorem quiet_zeroWord (base : Nat) : Quiet (zeroWord base) :=
  quiet_ram (fun _ _ _ => rfl) (fun _ _ _ _ => rfl) (fun _ _ _ _ => rfl)

theorem quiet_copyArgsWord (x : Args) : Quiet (copyArgsWord x) :=
  quiet_ram (fun _ _ _ => rfl) (fun _ _ _ _ => rfl) (fun _ _ _ _ => rfl)

theorem quiet_testWord (base : Nat) : Quiet (testWord base) := fun _ _ _ _ => ⟨rfl, rfl, rfl, rfl, rfl⟩

theorem quiet_addWord (base : Nat) : Quiet (addWord base) :=
  quiet_ram (fun _ _ _ => rfl) (fun _ _ _ _ => rfl) (fun _ _ _ _ => rfl)

theorem quiet_mulWord (base : Nat) (w : Word) : Quiet (mulWord base w) :=
  quiet_ram (fun _ _ _ => rfl) (fun _ _ _ _ => rfl) (fun _ _ _ _ => rfl)

theorem quiet_divWord (base len : Nat) (w : Word) : Quiet (divWord base len w) :=
  quiet_ram (k := fun i => base + (len - 1 - i)) (fun _ _ _ => rfl) (fun _ _ _ _ => rfl) (fun _ _ _ _ => rfl)

theorem quiet_addLongWord (x : Args) : Quiet (addLongWord x) :=
  quiet_ram (fun _ _ _ => rfl) (fun _ _ _ _ => rfl) (fun _ _ _ _ => rfl)

theorem quiet_scratchZeroWord : Quiet scratchZeroWord :=
  quiet_scr (fun _ _ _ => rfl) (fun _ _ _ _ => rfl) (fun _ _ _ _ => rfl)

theorem quiet_scratchLoadWord (x : Args) : Quiet (scratchLoadWord x) :=
  quiet_scr (fun _ _ _ => rfl) (fun _ _ _ _ => rfl) (fun _ _ _ _ => rfl)

theorem quiet_scratchMulWord (x : Args) (i : Nat) : Quiet (scratchMulWord x i) :=
  quiet_scr (fun _ _ _ => rfl) (fun _ _ _ _ => rfl) (fun _ _ _ _ => rfl)

theorem quiet_productAddWord (x : Args) (i : Nat) : Quiet (productAddWord x i) :=
  quiet_ram (fun _ _ _ => rfl) (fun _ _ _ _ => rfl) (fun _ _ _ _ => rfl)

/-- A whole phase of the sequencer from its first word: its turns reach what follows the loop, at the state
its `forWords` gives. -/
theorem phase_reaches {body : WordBody} (hq : Quiet body) {len : Nat} {after : Running → State → State} {r : Running}
    {s : State} (ha : s.agenda = []) (hw : r.wellFormed s.params = true) (h0 : r.idx = 0)
    (hh : ∀ i c t, { r with idx := i, carry := c }.held t = false)
    (ht : ∀ i c t, turn { r with idx := i, carry := c } t = loopTurn body len after { r with idx := i, carry := c } t) :
    Reaches (s.run r)
      (after { r with idx := len, carry := (forWords body len 0 r.carry s).1 }
        ((forWords body len 0 r.carry s).2.run { r with idx := len, carry := (forWords body len 0 r.carry s).1 })) := by
  have e : ({ r with idx := 0, carry := r.carry } : Running) = r := by cases r; simp_all
  rw [← e]
  exact loop_reaches hq ha (fun _ _ => hw) hh ht len 0 (by omega) r.carry _ rfl

/-- A turn of a command that is not held. -/
theorem turn_reaches {s u : State} {r : Running} (ha : s.agenda = []) (hw : r.wellFormed s.params = true)
    (hh : r.held (s.run r) = false) (h : Reaches (turn r (s.run r)) u) : Reaches (s.run r) u := by
  refine Reaches.head (t := turn r (s.run r)) ?_ h
  rw [step_turn (s := s.run r) ha rfl hw, hh]
  rfl

end Sys2Proof.Machine
end

