-- ==== Sys2Proof/Tests/Slice0.lean ====
section
/-!
SUPPORT. The model's own tests: the well-formedness smoke, a decoding of every command's word, the spec's
vectors (95_test_vectors.md), and a witness for the hypotheses of every obligation that has some.
-/
namespace Sys2Proof.Tests
open Sys2Proof.Machine

/-! ## Well-formedness refuses an ill-formed term per check -/

theorem test_unassigned_opcode_refused : ({ opc := 0x13, nl := false, reserved := 0 } : Cmd64).wellFormed = false := by decide

theorem test_reserved_bit_refused : ({ opc := 0x30, nl := false, reserved := 1 } : Cmd64).wellFormed = false := by decide

theorem test_nl_on_zero_fill_refused : ({ opc := 0x01, nl := true, reserved := 0 } : Cmd64).wellFormed = false := by decide

theorem test_format_nl_well_formed : ({ opc := 0x31, nl := true, reserved := 0 } : Cmd64).wellFormed = true := by decide

theorem test_params_bounds :
    Params.default.wellFormed = true ∧ ({ n := 0, bufWords := 512, mmioBase := 0 } : Params).wellFormed = false ∧
      ({ n := 16384, bufWords := 65536, mmioBase := 0 } : Params).wellFormed = false ∧
      ({ n := 128, bufWords := 511, mmioBase := 0 } : Params).wellFormed = false ∧
      ({ n := 128, bufWords := 65537, mmioBase := 0 } : Params).wellFormed = false ∧
      ({ n := 16383, bufWords := 65532, mmioBase := 0 } : Params).wellFormed = true := by decide

/-! ## Words written out from R100 and R104: bits 63:9 zero, bit 8 `NL`, bits 7:0 `OPC` -/

theorem test_decode_zeroFill : decode ((0b000000001#9).setWidth 64) = .command .zeroFill := by decide

theorem test_decode_copy : decode ((0b000000010#9).setWidth 64) = .command .copy := by decide

theorem test_decode_isZero : decode ((0b000000011#9).setWidth 64) = .command .isZero := by decide

theorem test_decode_addShort : decode ((0b000010000#9).setWidth 64) = .command .addShort := by decide

theorem test_decode_mulShort : decode ((0b000010001#9).setWidth 64) = .command .mulShort := by decide

theorem test_decode_divShort : decode ((0b000010010#9).setWidth 64) = .command .divShort := by decide

theorem test_decode_addLong : decode ((0b000100000#9).setWidth 64) = .command .addLong := by decide

theorem test_decode_mulLong : decode ((0b000100001#9).setWidth 64) = .command .mulLong := by decide

theorem test_decode_parse : decode ((0b000110000#9).setWidth 64) = .command .parse := by decide

theorem test_decode_format : decode ((0b000110001#9).setWidth 64) = .command (.format false) := by decide

theorem test_decode_format_nl : decode ((0b100110001#9).setWidth 64) = .command (.format true) := by decide

/-- 95_test_vectors.md 2.9. -/
theorem test_decode_faults :
    decode 0x00 = .fault .illegalOpcode ∧ decode 0x13 = .fault .illegalOpcode ∧ decode 0x101 = .fault .reservedField ∧
      decode 0x8000000000000030 = .fault .reservedField := by decide

/-! ## A small machine -/

/-- After reset, with `N` = 4 and `BUF_WORDS` = 16. -/
def small : State := { State.reset with params := { n := 4, bufWords := 16, mmioBase := 0x1000 } }

def setWords (base : Nat) : List Word → State → State
  | [], s => s
  | w :: ws, s => setWords (base + 1) ws (s.writeWord base w)

/-- The argument registers, and words 0 upward. -/
def prepared (a b p len : Half) (w : Word) (ws : List Word) : State :=
  setWords 0 ws { small with args := { a := a, b := b, p := p, len := len, w := w } }

def words (s : State) (base : Nat) : Nat → List Word
  | 0 => []
  | n + 1 => s.readWord base :: words s (base + 1) n

/-- The state a command gives; the state before, where it stops. -/
def ran (i : Instr) (s : State) : State :=
  match exec i s with
  | .next t => t
  | .fault _ => s
  | .refused _ => s

/-- The state a step gives; the state before, where it stops. -/
def stepped (s : State) : State :=
  match step s with
  | .next t => t
  | .fault _ => s
  | .refused _ => s

def planned (a : HostAction) (s : State) : State := s.setAgenda [.now a]

/-- All ones, the `M` of 95_test_vectors.md. -/
def M : Word := 0xFFFFFFFFFFFFFFFF

/-- The items of a line. -/
def line (bs : List Byte) : List InItem := bs.map .byte

/-! ## The spec's vectors -/

/-- 2.1, the carry into the next word. -/
theorem test_addShort_carries :
    let t := ran .addShort (prepared 0 0 0 2 1 [M, 0])
    words t 0 2 = [0, 1] ∧ t.result = 0 ∧ t.status.word = 0x2 := by decide +kernel

/-- 2.1, the wrap, and the zero-length row. -/
theorem test_addShort_wraps :
    let t := ran .addShort (prepared 0 0 0 2 M [0xFFFFFFFFFFFFFFFE, M])
    let u := ran .addShort (prepared 0 0 0 0 9 [])
    words t 0 2 = [0xFFFFFFFFFFFFFFFD, 0] ∧ t.result = 1 ∧ t.status.word = 0x12 ∧ u.result = 9 ∧
      u.status.word = 0x12 := by decide +kernel

/-- 2.2. -/
theorem test_mulShort :
    let t := ran .mulShort (prepared 0 0 0 2 10 [M, M])
    let u := ran .mulShort (prepared 0 0 0 2 M [M, 0])
    words t 0 2 = [0xFFFFFFFFFFFFFFF6, M] ∧ t.result = 9 ∧ t.status.word = 0x12 ∧
      words u 0 2 = [1, 0xFFFFFFFFFFFFFFFE] ∧ u.result = 0 ∧ u.status.word = 0x2 := by decide +kernel

/-- 2.3. -/
theorem test_divShort :
    let t := ran .divShort (prepared 0 0 0 2 10 [0, 1])
    let u := ran .divShort (prepared 0 0 0 2 M [M, M])
    words t 0 2 = [0x1999999999999999, 0] ∧ t.result = 6 ∧ t.status.word = 0x2 ∧ words u 0 2 = [1, 1] ∧
      u.result = 0 := by decide +kernel

/-- 2.3, the last row. -/
theorem test_divShort_by_zero :
    let t := ran .divShort (prepared 0 0 0 1 0 [0x64])
    words t 0 1 = [0x64] ∧ t.result = 0 ∧ t.status.word = 0x604 := by decide +kernel

/-- 2.4. -/
theorem test_addLong :
    let t := ran .addLong (prepared 0 2 0 2 0 [M, 0, M, 0])
    let u := ran .addLong (prepared 0 2 0 2 0 [M, M, 1, 0])
    words t 0 4 = [0xFFFFFFFFFFFFFFFE, 1, M, 0] ∧ t.result = 0 ∧ t.status.word = 0x2 ∧ words u 0 2 = [0, 0] ∧
      u.result = 1 ∧ u.status.word = 0x12 := by decide +kernel

/-- 2.4, overlapping and equal ranges. -/
theorem test_addLong_alias :
    (ran .addLong (prepared 0 1 0 2 0 [])).status.word = 0x504 ∧
      (ran .addLong (prepared 0 0 0 1 0 [])).status.word = 0x504 := by decide +kernel

/-- 2.5. -/
theorem test_mulLong :
    let t := ran .mulLong (prepared 0 2 4 2 0 [M, M, M, M])
    words t 4 4 = [1, 0, 0xFFFFFFFFFFFFFFFE, M] ∧ words t 0 4 = [M, M, M, M] ∧ t.status.word = 0x2 := by decide +kernel

/-- 2.5, one range for both factors; `LEN` = `N` + 1; the product over a factor. -/
theorem test_mulLong_square_and_faults :
    words (ran .mulLong (prepared 0 0 4 2 0 [3, 0])) 4 4 = [9, 0, 0, 0] ∧
      (ran .mulLong (prepared 0 0 4 5 0 [])).status.word = 0x304 ∧
      (ran .mulLong (prepared 0 1 1 2 0 [])).status.word = 0x504 := by decide +kernel

/-- 2.6: "123\n", then `End` kept after "12". -/
theorem test_parse :
    let t := ran .parse { prepared 0 0 0 2 0 [] with input := line [0x31, 0x32, 0x33, 0x0A] }
    let u := ran .parse { prepared 0 0 0 1 0 [] with input := line [0x31, 0x32] ++ [.endItem] }
    words t 0 2 = [0x7B, 0] ∧ t.result = 3 ∧ t.status.word = 0x2 ∧ t.input = [] ∧ words u 0 1 = [0xC] ∧
      u.input = [.endItem] := by decide +kernel

/-- 2.6: "12a3\n456\n" and `End` as the first item. -/
theorem test_parse_terminates :
    let t := ran .parse { prepared 0 0 0 2 0 [] with
      input := line [0x31, 0x32, 0x61, 0x33, 0x0A, 0x34, 0x35, 0x36, 0x0A], diagReady := 21 }
    let u := ran .parse { prepared 0 0 0 2 0 [] with input := [.endItem] }
    t.status.word = 0x8 ∧ t.exit = 1 ∧ t.input = line [0x34, 0x35, 0x36, 0x0A] ∧
      t.diag = [0x49, 0x6E, 0x76, 0x61, 0x6C, 0x69, 0x64, 0x20, 0x63, 0x68, 0x61, 0x72, 0x61, 0x63, 0x74, 0x65, 0x72,
        0x3A, 0x20, 0x61, 0x0A] ∧
      u.status.word = 0x8 ∧ u.exit = 2 ∧ u.diag = [] ∧ u.input = [.endItem] := by decide +kernel

/-- 2.7: "56088\n" and the zero operand. -/
theorem test_format :
    let t := ran (.format true) { prepared 0 0 0 2 0 [0xDB18, 0] with outReady := 6 }
    let u := ran (.format true) { prepared 0 0 0 2 0 [0, 0] with outReady := 2 }
    t.output = [0x35, 0x36, 0x30, 0x38, 0x38, 0x0A] ∧ t.result = 5 ∧ words t 0 2 = [0, 0] ∧ t.status.word = 0x2 ∧
      u.output = [0x30, 0x0A] ∧ u.result = 1 := by decide +kernel

/-- 2.7: [0x5] without the newline, and `LEN` = `2 N` + 1. -/
theorem test_format_plain_and_length :
    (ran (.format false) { prepared 0 0 0 1 0 [5] with outReady := 1 }).output = [0x35] ∧
      (ran (.format false) (prepared 0 0 0 9 0 [])).status.word = 0x304 := by decide +kernel

/-- 2.8. -/
theorem test_isZero :
    let t := ran .isZero (prepared 0 0 0 2 0 [0, 0])
    let u := ran .isZero (prepared 0 0 0 2 0 [0, 1])
    t.result = 1 ∧ t.status.word = 0x22 ∧ u.result = 0 ∧ u.status.word = 0x2 := by decide +kernel

/-- 2.8. -/
theorem test_copy :
    let t := ran .copy (prepared 0 8 0 2 0 [9, 9, 9, 9, 9, 9, 9, 9, 1, 2])
    words t 0 2 = [1, 2] ∧ words t 8 2 = [1, 2] ∧ t.result = 0 ∧
      (ran .copy (prepared 0 1 0 2 0 [])).status.word = 0x504 := by decide +kernel

/-- 2.8. -/
theorem test_zeroFill :
    let t := ran .zeroFill (prepared 0 0 0 3 0 [5, 6, 7, 8])
    words t 0 4 = [0, 0, 0, 8] ∧ t.status.word = 0x2 := by decide +kernel

/-- 2.9: the bounds at their edges, and BOUNDS before DIVIDE_BY_ZERO, LENGTH before ALIAS. -/
theorem test_checks_at_their_edges :
    (ran .zeroFill (prepared 15 0 0 2 0 [])).status.word = 0x404 ∧
      (ran .zeroFill (prepared 16 0 0 0 0 [])).status.word = 0x2 ∧
      (ran .zeroFill (prepared 17 0 0 0 0 [])).status.word = 0x404 ∧
      (ran .divShort (prepared 15 0 0 2 0 [])).status.word = 0x404 ∧
      (ran .mulLong (prepared 0 1 1 5 0 [])).status.word = 0x304 := by decide +kernel

/-! ## Steps -/

/-- The placed word runs at once after reset: ZERO_FILL with `LEN` = 0 completes. -/
theorem test_placed_word_completes : (stepped (State.reset.withFetchWord 64 0x01)).status.word = 0x2 := by decide +kernel

/-- A placed PARSE waits for its first item. -/
theorem test_placed_parse_holds : (stepped (State.reset.withFetchWord 64 0x30)).status.word = 0x1 := by decide +kernel

/-- 2.9: a `CMD` write while `FAULT` = 1 sets `HAZ` only. -/
theorem test_blocked_write :
    (stepped (planned (.write 0x1010 64 0x01) (ran .divShort (prepared 0 0 0 1 0 [])))).status.word = 0x644 := by
  decide +kernel

/-! ## Witnesses: a state and operands that meet the hypotheses of each obligation -/

/-- A host that is about to do `a`, and nothing after it. -/
def about (a : HostAction) : State := planned a small

/-- PARSE has only started: the host's next action falls during it. -/
def busy : State := stepped (small.setAgenda [.now (.write 0x1010 64 0x30), .turn])

/-- IS_ZERO of an empty range has started; the next turn ends it. -/
def lastTurn : State := { stepped (small.setAgenda [.now (.write 0x1010 64 0x03), .turn]) with agenda := [] }

def faulted : State := ran .divShort (prepared 0 0 0 1 0 [])

def terminated : State := ran .parse { prepared 0 0 0 0 0 [] with input := [.endItem] }

theorem witness_DecodeInvertsEncode : decode 0x131 = .command (.format true) ∧ encode (.format true) = 0x131 := by decide

/-- Each clause at the edge of its range. -/
theorem witness_DecodeIsTotalInTheOrderOfTheRule :
    decode 0x32 = .fault .illegalOpcode ∧ decode 0x200 = .fault .illegalOpcode ∧ decode 0x201 = .fault .reservedField ∧
      decode 0x8000000000000131 = .fault .reservedField ∧ decode 0x130 = .fault .reservedField ∧
      decode 0x31 = .command (.format false) ∧ decode 0x131 = .command (.format true) := by decide

theorem witness_StepRunsTheDecodedCommand :
    (about (.write (small.params.mmioBase + 0x010) 64 0x10)).nextAction
        = some (.write (small.params.mmioBase + 0x010) 64 0x10) ∧
      decode 0x10 = .command .addShort ∧
      (about (.write (small.params.mmioBase + 0x010) 64 0x10)).popped.overlapped = false ∧
      (small.setAgenda [.now (.write (small.params.mmioBase + 0x010) 64 0x10), .turn]).nextAction
        = some (.write (small.params.mmioBase + 0x010) 64 0x10) ∧
      (small.setAgenda [.now (.write (small.params.mmioBase + 0x010) 64 0x10), .turn]).popped.overlapped = true := by
  decide

theorem witness_TurnsReachTheCommandsEffect : small.agenda = [] := rfl

theorem witness_RunningCommandIgnoresArgumentRegisters :
    busy.status.busy = true ∧ ∃ t, sequencerTurn (busy.setAgenda []) = .next t := by
  refine ⟨by decide +kernel, ⟨_, rfl⟩⟩

theorem witness_ResetValues : (about .reset).nextAction = some .reset := by decide

theorem witness_StepKeepsTheInvariant :
    busy.inv = true ∧ faulted.inv = true ∧ terminated.inv = true ∧ ∃ t, step small = .next t :=
  ⟨by decide +kernel, by decide +kernel, by decide +kernel, ⟨_, rfl⟩⟩

theorem witness_FlagRulesHold :
    busy.inv = true ∧ busy.status.busy = true ∧ terminated.inv = true ∧ terminated.status.term = true ∧
      (ran .isZero small).inv = true ∧ (ran .isZero small).status.done = true := by decide +kernel

theorem witness_EveryStepHasANextState : State.reset.inv = true := by decide +kernel

theorem witness_ParamIsConstant :
    small.params.wellFormed = true ∧
      (about (.read (small.params.mmioBase + 0x000) 64)).nextAction = some (.read (small.params.mmioBase + 0x000) 64) ∧
      (about (.write (small.params.mmioBase + 0x000) 64 M)).nextAction
        = some (.write (small.params.mmioBase + 0x000) 64 M) ∧ ∃ t, step small = .next t :=
  ⟨by decide, by decide, by decide, ⟨_, rfl⟩⟩

theorem witness_OnlyResetLeavesTermination :
    terminated.inv = true ∧ terminated.status.term = true ∧ (planned .reset terminated).nextAction = some .reset ∧
      (planned (.write 0x1008 64 M) terminated).nextAction ≠ some .reset ∧
      (stepped (planned (.write 0x1008 64 M) terminated)).exit = 2 ∧ ∃ t, step (planned .reset terminated) = .next t :=
  ⟨by decide +kernel, by decide +kernel, by decide +kernel, by decide +kernel, by decide +kernel, ⟨_, rfl⟩⟩

theorem witness_FaultStaysUntilCleared :
    faulted.inv = true ∧ faulted.status.fault = true ∧ (stepped (planned (.write 0x1008 64 0x40) faulted)).status.fault = true ∧
      (stepped (planned (.write 0x1008 64 0x4) faulted)).status.word = 0 ∧ ∃ t, step (planned .reset faulted) = .next t :=
  ⟨by decide +kernel, by decide +kernel, by decide +kernel, by decide +kernel, ⟨_, rfl⟩⟩

/-- Each disjunct: an access, the turn that ends a running command, a `CMD` write, and a reset. -/
theorem witness_ResultChangesOnlyAtCompletion :
    (∃ t, step small = .next t) ∧ (stepped lastTurn).result = 1 ∧ lastTurn.nextAction = none ∧
      (∃ r, lastTurn.seq = .busy r) ∧ (stepped lastTurn).seq = .idle ∧
      (stepped (about (.write 0x1010 64 0x03))).result = 1 ∧ decode 0x03 = .command .isZero ∧
      small.status.blocked = false ∧ (about .reset).nextAction = some .reset :=
  ⟨⟨_, rfl⟩, by decide +kernel, by decide +kernel, ⟨_, rfl⟩, by decide +kernel, by decide +kernel, by decide, by decide,
    by decide⟩

theorem witness_StreamsBelongToTheirCommands :
    (∃ t, exec .copy small = .next t) ∧ (∃ t, exec .parse small = .next t) ∧ ∃ t, exec (.format true) small = .next t :=
  ⟨⟨_, rfl⟩, ⟨_, rfl⟩, ⟨_, rfl⟩⟩

/-- The word below and the word above a written range. -/
theorem witness_CommandWritesOnlyItsRange :
    (∃ t, exec .zeroFill (prepared 1 0 0 1 0 [7, 7, 7]) = .next t) ∧
      words (ran .zeroFill (prepared 1 0 0 1 0 [7, 7, 7])) 0 3 = [7, 0, 7] :=
  ⟨⟨_, rfl⟩, by decide +kernel⟩

theorem witness_InternalBuffersDoNotMatter :
    small.params.wellFormed = true ∧ ∃ t, exec .mulLong (prepared 0 2 4 2 0 [1, 2, 3, 4]) = .next t :=
  ⟨by decide, ⟨_, rfl⟩⟩

/-- A completion, a fault, a termination and a hold. -/
theorem witness_UnusedArgumentsAreIgnored :
    (prepared 0 2 4 2 3 [5]).status.blocked = false ∧
      (∃ t, exec .addLong (prepared 0 2 4 2 3 [5]) = .next t) ∧
      (ran .addLong (prepared 0 2 4 2 3 [5])).status.busy = false ∧
      (ran .addLong (prepared 0 1 4 2 3 [5])).status.word = 0x504 ∧ terminated.status.busy = false ∧
      (ran .parse (prepared 0 0 0 1 0 [])).status.busy = true :=
  ⟨by decide +kernel, ⟨_, rfl⟩, by decide +kernel, by decide +kernel, by decide +kernel, by decide +kernel⟩

/-- A block that takes commands, and a range that ends at the end of `BUFRAM`. -/
theorem witness_ready_to_the_end :
    (prepared 14 0 0 2 3 []).ready ∧ 14 + 2 ≤ (prepared 14 0 0 2 3 []).params.bufWords ∧
      (prepared 14 0 0 2 3 []).args.w ≠ 0 := by
  refine ⟨⟨rfl, rfl, rfl⟩, by decide +kernel, by decide +kernel⟩

theorem witness_AddShortAddsTheWord : (prepared 14 0 0 2 3 []).ready ∧ 14 + 2 ≤ (prepared 14 0 0 2 3 []).params.bufWords :=
  ⟨witness_ready_to_the_end.1, witness_ready_to_the_end.2.1⟩

theorem witness_MulShortMultipliesByTheWord :
    (prepared 14 0 0 2 3 []).ready ∧ 14 + 2 ≤ (prepared 14 0 0 2 3 []).params.bufWords :=
  ⟨witness_ready_to_the_end.1, witness_ready_to_the_end.2.1⟩

theorem witness_MultiplyingByZeroIsZero :
    (prepared 0 0 0 2 0 [5, 7]).ready ∧ 0 + 2 ≤ (prepared 0 0 0 2 0 [5, 7]).params.bufWords ∧
      (prepared 0 0 0 2 0 [5, 7]).args.w = 0 := ⟨⟨rfl, rfl, rfl⟩, by decide +kernel, by decide +kernel⟩

theorem witness_DivShortDividesByTheWord :
    (prepared 14 0 0 2 3 []).ready ∧ 14 + 2 ≤ (prepared 14 0 0 2 3 []).params.bufWords ∧
      (prepared 14 0 0 2 3 []).args.w ≠ 0 := witness_ready_to_the_end

theorem witness_DivisionByZeroFaults :
    (prepared 0 0 0 1 0 [0x64]).ready ∧ 0 + 1 ≤ (prepared 0 0 0 1 0 [0x64]).params.bufWords ∧
      (prepared 0 0 0 1 0 [0x64]).args.w = 0 := ⟨⟨rfl, rfl, rfl⟩, by decide +kernel, by decide +kernel⟩

/-- Adjacent ranges. -/
theorem witness_AddLongAddsTheBuffers :
    (prepared 0 2 0 2 0 [M, M, 1, 0]).ready ∧ 2 + 2 ≤ (prepared 0 2 0 2 0 [M, M, 1, 0]).params.bufWords ∧ apart 0 2 2 2 :=
  ⟨⟨rfl, rfl, rfl⟩, by decide +kernel, by unfold apart; decide⟩

/-- `LEN` = `N`, one range for both factors, the product right above it. -/
theorem witness_MulLongMultipliesTheBuffers :
    (prepared 0 0 4 4 0 [3, 0, 0, 0]).ready ∧ 4 ≤ (prepared 0 0 4 4 0 []).params.n ∧
      4 + 2 * 4 ≤ (prepared 0 0 4 4 0 []).params.bufWords ∧ apart 4 (2 * 4) 0 4 :=
  ⟨⟨rfl, rfl, rfl⟩, by decide +kernel, by decide +kernel, by unfold apart; decide⟩

theorem witness_IsZeroTestsTheBuffer :
    (prepared 0 0 0 2 0 [0, 0]).ready ∧ (prepared 0 0 0 2 0 [0, 0]).val 0 2 = 0 ∧ (prepared 0 0 0 2 0 [0, 1]).val 0 2 ≠ 0 :=
  ⟨⟨rfl, rfl, rfl⟩, by decide +kernel, by decide +kernel⟩

theorem witness_CopyCopiesTheWords :
    (prepared 2 0 0 2 0 [1, 2]).ready ∧ 2 + 2 ≤ (prepared 2 0 0 2 0 []).params.bufWords ∧ apart 2 2 0 2 :=
  ⟨⟨rfl, rfl, rfl⟩, by decide +kernel, by unfold apart; decide⟩

theorem witness_ZeroFillClearsTheBuffer :
    (prepared 0 0 0 16 0 []).ready ∧ 0 + 16 ≤ (prepared 0 0 0 16 0 []).params.bufWords :=
  ⟨⟨rfl, rfl, rfl⟩, by decide +kernel⟩

/-- Both ways a numeral ends. -/
theorem witness_ParseReadsTheNumeral :
    small.ready ∧ 0 + 0 ≤ small.params.bufWords ∧ (∀ d ∈ [0, 9], d ≤ 9) ∧
      line [0x30, 0x39, 0x0A, 0x35] = digitItems [0, 9] ++ .byte 0x0A :: line [0x35] ∧
      line [0x30, 0x39] ++ [.endItem] = digitItems [0, 9] ++ [.endItem] ∧ [0, 9] ≠ [] ∧
      [InItem.endItem].head? = some .endItem :=
  ⟨⟨rfl, rfl, rfl⟩, by decide, by decide, by decide, by decide, by decide, rfl⟩

theorem witness_EndBeforeADigitTerminates :
    (prepared 14 0 0 2 0 []).ready ∧ 14 + 2 ≤ (prepared 14 0 0 2 0 []).params.bufWords ∧
      ({ small with input := [.endItem] } : State).input = .endItem :: [] := ⟨⟨rfl, rfl, rfl⟩, by decide +kernel, rfl⟩

/-- The bytes next to the digits, a line that ends with its newline and one that ends with the stream. -/
theorem witness_InvalidByteTerminates :
    small.ready ∧ (0x2F : Byte) ≠ 0x0A ∧ (0x2F : Byte).toNat < 0x30 ∧ (0x3A : Byte) ≠ 0x0A ∧ 0x39 < (0x3A : Byte).toNat ∧
      (0x0A : Byte) ∉ ([0x33, 0x61] : List Byte) ∧ 21 ≤ ({ small with diagReady := 21 } : State).diagReady ∧
      line [0x31, 0x2F, 0x33, 0x61, 0x0A, 0x34]
        = digitItems [1] ++ .byte 0x2F :: (([0x33, 0x61] : List Byte).map .byte ++ .byte 0x0A :: line [0x34]) ∧
      line [0x3A] ++ [.endItem] = digitItems [] ++ .byte 0x3A :: (([] : List Byte).map .byte ++ [.endItem]) :=
  ⟨⟨rfl, rfl, rfl⟩, by decide, by decide, by decide, by decide, by decide, by decide, by decide, by decide⟩

/-- Each clause; 20 and 21 accepted bytes, the bytes next to the digits, no digit and one. -/
theorem witness_ParseHoldsForAnItem :
    small.ready ∧ ({ small with input := line [0x37] } : State).input = digitItems [7] ∧ digitItems [] = [] ∧
      (0x2F : Byte) ≠ 0x0A ∧ (0x2F : Byte).toNat < 0x30 ∧ (0x3A : Byte) ≠ 0x0A ∧ 0x39 < (0x3A : Byte).toNat ∧
      ({ small with diagReady := 20 } : State).diagReady < 21 ∧ 21 ≤ ({ small with diagReady := 21 } : State).diagReady ∧
      line [0x37, 0x2F, 0x0A] = digitItems [7] ++ .byte 0x2F :: line [0x0A] ∧ (0x0A : Byte) ∉ ([0x31] : List Byte) ∧
      line [0x3A, 0x31] = digitItems [] ++ .byte 0x3A :: ([0x31] : List Byte).map .byte :=
  ⟨⟨rfl, rfl, rfl⟩, by decide, rfl, by decide, by decide, by decide, by decide, by decide, by decide, by decide,
    by decide, by decide⟩

/-- PARSE held while it discards the rest of a line. -/
def skipping : State := ran .parse { prepared 0 0 0 1 0 [] with input := line [0x2D], diagReady := 21 }

theorem witness_InvalidCharacterIsFinal :
    ∃ r t, skipping.seq = .busy r ∧ r.parseState = some .invalidCharacter ∧ sequencerTurn skipping = .next t ∧
      t.seq = .busy r := ⟨_, _, rfl, rfl, rfl, rfl⟩

theorem witness_FormatWritesTheDecimalText :
    ({ prepared 0 0 0 8 0 [0, 0, 0, 0, 0, 0, 0, 0] with outReady := 2 } : State).ready ∧ small.params.wellFormed = true ∧
      8 ≤ 2 * small.params.n ∧ 0 + 8 ≤ small.params.bufWords ∧
      (decimalBytes ((prepared 0 0 0 8 0 [0, 0, 0, 0, 0, 0, 0, 0]).val 0 8)).length + 1 ≤ 2 :=
  ⟨⟨rfl, rfl, rfl⟩, by decide, by decide, by decide, by decide +kernel⟩

theorem witness_FormatHoldsForAcceptance :
    ({ prepared 0 0 0 0 0 [] with outReady := 1 } : State).ready ∧ small.params.wellFormed = true ∧
      1 < (decimalBytes ((prepared 0 0 0 0 0 []).val 0 0)).length + 1 ∧
      0 < (decimalBytes ((prepared 0 0 0 0 0 []).val 0 0)).length + 0 :=
  ⟨⟨rfl, rfl, rfl⟩, by decide, by decide +kernel, by decide +kernel⟩

theorem witness_DigitBufferIsLargeEnough :
    ({ n := 1, bufWords := 4, mmioBase := 0 } : Params).wellFormed = true ∧
      ({ n := 16383, bufWords := 65536, mmioBase := 0 } : Params).wellFormed = true := by decide

/-- "007". -/
theorem witness_FormatOfParseIsCanonical :
    small.params.wellFormed = true ∧ (∀ d ∈ [0, 0, 7], d ≤ 9) ∧
      line [0x30, 0x30, 0x37, 0x0A] = digitItems [0, 0, 7] ++ .byte 0x0A :: [] ∧
      numeralValue [0, 0, 7] < 2 ^ (64 * 2) ∧ decimalBytes (numeralValue [0, 0, 7]) = [0x37] := by
  refine ⟨by decide, by decide, by decide, by decide +kernel, ?_⟩
  simp [numeralValue, Nat.ofDigits, decimalBytes]

theorem witness_ZeroLengthCommandsComplete :
    (prepared 16 0 0 0 9 []).ready ∧ (prepared 16 0 0 0 9 []).args.len = 0 ∧
      16 ≤ (prepared 16 0 0 0 9 []).params.bufWords := ⟨⟨rfl, rfl, rfl⟩, by decide +kernel, by decide +kernel⟩

theorem witness_DeliveredItemsJoinInOrder :
    (about (.deliver .endItem)).nextAction = some (.deliver .endItem) ∧ .endItem ∉ small.input ∧
      InItem.endItem ∈ ({ small with input := [.endItem] } : State).input := by decide

/-- Every clause, and the neighbours of its edge. -/
theorem witness_ChecksRunInOrder :
    (ran .mulLong (prepared 0 4 8 5 0 [])).status.word = 0x304 ∧ (ran (.format false) (prepared 0 0 0 9 0 [])).status.word = 0x304 ∧
      (ran .copy (prepared 0 15 0 2 0 [])).status.word = 0x404 ∧ (ran .copy (prepared 0 14 0 2 0 [])).status.word = 0x2 ∧
      (ran .mulLong (prepared 0 2 9 4 0 [])).status.word = 0x404 ∧ (ran .mulLong (prepared 0 0 3 4 0 [])).status.word = 0x504 ∧
      (ran .divShort (prepared 16 0 0 0 0 [])).status.word = 0x604 := by decide +kernel

theorem witness_IllegalWordsFault :
    small.ready ∧ (about (.write (small.params.mmioBase + 0x010) 64 0x32)).nextAction
        = some (.write (small.params.mmioBase + 0x010) 64 0x32) ∧
      (0x32 : Word).toNat % 256 ∉ [0x01, 0x02, 0x03, 0x10, 0x11, 0x12, 0x20, 0x21, 0x30, 0x31] ∧
      (0x130 : Word).toNat / 256 % 2 = 1 ∧ (0x130 : Word).toNat % 256 ≠ 0x31 ∧ (0x231 : Word).toNat / 512 ≠ 0 :=
  ⟨⟨rfl, rfl, rfl⟩, by decide, by decide, by decide, by decide, by decide⟩

theorem witness_BlockedCommandsAreDropped :
    busy.status.busy = true ∧ faulted.status.fault = true ∧ terminated.status.term = true ∧
      (planned (.write (small.params.mmioBase + 0x010) 64 0x01) busy).nextAction
        = some (.write (small.params.mmioBase + 0x010) 64 0x01) := by decide +kernel

/-- A narrow access, a wide one, and a misaligned one at the last byte of the window. -/
theorem witness_MisalignedAccessesAreRefused :
    (about (.read (small.params.mmioBase + 0x000) 32)).nextAction = some (.read (small.params.mmioBase + 0x000) 32) ∧
      (about (.write (small.params.mmioBase + 0x8FFFF) 64 1)).nextAction
        = some (.write (small.params.mmioBase + 0x8FFFF) 64 1) ∧ (0x8FFFF : Nat) < 0x90000 ∧ 0x8FFFF % 8 ≠ 0 := by decide

/-- Both reserved ranges at both ends, and both sides of the window. -/
theorem witness_ReservedOffsetsReadZero :
    targetAt small.params 0x050 = .reserved ∧ targetAt small.params 0xFFF8 = .reserved ∧
      targetAt small.params (0x10000 + 8 * 16) = .reserved ∧ targetAt small.params 0x8FFF8 = .reserved ∧
      (stepped (about (.read 0xFFF 64))).reply = .undecoded ∧ (stepped (about (.read (0x1000 + 0x90000) 8))).reply = .undecoded ∧
      (stepped (about (.read (0x1000 + 0x8FFF8) 64))).reply = .data 0 := by decide +kernel

/-- The first and the last offset of each clause. -/
theorem witness_BusyAccessesAreDropped :
    busy.status.busy = true ∧ (stepped (planned (.write 0x1018 64 1) busy)).status.word = 0x41 ∧
      (stepped (planned (.write 0x1038 64 1) busy)).status.word = 0x41 ∧
      (stepped (planned (.write (0x11000 + 8 * 15) 64 1) busy)).status.word = 0x41 ∧
      (stepped (planned (.read 0x11000 64) busy)).reply = .data 0 ∧
      (stepped (planned (.write 0x1010 64 1) busy)).status.word = 0x41 := by decide +kernel

theorem witness_RegisterReads :
    (about (.read (small.params.mmioBase + 0x008) 64)).nextAction = some (.read (small.params.mmioBase + 0x008) 64) ∧
      (stepped (planned (.read 0x1048 64) terminated)).reply = .data 2 ∧
      (stepped (planned (.read 0x1030 64) (prepared 0 0 0 0xFFFF 0 []))).reply = .data 0xFFFF := by decide +kernel

theorem witness_RegisterWrites :
    small.status.busy = false ∧
      (about (.write (small.params.mmioBase + 0x018) 64 M)).nextAction
        = some (.write (small.params.mmioBase + 0x018) 64 M) ∧
      (stepped (about (.write 0x1018 64 M))).args.a = 0xFFFF ∧ (stepped (about (.write 0x1038 64 M))).args.w = M ∧
      (stepped (about (.write 0x1040 64 M))).result = 0 := by decide +kernel

theorem witness_StatusWriteClears :
    (about (.write (small.params.mmioBase + 0x008) 64 M)).nextAction
      = some (.write (small.params.mmioBase + 0x008) 64 M) := by decide

/-- The last word of `BUFRAM`. -/
theorem witness_RamWindowReadsAndWrites :
    small.status.busy = false ∧ 15 < small.params.bufWords ∧
      (about (.write (small.params.mmioBase + (0x10000 + 8 * 15)) 64 M)).nextAction
        = some (.write (small.params.mmioBase + (0x10000 + 8 * 15)) 64 M) ∧
      (stepped (about (.write (0x11000 + 8 * 15) 64 M))).readWord 15 = M := by decide +kernel

/-- The first and the last lane. -/
theorem witness_LanesAreLittleEndian :
    (small.writeWord 2 0x8877665544332211).readByte (8 * 2 + 0) = 0x11 ∧
      (small.writeWord 2 0x8877665544332211).readByte (8 * 2 + 7) = 0x88 := by decide +kernel

theorem witness_BufferCommandFrame :
    (∃ t, exec .addLong (prepared 0 2 0 2 0 [M, M, 1, 0]) = .next t) ∧
      Instr.addLong ∈ ([.zeroFill, .copy, .isZero, .addShort, .mulShort, .divShort, .addLong] : List Instr) :=
  ⟨⟨_, rfl⟩, by decide⟩

theorem witness_MulLongFrame : ∃ t, exec .mulLong (prepared 0 2 4 2 0 [1, 2, 3, 4]) = .next t := ⟨_, rfl⟩

/-- Each of the five ways: a drop, a fault, a completion, holds in both states, a termination. -/
theorem witness_ParseFrame :
    (∃ t, exec .parse small = .next t) ∧ (ran .parse faulted).status.word = 0x644 ∧
      (ran .parse (prepared 17 0 0 0 0 [])).status.word = 0x404 ∧
      (ran .parse { small with input := line [0x0A] }).status.word = 0x2 ∧ (ran .parse small).status.word = 0x1 ∧
      skipping.status.word = 0x1 ∧ terminated.status.word = 0x8 :=
  ⟨⟨_, rfl⟩, by decide +kernel, by decide +kernel, by decide +kernel, by decide +kernel, by decide +kernel,
    by decide +kernel⟩

/-- Each of the four ways: a drop, a fault, a completion, a hold. -/
theorem witness_FormatFrame :
    (∃ t, exec (.format true) small = .next t) ∧ (ran (.format true) faulted).status.word = 0x644 ∧
      (ran (.format true) (prepared 0 0 0 9 0 [])).status.word = 0x304 ∧
      (ran (.format true) { small with outReady := 2 }).status.word = 0x2 ∧
      (ran (.format true) { small with outReady := 1 }).status.word = 0x1 :=
  ⟨⟨_, rfl⟩, by decide +kernel, by decide +kernel, by decide +kernel, by decide +kernel⟩

/-! ## Host programs -/

/-- P1 of 95_test_vectors.md: the writes of its `MUL_LONG 256, 0, 128, 128`, with the argument writes R108 gives. -/
theorem test_command_line_expands :
    (CommandLine.mulLong 256 0 128 128).accesses 0
      = [.write 0x018 64 0, .write 0x020 64 0x80, .write 0x028 64 0x100, .write 0x030 64 0x80, .write 0x010 64 0x21] ∧
    (CommandLine.formatNl 256 256).accesses 0
      = [.write 0x018 64 0x100, .write 0x030 64 0x100, .write 0x010 64 0x131] := by decide

/-- R107, R302. -/
theorem test_command_line_text :
    (CommandLine.mulLong 256 0 128 128).text = "MUL_LONG 256, 0, 128, 128" ∧
      (CommandLine.formatNl 256 256).text = "FORMAT.NL 256, 256" := by decide +kernel

/-- R107: decimal and hexadecimal numbers, and a comment. -/
theorem test_command_line_reads :
    CommandLine.ofText "  MUL_LONG  0x100, 0, 128, 0x80   ; product".toList = some (.mulLong 256 0 128 128) ∧
      CommandLine.ofText "ADD_SHORT 0, 3, 0xFFFFFFFFFFFFFFFF".toList = some (.addShort 0 3 M) ∧
      CommandLine.ofText "PARSE 0".toList = none ∧ CommandLine.ofText "PARSE 65536, 1".toList = none := by decide +kernel

/-- R301 at `N` = 128. -/
theorem test_driver_layout :
    (driver Params.default).take 1 = [.command (.parse 0x000 0x080)] ∧
      (driver Params.default).drop 6 = [.command (.mulLong 0x100 0x000 0x080 0x080), .command (.formatNl 0x100 0x100), .stop 0] := by
  decide

/-- What `STATUS` shows the driver after a termination makes it read `EXIT` and stop (R302). -/
theorem test_driver_stops :
    (match hostTurn { ops := [.stopIfTerm], exit := none, block := { terminated with reply := .data terminated.status.word } } with
      | .next h => h.ops
      | .fault _ => []
      | .refused _ => []) = [.access (.read (0x1000 + 0x048) 64), .stopWithExit] := by decide +kernel

theorem witness_CommandLineRunsItsCommand :
    small.status.busy = false ∧
      ∃ t, exec (CommandLine.mulLong 8 0 4 4).instr
        { small with agenda := [], reply := .ack, args := (CommandLine.mulLong 8 0 4 4).args small.args } = .next t :=
  ⟨rfl, ⟨_, rfl⟩⟩

/-- Idle and busy, and the last word of `BUFRAM`. -/
theorem witness_PseudoInstructionsAct :
    small.status.busy = false ∧ busy.status.busy = true ∧
      (∃ t, sequencerTurn { busy with agenda := [], reply := .data busy.status.word } = .next t) ∧
      15 < small.params.bufWords := ⟨rfl, by decide +kernel, ⟨_, rfl⟩, by decide⟩

/-- "12", newline, "3", newline; and the multiplier ended by `End`. -/
theorem witness_DriverMultipliesTheNumerals :
    ({ small with outReady := 3 } : State).ready ∧ small.params.wellFormed = true ∧ (∀ d ∈ [1, 2], d ≤ 9) ∧
      (∀ d ∈ [3], d ≤ 9) ∧
      line [0x31, 0x32, 0x0A, 0x33, 0x0A] = digitItems [1, 2] ++ .byte 0x0A :: (digitItems [3] ++ [.byte 0x0A]) ∧
      line [0x31, 0x32, 0x0A, 0x33] ++ [.endItem] = digitItems [1, 2] ++ .byte 0x0A :: (digitItems [3] ++ [.endItem]) ∧
      [3] ≠ [] ∧ [InItem.endItem].head? = some .endItem ∧
      (decimalBytes (numeralValue [1, 2] % 2 ^ (64 * 4) * (numeralValue [3] % 2 ^ (64 * 4)))).length + 1 ≤ 3 := by
  refine ⟨⟨rfl, rfl, rfl⟩, by decide, by decide, by decide, by decide, by decide, by decide, rfl, ?_⟩
  simp [numeralValue, decimalBytes, Nat.ofDigits]

/-- The multiplicand and the multiplier; no digit before `End`, digits before it; the bytes next to the digits, in a
line that ends with its newline and in one that ends with the stream. -/
theorem witness_DriverStopsOnInputErrors :
    small.ready ∧ small.params.wellFormed = true ∧ (∀ d ∈ [1, 2], d ≤ 9) ∧ [InItem.endItem] = [] ++ [.endItem] ∧
      line [0x31, 0x32, 0x0A] ++ [.endItem] = (digitItems [1, 2] ++ [.byte 0x0A]) ++ .endItem :: [] ∧
      line [0x31, 0x32] ++ [.endItem] = digitItems [1, 2] ++ .endItem :: [] ∧
      (0x3A : Byte) ≠ 0x0A ∧ 0x39 < (0x3A : Byte).toNat ∧ (0x0A : Byte) ∉ ([0x33] : List Byte) ∧
      21 ≤ ({ small with diagReady := 21 } : State).diagReady ∧
      line [0x31, 0x3A, 0x33, 0x0A, 0x34]
        = [] ++ (digitItems [1] ++ .byte 0x3A :: (([0x33] : List Byte).map .byte ++ .byte 0x0A :: line [0x34])) ∧
      line [0x31, 0x32, 0x0A, 0x3A] ++ [.endItem]
        = (digitItems [1, 2] ++ [.byte 0x0A]) ++ (digitItems [] ++ .byte 0x3A :: (([] : List Byte).map .byte ++ [.endItem])) ∧
      [InItem.endItem].head? = some .endItem :=
  ⟨⟨rfl, rfl, rfl⟩, by decide, by decide, by decide, by decide, by decide, by decide, by decide, by decide, by decide,
    by decide, by decide, rfl⟩

end Sys2Proof.Tests
end

section
/-!
PROOFS. The invariant of the block: it holds at reset, every step keeps it, and the flag rules of R39 follow from it.
-/
namespace Sys2Proof.Machine

/-! ### The flag rules -/

/-- The flag rules, one implication at a time (R39, R343, R330). -/
theorem Status.consistent_iff (t : Status) :
    t.consistent = true ↔
      (t.busy = true → t.fault = false ∧ t.term = false ∧ t.done = false) ∧
      (t.term = true → t.done = false ∧ t.fault = false) ∧ (t.done = true → t.fault = false) ∧
      (if t.fault then t.faultCode ∈ [0x01, 0x02, 0x03, 0x04, 0x05, 0x06] else t.faultCode = 0) := by
  obtain ⟨b, d, f, tm, _, _, _, code⟩ := t
  cases b <;> cases d <;> cases f <;> cases tm <;> simp [Status.consistent]

/-- A running block has no flag of a fault, a termination or a completion (R39). -/
theorem Status.consistent_running {t : Status} (h : t.consistent = true) (hb : t.busy = true) :
    t.fault = false ∧ t.term = false ∧ t.done = false ∧ t.faultCode = 0 := by
  obtain ⟨h1, _, _, h4⟩ := t.consistent_iff.mp h
  obtain ⟨hf, ht, hd⟩ := h1 hb
  exact ⟨hf, ht, hd, by simpa [hf] using h4⟩

theorem Status.consistent_withHaz {t : Status} (h : t.consistent = true) : t.withHaz.consistent = true := h

theorem Status.consistent_withoutFault {t : Status} (h : t.consistent = true) : t.withoutFault.consistent = true := by
  obtain ⟨h1, h2, _, _⟩ := t.consistent_iff.mp h
  exact t.withoutFault.consistent_iff.mpr
    ⟨fun hb => ⟨rfl, (h1 hb).2⟩, fun ht => ⟨(h2 ht).1, rfl⟩, fun _ => rfl, rfl⟩

theorem Status.consistent_write {t : Status} (h : t.consistent = true) (v : Word) : (t.write v).consistent = true := by
  have hu : (if v.getLsbD 2 then t.withoutFault else t).consistent = true := by
    split
    · exact Status.consistent_withoutFault h
    · exact h
  rw [Status.write]
  split <;> exact hu

/-- A write to `STATUS` flag by flag (R34). -/
theorem Status.write_eq (t : Status) (v : Word) :
    t.write v
      = { t with
          fault := t.fault && !v.getLsbD 2, faultCode := if v.getLsbD 2 then 0 else t.faultCode,
          haz := t.haz && !v.getLsbD 6 } := by
  rw [Status.write]
  cases v.getLsbD 2 <;> cases v.getLsbD 6 <;> simp [Status.withoutFault]

theorem Status.write_busy (t : Status) (v : Word) : (t.write v).busy = t.busy := by rw [t.write_eq]

theorem Status.write_term (t : Status) (v : Word) : (t.write v).term = t.term := by rw [t.write_eq]

theorem Status.write_outputs (t : Status) (v : Word) : (t.write v).trunc = t.trunc ∧ (t.write v).zero = t.zero := by
  rw [t.write_eq]
  exact ⟨rfl, rfl⟩

theorem faultCode_mem (c : FaultCode) : c.code ∈ ([0x01, 0x02, 0x03, 0x04, 0x05, 0x06] : List Byte) := by
  cases c <;> decide

theorem Status.blocked_eq_false_iff (t : Status) :
    t.blocked = false ↔ t.busy = false ∧ t.fault = false ∧ t.term = false := by
  simp [Status.blocked, and_assoc]

theorem Status.consistent_withFault {t : Status} (hb : t.blocked = false) (c : FaultCode) :
    (t.withFault c).consistent = true := by
  obtain ⟨h1, _, h3⟩ := t.blocked_eq_false_iff.mp hb
  exact (t.withFault c).consistent_iff.mpr
    ⟨fun h => by simp [Status.withFault, h1] at h, fun h => by simp [Status.withFault, h3] at h,
      fun h => by simp [Status.withFault] at h, faultCode_mem c⟩

theorem Status.consistent_started {t : Status} (h : t.consistent = true) (hb : t.blocked = false) :
    t.started.consistent = true := by
  obtain ⟨_, h2, h3⟩ := t.blocked_eq_false_iff.mp hb
  obtain ⟨_, _, _, h4⟩ := t.consistent_iff.mp h
  exact t.started.consistent_iff.mpr ⟨fun _ => ⟨h2, h3, rfl⟩, fun _ => ⟨rfl, h2⟩, fun _ => h2, h4⟩

theorem Status.consistent_completed {t : Status} (h : t.consistent = true) (hb : t.busy = true) (f z : Bool) :
    (t.completed f z).consistent = true := by
  obtain ⟨hf, ht, _, hc⟩ := Status.consistent_running h hb
  refine (t.completed f z).consistent_iff.mpr ⟨nofun, fun h => ?_, fun _ => hf, ?_⟩
  · exact absurd (ht.symm.trans h) nofun
  · simp [Status.completed, hf, hc]

theorem Status.consistent_terminated {t : Status} (h : t.consistent = true) (hb : t.busy = true) :
    t.terminated.consistent = true := by
  obtain ⟨hf, _, _, hc⟩ := Status.consistent_running h hb
  refine t.terminated.consistent_iff.mpr ⟨nofun, fun _ => ⟨rfl, hf⟩, fun _ => hf, ?_⟩
  simp [Status.terminated, hf, hc]

/-! ### The invariant, part by part -/

/-- The memories and `IN` in canonical form and extent (R43, R44, R46, R89). -/
def State.canonical (s : State) : Prop :=
  Memory.wf s.params s.bufram = true ∧ cellsWf 0 (s.params.n + 1) s.scr = true ∧
    cellsWf 0 (digcap s.params) s.fmtBuf = true ∧ endsInput s.input = true

theorem State.inv_iff (s : State) :
    s.inv = true ↔ s.status.consistent = true ∧ s.sequencerConsistent = true ∧ s.canonical := by
  simp [State.inv, State.canonical, and_assoc]

theorem State.sequencerConsistent_busy {s : State} {r : Running} (h : s.seq = .busy r) :
    s.sequencerConsistent = true ↔
      s.status.busy = true ∧ s.status.term = false ∧ s.exit = 0 ∧ r.wellFormed s.params = true := by
  simp [State.sequencerConsistent, h, and_assoc]

theorem State.sequencerConsistent_idle {s : State} (h : s.seq = .idle) :
    s.sequencerConsistent = true ↔ s.status.busy = false ∧ s.status.term = false ∧ s.exit = 0 := by
  simp [State.sequencerConsistent, h, and_assoc]

theorem State.sequencerConsistent_terminated {s : State} (h : s.seq = .terminated) :
    s.sequencerConsistent = true ↔ s.status.busy = false ∧ s.status.term = true ∧ (s.exit = 1 ∨ s.exit = 2) := by
  simp [State.sequencerConsistent, h, and_assoc]

/-- The sequencer's agreement looks at `BUSY`, `TERM`, `EXIT`, the sequencer and the parameters only. -/
theorem State.sequencerConsistent_congr {s t : State} (hq : t.seq = s.seq) (hb : t.status.busy = s.status.busy)
    (ht : t.status.term = s.status.term) (he : t.exit = s.exit) (hp : t.params = s.params) :
    t.sequencerConsistent = s.sequencerConsistent := by
  simp only [State.sequencerConsistent, hq, hb, ht, he, hp]

/-- A block that takes a `CMD` write has an idle sequencer (R41, R121). -/
theorem State.idle_of_not_blocked {s : State} (h : s.sequencerConsistent = true) (hb : s.status.blocked = false) :
    s.seq = .idle := by
  obtain ⟨h1, _, h3⟩ := s.status.blocked_eq_false_iff.mp hb
  cases hs : s.seq with
  | idle => rfl
  | busy r => simp [((s.sequencerConsistent_busy hs).mp h).1] at h1
  | terminated => simp [((s.sequencerConsistent_terminated hs).mp h).2.1] at h3

/-! ### What keeps the invariant -/

theorem State.canonical_congr {s t : State} (hp : t.params = s.params) (hm : t.bufram = s.bufram) (hs : t.scr = s.scr)
    (hf : t.fmtBuf = s.fmtBuf) (hi : t.input = s.input) (h : s.canonical) : t.canonical := by
  simpa only [State.canonical, hp, hm, hs, hf, hi] using h

theorem State.inv_drop {s : State} (h : s.inv = true) : s.drop.inv = true := h

theorem State.inv_raiseFault {s : State} (h : s.inv = true) (hb : s.status.blocked = false) (c : FaultCode) :
    (s.raiseFault c).inv = true := by
  obtain ⟨_, hq, hc⟩ := s.inv_iff.mp h
  exact (s.raiseFault c).inv_iff.mpr ⟨Status.consistent_withFault hb c, hq, hc⟩

/-- An accepted command leaves the sequencer running with its record (R121). -/
theorem State.inv_begin {s : State} {i : Instr} (h : s.inv = true) (hb : s.status.blocked = false)
    (hc : check i s.args s.params = none) : (s.begin (Running.start i s.args)).inv = true := by
  obtain ⟨hs, hq, hm⟩ := s.inv_iff.mp h
  obtain ⟨_, ht, he⟩ := (s.sequencerConsistent_idle (State.idle_of_not_blocked hq hb)).mp hq
  refine (State.inv_iff _).mpr ⟨Status.consistent_started hs hb, ?_, hm⟩
  exact (State.sequencerConsistent_busy rfl).mpr ⟨rfl, ht, he, start_wellFormed hc⟩

theorem State.inv_afterReset (s : State) : s.afterReset.inv = true ↔ endsInput s.input = true := by
  simp [State.inv, State.afterReset, State.reset, Status.consistent, State.sequencerConsistent, Memory.wf, cellsWf]

/-- Running on with another record of an accepted command. -/
theorem State.inv_run {s : State} {r r' : Running} (h : s.inv = true) (hs : s.seq = .busy r)
    (hw : r.wellFormed s.params = true → r'.wellFormed s.params = true) : (s.run r').inv = true := by
  obtain ⟨hst, hq, hm⟩ := s.inv_iff.mp h
  obtain ⟨hb, ht, he, hr⟩ := (s.sequencerConsistent_busy hs).mp hq
  exact (State.inv_iff _).mpr ⟨hst, (State.sequencerConsistent_busy rfl).mpr ⟨hb, ht, he, hw hr⟩, hm⟩

theorem State.inv_complete {s : State} {r : Running} (h : s.inv = true) (hs : s.seq = .busy r) (v : Word) (f z : Bool) :
    (s.complete v f z).inv = true := by
  obtain ⟨hst, hq, hm⟩ := s.inv_iff.mp h
  obtain ⟨hb, ht, he, _⟩ := (s.sequencerConsistent_busy hs).mp hq
  exact (State.inv_iff _).mpr
    ⟨Status.consistent_completed hst hb f z, (State.sequencerConsistent_idle rfl).mpr ⟨rfl, ht, he⟩, hm⟩

theorem State.inv_forgetScr {s : State} (h : s.inv = true) : s.forgetScr.inv = true := by
  obtain ⟨hst, hq, hm, _, hf, hi⟩ := s.inv_iff.mp h
  exact (State.inv_iff _).mpr ⟨hst, hq, hm, rfl, hf, hi⟩

theorem State.inv_forgetFmt {s : State} (h : s.inv = true) : s.forgetFmt.inv = true := by
  obtain ⟨hst, hq, hm, hv, _, hi⟩ := s.inv_iff.mp h
  exact (State.inv_iff _).mpr ⟨hst, hq, hm, hv, rfl, hi⟩

/-- The record of an accepted command has arguments that pass (R120). -/
theorem Running.check_eq_none {r : Running} {p : Params} (h : r.wellFormed p = true) : check r.op r.args p = none := by
  simp only [Running.wellFormed, Bool.and_eq_true, decide_eq_true_eq] at h
  exact h.1.1

theorem State.inv_terminate {s : State} {r : Running} (h : s.inv = true) (hs : s.seq = .busy r) {code : Byte}
    (hc : code = 1 ∨ code = 2) : (s.terminate r.args code).inv = true := by
  obtain ⟨hst, hq, hm, hv, hf, hi⟩ := s.inv_iff.mp h
  obtain ⟨hb, _, _, hr⟩ := (s.sequencerConsistent_busy hs).mp hq
  refine (State.inv_iff _).mpr ⟨Status.consistent_terminated hst hb, ?_, ?_, hv, hf, hi⟩
  · exact (State.sequencerConsistent_terminated rfl).mpr ⟨rfl, rfl, hc⟩
  · exact State.unspecify_wf (s := ((s.setStatus s.status.terminated).setExit code).setSeq .terminated)
      (rangeA_inBounds (Running.check_eq_none hr)) hm

/-- Work on the memories and streams of a running command keeps the invariant. -/
theorem OnlyRun.inv {r : Running} {s t : State} (h : OnlyRun r.op r.args s t) (hi : s.inv = true)
    (hs : s.seq = .busy r) : t.inv = true ∧ t.seq = .busy r := by
  obtain ⟨hst, hq, hm, hv, hf, hin⟩ := s.inv_iff.mp hi
  obtain ⟨_, _, _, hr⟩ := (s.sequencerConsistent_busy hs).mp hq
  have hk := Running.check_eq_none hr
  obtain ⟨⟨m, v, f, inp, o, k, d, j, rfl⟩, wm, wv, wf, wi⟩ := h
  exact ⟨(State.inv_iff _).mpr ⟨hst, hq, wm hk hm, wv hk hv, wf hf, wi hin⟩, hs⟩

/-- However a turn or a whole command leaves the sequencer, it keeps the invariant. -/
theorem RunEnds.inv {r : Running} {t u : State} (h : RunEnds r t u) (hi : t.inv = true) (hs : t.seq = .busy r) :
    u.inv = true := by
  rcases h with ⟨r', hw, rfl⟩ | ⟨v, f, z, rfl | rfl | rfl⟩ | ⟨code, hc, rfl⟩
  · exact State.inv_run hi hs hw
  · exact State.inv_complete hi hs v f z
  · exact State.inv_forgetScr (State.inv_complete hi hs v f z)
  · exact State.inv_forgetFmt (State.inv_complete hi hs v f z)
  · exact State.inv_terminate hi hs hc

theorem sequencerTurn_keeps_inv {s t : State} (h : s.inv = true) (ht : sequencerTurn s = .next t) : t.inv = true := by
  rcases sequencerTurn_cases ht with rfl | ⟨r, hs, hw, _, rfl⟩
  · exact h
  · obtain ⟨u, hu, he⟩ := turn_effect hs hw
    obtain ⟨hi, hq⟩ := hu.inv h hs
    exact he.inv hi hq

/-- A `CMD` write keeps the invariant if the command's body does, from the state it starts in. -/
theorem command_keeps_inv {i : Instr} {body : Running → State → State} {s : State} (h : s.inv = true)
    (hbody : ∀ r u, r.op = i → u.inv = true → u.seq = .busy r → (body r u).inv = true) :
    (command i body s).inv = true := by
  rcases command_cases i body s with ⟨_, e⟩ | ⟨hb, c, _, e⟩ | ⟨hb, hc, e⟩ <;> rw [e]
  · exact State.inv_drop h
  · exact State.inv_raiseFault h hb c
  · exact hbody _ _ rfl (State.inv_begin h hb hc) rfl

theorem runBody_keeps_inv {i : Instr} {r : Running} {s : State} (hr : r.op = i) (h : s.inv = true)
    (hs : s.seq = .busy r) : (runBody i r s).inv = true := by
  obtain ⟨u, hu, he⟩ := runBody_effect i r hr s
  subst hr
  obtain ⟨hi, hq⟩ := hu.inv h hs
  exact he.inv hi hq

theorem rejectWord_keeps_inv {s : State} (h : s.inv = true) (c : FaultCode) : (rejectWord c s).inv = true := by
  unfold rejectWord
  split
  · exact State.inv_drop h
  · exact State.inv_raiseFault h (by simpa using (by assumption : ¬s.status.blocked = true)) c

theorem HostEffect.inv {a : HostAction} {s t : State} (h : HostEffect a s t) (hi : s.inv = true) : t.inv = true := by
  obtain ⟨hst, hq, hm, hv, hf, hin⟩ := s.inv_iff.mp hi
  obtain ⟨⟨st, x, m, inp, o, d, rep, rfl, hstat⟩, wm, wi⟩ := h
  have hnew : st.consistent = true ∧ st.busy = s.status.busy ∧ st.term = s.status.term := by
    rcases hstat with rfl | rfl | ⟨v, _, rfl⟩
    · exact ⟨hst, rfl, rfl⟩
    · exact ⟨Status.consistent_withHaz hst, rfl, rfl⟩
    · exact ⟨Status.consistent_write hst v, Status.write_busy _ v, Status.write_term _ v⟩
  obtain ⟨hc, hb, ht⟩ := hnew
  exact (State.inv_iff _).mpr
    ⟨hc, Eq.trans (b := s.sequencerConsistent) (State.sequencerConsistent_congr rfl hb ht rfl rfl) hq, wm hm, hv, hf,
      wi hin⟩

theorem act_keeps_inv {a : HostAction} {s t : State} (h : s.inv = true) (ha : act exec a s = .next t) :
    t.inv = true := by
  rcases act_cases ha with ⟨_, rfl⟩ | ⟨_, i, body, _, _, rfl, hb⟩ | ⟨c, rfl⟩ | he
  · obtain ⟨_, _, _, _, _, hin⟩ := s.inv_iff.mp h
    exact s.inv_afterReset.mpr hin
  · refine command_keeps_inv (s := s.setReply .ack) h fun r u hr hu hq => ?_
    rcases hb with rfl | rfl
    · exact runBody_keeps_inv hr hu hq
    · exact hu
  · exact rejectWord_keeps_inv (s := s.setReply .ack) h c
  · exact he.inv h

/-- Settles O9: a step is a host action or a turn of the sequencer, and each keeps the invariant. -/
theorem stepKeepsTheInvariant : Obligations.StepKeepsTheInvariant := by
  intro s t h ht
  rcases step_cases s with ⟨a, _, e⟩ | ⟨_, g, e⟩ <;> rw [e] at ht
  · exact act_keeps_inv (s := s.popped) h ht
  · exact sequencerTurn_keeps_inv (s := s.setAgenda g) h ht

/-- Settles O8: nothing is set, listed or delivered right after reset. -/
theorem resetMeetsTheInvariant : Obligations.ResetMeetsTheInvariant :=
  State.reset.inv_iff.mpr ⟨rfl, rfl, rfl, rfl, rfl, rfl⟩

/-- Settles O10, from the flag rules inside the invariant. -/
theorem flagRulesHold : Obligations.FlagRulesHold := by
  intro s h
  obtain ⟨hst, _, _⟩ := s.inv_iff.mp h
  obtain ⟨hbusy, hterm, hdone, _⟩ := s.status.consistent_iff.mp hst
  refine ⟨hbusy, fun ht => ⟨?_, (hterm ht).1⟩, hdone⟩
  cases hb : s.status.busy with
  | false => rfl
  | true => exact absurd ((hbusy hb).2.1.symm.trans ht) nofun

end Sys2Proof.Machine
end

section
/-!
PROOFS. The register window: what a host access to each register reads and writes (R33 to R38, R79, R81).
-/
namespace Sys2Proof.Machine

/-! ### The layout of STATUS -/

/-- The part of a value above its low field. -/
theorem toNat_append_div {m n : Nat} (x : BitVec m) (y : BitVec n) : (x ++ y).toNat / 2 ^ n = x.toNat := by
  rw [BitVec.toNat_append, ← Nat.shiftRight_eq_div_pow, Nat.shiftRight_or_distrib, Nat.shiftLeft_shiftRight,
    Nat.shiftRight_eq_div_pow, Nat.div_eq_of_lt y.isLt, Nat.or_zero]

/-- Settles O49: `STATUS` is its fields side by side, so each bit is found by its place, and `FAULT_CODE` is what the
eight low fields of one bit leave. -/
theorem statusLayout : Obligations.StatusLayout := by
  intro t
  have bit : ∀ b : Bool, (BitVec.ofBool b).getLsbD 0 = b := fun b => by cases b <;> rfl
  refine ⟨?_, ?_, ?_, ?_, ?_, ?_, ?_, ?_, ?_⟩
  iterate 8 · simp only [Status.word, BitVec.getLsbD_append, bit]; rfl
  rw [show 2 ^ 8 = 2 ^ 1 * 2 ^ 1 * 2 ^ 1 * 2 ^ 1 * 2 ^ 1 * 2 ^ 1 * 2 ^ 1 * 2 ^ 1 from rfl]
  simp only [← Nat.div_div_eq_div_mul, Status.word, toNat_append_div]
  exact (BitVec.toNat_append ..).trans (by simp)

/-! ### Host accesses -/

/-- The step of a read at an offset of the window (R75, R79). -/
theorem step_read {s : State} {off : Nat} (h : s.nextAction = some (.read (s.params.mmioBase + off) 64))
    (hw : off < windowBytes) (h8 : off % 8 = 0) :
    step s = .next ((readEffect (targetAt s.params off) s.popped).setReply
      (.data (readValue (targetAt s.params off) s.popped))) := by
  rw [step_action h]
  show Host.Outcome.next (hostRead _ _ s.popped) = _
  rw [hostRead, show s.popped.params = s.params from rfl, decodeAccess_admitted s.params hw h8]

/-- The step of a write at an offset of the window other than that of `CMD` (R75, R79). -/
theorem step_write {s : State} {off : Nat} {v : Word}
    (h : s.nextAction = some (.write (s.params.mmioBase + off) 64 v)) (hw : off < windowBytes) (h8 : off % 8 = 0)
    (hc : targetAt s.params off ≠ .cmd) :
    step s = .next (writeTarget (targetAt s.params off) v (s.popped.setReply .ack)) := by
  rw [step_action h]
  show hostWrite exec _ _ v s.popped = _
  rw [hostWrite, show s.popped.params = s.params from rfl, decodeAccess_admitted s.params hw h8]
  split
  · rename_i ht
    injection ht with ht
    exact absurd ht hc
  · rename_i ht
    injection ht with ht
    rw [ht]
  · contradiction
  · contradiction

/-- A store while the block is not busy (R76). -/
theorem unlessBusy_idle {s : State} (h : s.status.busy = false) (store : State → State) :
    unlessBusy store s = store s := by
  rw [unlessBusy, h]
  rfl

/-- The step of a read that has no effect but its reply (R81). -/
theorem step_read_register {s : State} {off : Nat} {v : Word}
    (h : s.nextAction = some (.read (s.params.mmioBase + off) 64)) (hw : off < windowBytes) (h8 : off % 8 = 0)
    (he : readEffect (targetAt s.params off) s.popped = s.popped)
    (hv : readValue (targetAt s.params off) s.popped = v) :
    step s = .next { s.popped with reply := .data v } := by
  rw [step_read h hw h8, he, hv]
  rfl

/-- The step of a write to an argument register while the block is not busy (R36). -/
theorem step_write_args {s : State} {off : Nat} {v : Word} (f : Args → Args) (hb : s.status.busy = false)
    (h : s.nextAction = some (.write (s.params.mmioBase + off) 64 v)) (hw : off < windowBytes) (h8 : off % 8 = 0)
    (hc : targetAt s.params off ≠ .cmd)
    (ht : writeTarget (targetAt s.params off) v = unlessBusy (fun s => s.setArgs (f s.args))) :
    step s = .next { s.popped with reply := .ack, args := f s.args } := by
  rw [step_write h hw h8 hc, ht, unlessBusy_idle (s := s.popped.setReply .ack) hb]
  rfl

/-- Settles O47: each offset names its register (R79), and reading a register has no effect (R81). -/
theorem registerReads : Obligations.RegisterReads := by
  intro s off h
  refine ⟨?_, ?_, ?_, ?_, ?_, ?_, ?_, ?_, ?_⟩ <;> rintro rfl
  · exact step_read_register h (by decide) (by decide) rfl rfl
  · exact step_read_register h (by decide) (by decide) rfl rfl
  · exact step_read_register h (by decide) (by decide) rfl (BitVec.ofNat_toNat ..).symm
  · exact step_read_register h (by decide) (by decide) rfl (BitVec.ofNat_toNat ..).symm
  · exact step_read_register h (by decide) (by decide) rfl (BitVec.ofNat_toNat ..).symm
  · exact step_read_register h (by decide) (by decide) rfl (BitVec.ofNat_toNat ..).symm
  · exact step_read_register h (by decide) (by decide) rfl rfl
  · exact step_read_register h (by decide) (by decide) rfl rfl
  · exact step_read_register h (by decide) (by decide) rfl (BitVec.ofNat_toNat ..).symm

/-- Settles O48: each offset names its register (R79); an argument register keeps the live bits, `RESULT` and `EXIT`
take nothing. -/
theorem registerWrites : Obligations.RegisterWrites := by
  intro s off v hb h low
  have hlow : low = v.setWidth 16 := by
    rw [← BitVec.ofNat_toNat]
    exact BitVec.eq_of_toNat_eq (by simp [low])
  rw [hlow]
  refine ⟨?_, ?_, ?_, ?_, ?_, ?_⟩
  · rintro rfl
    exact step_write_args (fun x => { x with a := v.setWidth 16 }) hb h (by decide) (by decide) nofun rfl
  · rintro rfl
    exact step_write_args (fun x => { x with b := v.setWidth 16 }) hb h (by decide) (by decide) nofun rfl
  · rintro rfl
    exact step_write_args (fun x => { x with p := v.setWidth 16 }) hb h (by decide) (by decide) nofun rfl
  · rintro rfl
    exact step_write_args (fun x => { x with len := v.setWidth 16 }) hb h (by decide) (by decide) nofun rfl
  · rintro rfl
    exact step_write_args (fun x => { x with w := v }) hb h (by decide) (by decide) nofun rfl
  · rintro (rfl | rfl)
    · exact step_write h (by decide) (by decide) nofun
    · exact step_write h (by decide) (by decide) nofun

/-- Settles O50: `STATUS` takes its write whether or not the block is busy. -/
theorem statusWriteClears : Obligations.StatusWriteClears := by
  intro s v h
  rw [step_write h (by decide) (by decide) nofun]
  exact congrArg (fun st => Host.Outcome.next ((s.popped.setReply .ack).setStatus st)) (s.status.write_eq v)

/-! ### PARAM -/

/-- Both fields of `PARAM` hold their parameter exactly (R33, R8). -/
theorem paramWord_fields {p : Params} (h : p.wellFormed = true) :
    (paramWord p).toNat % 2 ^ 32 = p.bufWords ∧ (paramWord p).toNat / 2 ^ 32 = p.n := by
  simp only [Params.wellFormed, Bool.and_eq_true, decide_eq_true_eq] at h
  obtain ⟨⟨⟨_, hn⟩, _⟩, hb⟩ := h
  constructor
  · have low : (paramWord p).setWidth 32 = BitVec.ofNat 32 p.bufWords := BitVec.setWidth_append_eq_right
    rw [← BitVec.toNat_setWidth, low, BitVec.toNat_ofNat, Nat.mod_eq_of_lt (by omega)]
  · rw [paramWord, toNat_append_div, BitVec.toNat_ofNat, Nat.mod_eq_of_lt (by omega)]

theorem OnlyRun.params_eq {i : Instr} {x : Args} {s t : State} (h : OnlyRun i x s t) : t.params = s.params := by
  obtain ⟨⟨_, _, _, _, _, _, _, _, rfl⟩, _⟩ := h
  rfl

theorem RunEnds.params_eq {r : Running} {t u : State} (h : RunEnds r t u) : u.params = t.params := by
  rcases h with ⟨_, _, rfl⟩ | ⟨_, _, _, rfl | rfl | rfl⟩ | ⟨_, _, rfl⟩ <;> rfl

theorem sequencerTurn_params {s t : State} (h : sequencerTurn s = .next t) : t.params = s.params := by
  rcases sequencerTurn_cases h with rfl | ⟨r, hs, hw, _, rfl⟩
  · rfl
  · obtain ⟨u, hu, he⟩ := turn_effect hs hw
    exact he.params_eq.trans hu.params_eq

theorem command_params {i : Instr} {body : Running → State → State}
    (hbody : ∀ r u, r.op = i → (body r u).params = u.params) (s : State) : (command i body s).params = s.params := by
  rcases command_cases i body s with ⟨_, e⟩ | ⟨_, _, _, e⟩ | ⟨_, _, e⟩ <;> rw [e]
  · rfl
  · rfl
  · exact hbody _ _ rfl

theorem act_params {a : HostAction} {s t : State} (h : act exec a s = .next t) : t.params = s.params := by
  rcases act_cases h with ⟨_, rfl⟩ | ⟨_, i, body, _, _, rfl, hb⟩ | ⟨c, rfl⟩ | he
  · rfl
  · refine command_params (fun r u hr => ?_) (s.setReply .ack)
    rcases hb with rfl | rfl
    · obtain ⟨w, hw, he⟩ := runBody_effect i r hr u
      exact he.params_eq.trans hw.params_eq
    · rfl
  · unfold rejectWord
    split <;> rfl
  · obtain ⟨⟨_, _, _, _, _, _, _, rfl, _⟩, _⟩ := he
    rfl

/-- Settles O12: `PARAM` is read from the parameters, and neither a host action nor a turn changes them. -/
theorem paramIsConstant : Obligations.ParamIsConstant := by
  refine ⟨fun s hp h => ⟨paramWord s.params, ?_, paramWord_fields hp⟩, fun s v h => ?_, fun s t h => ?_⟩
  · exact step_read_register h (by decide) (by decide) rfl rfl
  · exact step_write h (by decide) (by decide) nofun
  · rcases step_cases s with ⟨a, _, e⟩ | ⟨_, g, e⟩ <;> rw [e] at h
    · exact act_params (s := s.popped) h
    · exact sequencerTurn_params (s := s.setAgenda g) h

end Sys2Proof.Machine
end

section
/-!
PROOFS. What commands and turns leave of `RESULT`, `TRUNC` and `ZERO` (R37, R78), and the frame of the commands that are
one word loop (R123, R331).
-/
namespace Sys2Proof.Machine

/-! ### The outputs -/

/-- The outputs of the last completed command stand as they were (R37, R40). -/
def SameOutputs (s t : State) : Prop :=
  t.result = s.result ∧ t.status.trunc = s.status.trunc ∧ t.status.zero = s.status.zero

/-- The block as a completed command leaves it (R123). -/
def State.completedNow (t : State) : Prop := t.seq = .idle ∧ t.status.done = true ∧ t.status.busy = false

theorem OnlyRun.sameOutputs {i : Instr} {x : Args} {s t : State} (h : OnlyRun i x s t) : SameOutputs s t := by
  obtain ⟨⟨_, _, _, _, _, _, _, _, rfl⟩, _⟩ := h
  exact ⟨rfl, rfl, rfl⟩

theorem RunEnds.outputs {r : Running} {t u : State} (h : RunEnds r t u) : SameOutputs t u ∨ u.completedNow := by
  rcases h with ⟨_, _, rfl⟩ | ⟨_, _, _, rfl | rfl | rfl⟩ | ⟨_, _, rfl⟩
  · exact .inl ⟨rfl, rfl, rfl⟩
  · exact .inr ⟨rfl, rfl, rfl⟩
  · exact .inr ⟨rfl, rfl, rfl⟩
  · exact .inr ⟨rfl, rfl, rfl⟩
  · exact .inl ⟨rfl, rfl, rfl⟩

theorem SameOutputs.trans {s t u : State} (h1 : SameOutputs s t) (h2 : SameOutputs t u) : SameOutputs s u := by
  obtain ⟨a1, b1, c1⟩ := h1
  obtain ⟨a2, b2, c2⟩ := h2
  exact ⟨a2.trans a1, b2.trans b1, c2.trans c1⟩

/-- Work of a running command, then how it leaves the sequencer. -/
theorem OnlyRun.outputs {i : Instr} {r : Running} {s t u : State} (h : OnlyRun i r.args s t) (he : RunEnds r t u) :
    SameOutputs s u ∨ u.completedNow := he.outputs.imp_left h.sameOutputs.trans

theorem sequencerTurn_outputs {s t : State} (h : sequencerTurn s = .next t) :
    SameOutputs s t ∨ (∃ r, s.seq = .busy r) ∧ t.completedNow := by
  rcases sequencerTurn_cases h with rfl | ⟨r, hs, hw, _, rfl⟩
  · exact .inl ⟨rfl, rfl, rfl⟩
  · obtain ⟨u, hu, he⟩ := turn_effect hs hw
    exact (hu.outputs he).imp_right fun hc => ⟨⟨r, hs⟩, hc⟩

/-- A `CMD` write that is dropped or faults keeps the outputs; one that is accepted keeps or completes. -/
theorem command_outputs {i : Instr} {body : Running → State → State}
    (hbody : ∀ r u, r.op = i → SameOutputs u (body r u) ∨ (body r u).completedNow) (s : State) :
    SameOutputs s (command i body s) ∨ s.status.blocked = false ∧ (command i body s).completedNow := by
  rcases command_cases i body s with ⟨_, e⟩ | ⟨_, _, _, e⟩ | ⟨hb, _, e⟩ <;> rw [e]
  · exact .inl ⟨rfl, rfl, rfl⟩
  · exact .inl ⟨rfl, rfl, rfl⟩
  · exact (hbody _ (s.begin (Running.start i s.args)) rfl).imp_right fun hc => ⟨hb, hc⟩

theorem runBody_outputs {i : Instr} {r : Running} (hr : r.op = i) (s : State) :
    SameOutputs s (runBody i r s) ∨ (runBody i r s).completedNow := by
  obtain ⟨t, ht, he⟩ := runBody_effect i r hr s
  exact ht.outputs he

theorem HostEffect.sameOutputs {a : HostAction} {s t : State} (h : HostEffect a s t) : SameOutputs s t := by
  obtain ⟨⟨st, _, _, _, _, _, _, rfl, hst⟩, _⟩ := h
  rcases hst with rfl | rfl | ⟨v, _, rfl⟩
  · exact ⟨rfl, rfl, rfl⟩
  · exact ⟨rfl, rfl, rfl⟩
  · exact ⟨rfl, s.status.write_outputs v⟩

/-- Settles O15: of all a step can do, only a completion and a reset write the outputs. -/
theorem resultChangesOnlyAtCompletion : Obligations.ResultChangesOnlyAtCompletion := by
  intro s t h
  rcases step_cases s with ⟨a, ha, e⟩ | ⟨hn, g, e⟩ <;> rw [e] at h
  · rcases act_cases h with ⟨rfl, _⟩ | ⟨v, i, body, rfl, hd, rfl, hb⟩ | ⟨c, rfl⟩ | he
    · exact .inr (.inr ha)
    · have hbody : ∀ r u, r.op = i → SameOutputs u (body r u) ∨ (body r u).completedNow := fun r u hr => by
        rcases hb with rfl | rfl
        · exact runBody_outputs hr u
        · exact .inl ⟨rfl, rfl, rfl⟩
      rcases command_outputs hbody (s.popped.setReply .ack) with hk | ⟨hu, hc⟩
      · exact .inl hk
      · exact .inr (.inl ⟨.inr ⟨v, i, ha, hd, hu⟩, hc⟩)
    · unfold rejectWord
      split
      · exact .inl ⟨rfl, rfl, rfl⟩
      · exact .inl ⟨rfl, rfl, rfl⟩
    · exact .inl (he.sameOutputs (s := s.popped))
  · rcases sequencerTurn_outputs (s := s.setAgenda g) h with hk | ⟨hr, hc⟩
    · exact .inl hk
    · exact .inr (.inl ⟨.inl ⟨hn, hr⟩, hc⟩)

/-! ### The commands that are one word loop -/

/-- The body of a command that is one word loop: words of its range, then its completion. -/
theorem runBody_oneLoop {i : Instr} (hi : i ∈ [.zeroFill, .copy, .isZero, .addShort, .mulShort, .divShort, .addLong])
    (r : Running) (s : State) :
    ∃ v f z t, OnlyWords (writtenWords i r.args).1 (writtenWords i r.args).2 s t ∧ runBody i r s = t.complete v f z := by
  have loop : ∀ {base n : Nat} (word : Args → WordBody) (done : Word → State → State),
      (∀ k c s, k < r.args.len.toNat → OnlyWords base n s (word r.args k c s).2) →
      (∀ c s, ∃ v f z, done c s = State.complete s v f z) →
      ∃ v f z t, OnlyWords base n s t ∧ oneLoop word done r s = t.complete v f z := fun word done h hd => by
    obtain ⟨c, t, h1, h2⟩ := oneLoop_effect h s
    obtain ⟨v, f, z, e⟩ := hd c t
    exact ⟨v, f, z, t, h1, h2.trans e⟩
  cases i with
  | zeroFill => exact loop zeroFillWord zeroFillDone (fun k c s hk => zeroWord_effect hk c s) (fun _ _ => ⟨_, _, _, rfl⟩)
  | copy => exact loop copyArgsWord copyDone (fun k c s hk => copyArgsWord_effect hk c s) (fun _ _ => ⟨_, _, _, rfl⟩)
  | isZero => exact loop isZeroWord isZeroDone (fun k c s _ => OnlyWords.refl 0 0 s) (fun _ _ => ⟨_, _, _, rfl⟩)
  | addShort => exact loop addShortWord addShortDone (fun k c s hk => addWord_effect hk c s) (fun _ _ => ⟨_, _, _, rfl⟩)
  | mulShort => exact loop mulShortWord mulShortDone (fun k c s hk => mulWord_effect hk c s) (fun _ _ => ⟨_, _, _, rfl⟩)
  | divShort => exact loop divShortWord divShortDone (fun k c s hk => divWord_effect hk c s) (fun _ _ => ⟨_, _, _, rfl⟩)
  | addLong => exact loop addLongWord addLongDone (fun k c s hk => addLongWord_effect hk c s) (fun _ _ => ⟨_, _, _, rfl⟩)
  | mulLong | parse | format _ => simp at hi

/-- Settles O53: a drop and a fault touch `STATUS` only; an accepted command writes words of its range and completes. -/
theorem bufferCommandFrame : Obligations.BufferCommandFrame := by
  intro i s t hi h
  rw [exec_eq] at h
  injection h with h
  subst h
  rcases command_cases i (runBody i) s with ⟨_, e⟩ | ⟨_, code, _, e⟩ | ⟨_, _, e⟩ <;> rw [e]
  · exact ⟨rfl, .inl ⟨rfl, rfl, rfl⟩, fun _ _ => rfl⟩
  · exact ⟨rfl, .inr (.inl ⟨rfl, rfl, rfl⟩), fun _ _ => rfl⟩
  · obtain ⟨v, f, z, u, ⟨⟨m, rfl⟩, hbytes, _⟩, hu⟩ :=
      runBody_oneLoop hi (Running.start i s.args) (s.begin (Running.start i s.args))
    rw [hu]
    exact ⟨rfl, .inr (.inr ⟨rfl, rfl⟩), hbytes⟩

end Sys2Proof.Machine
end

section
/-!
PROOFS. PARSE: the holds on `IN` and `DIAG` (R90, R91, R227), and the finality of `InvalidCharacter` (R42).
-/
namespace Sys2Proof.Machine

/-! ### Acceptance and holds -/

/-- A command whose arguments pass runs its body on a ready block (R121). -/
theorem exec_accepted {i : Instr} {s : State} (hr : s.ready) (hc : check i s.args s.params = none) :
    exec i s = .next (runBody i (Running.start i s.args) (s.begin (Running.start i s.args))) := by
  obtain ⟨hb, hf, ht⟩ := hr
  rw [exec_eq, command_accepted (by simp [Status.blocked, hb, hf, ht]) hc]

/-- The arguments of PARSE pass when its range is in bounds (R120). -/
theorem check_parse {x : Args} {p : Params} (h : x.a.toNat + x.len.toNat ≤ p.bufWords) : check .parse x p = none := by
  rw [check_eq_none_iff]
  refine ⟨rfl, ?_, rfl, rfl⟩
  simpa [boundsFails, ranges, Range.inBounds, Args.rangeA] using h

/-- A turn of a held command changes nothing (R353). -/
theorem sequencerTurn_held {t : State} {r : Running} (hs : t.seq = .busy r) (hw : r.wellFormed t.params = true)
    (hh : r.held t = true) : sequencerTurn t = .next t := by
  simp [sequencerTurn, hs, hw, hh]

/-! ### Digits, and what follows them -/

/-- PARSE after its start, over digits and what follows them: the digits are taken, the destination holds the value of
the numeral and the flag says whether it was too large (R221, R223). -/
theorem parseRun_digits {ds : List Nat} (hd : ∀ d ∈ ds, d ≤ 9) {tail : List InItem} {r : Running} {s : State}
    (ht : r.trunc = false) (hi : s.input = digitItems ds ++ tail) :
    ∃ m, parseRun r s
        = parseItems
            { r with
              count := r.count + ds.length, trunc := decide (2 ^ (64 * r.args.len.toNat) ≤ numeralValue ds) }
            tail ((s.setBufram m).setInput tail) ∧
      ((s.setBufram m).setInput tail).val r.args.a.toNat r.args.len.toNat
        = numeralValue ds % 2 ^ (64 * r.args.len.toNat) := by
  obtain ⟨m0, e0⟩ := forWords_onlyRam (body := parseClearWord r.args) (fun _ _ _ => ⟨_, State.writeWord_eq ..⟩)
    r.args.len.toNat 0 0 s
  have hz : (s.setBufram m0).val r.args.a.toNat r.args.len.toNat = 0 := by
    rw [← e0, State.val_eq_zero_iff]
    intro k h1 h2
    exact (forWords_zeroWord r.args.a.toNat r.args.len.toNat 0 0 s k).trans (if_pos ⟨h1, h2⟩)
  have hflag : r.trunc = decide (2 ^ (64 * r.args.len.toNat) ≤ 0) := by simp [ht]
  obtain ⟨m, e, hv, _⟩ := parseItems_digits hd tail r 0 (s.setBufram m0) (by rw [hz, Nat.zero_mod]) hflag hi
  rw [← numeralValue_foldl] at e hv
  refine ⟨m, ?_, hv⟩
  rw [parseRun, e0]
  rw [show (s.setBufram m0).input = digitItems ds ++ tail from hi, e]
  rfl

/-- PARSE on a ready block with an in-bounds range, over digits and what follows them. -/
theorem exec_parse_digits {s : State} {ds : List Nat} {tail : List InItem} (hr : s.ready)
    (hb : s.args.a.toNat + s.args.len.toNat ≤ s.params.bufWords) (hd : ∀ d ∈ ds, d ≤ 9)
    (hi : s.input = digitItems ds ++ tail) :
    ∃ (m : List Host.Cell) (r : Running), r.op = .parse ∧ r.args = s.args ∧
      exec .parse s = .next (parseItems r tail (((s.begin (Running.start .parse s.args)).setBufram m).setInput tail)) := by
  obtain ⟨m, e, _⟩ := parseRun_digits hd (r := Running.start .parse s.args)
    (s := s.begin (Running.start .parse s.args)) rfl hi
  exact ⟨m, _, rfl, rfl, (exec_accepted hr (check_parse hb)).trans (congrArg _ e)⟩

/-- A diagnostic for which the host accepts too few bytes is held after the accepted ones (R91, R227). -/
theorem diagnose_held {s : State} (h : s.diagReady < 21) (r : Running) (x : Byte) :
    diagnose r x s
      = ((s.setDiag (s.diag ++ (diagnostic x).take s.diagReady)).setDiagReady 0).run
          { r.goto (.parseDiag x) with idx := s.diagReady } := by
  obtain ⟨h1, h2⟩ := emitDiag_spec (diagnostic x) 0 s
  have hm : min (diagnostic x).length s.diagReady = s.diagReady := by rw [diagnostic_length]; omega
  rw [hm, Nat.zero_add] at h1
  rw [hm, Nat.sub_self] at h2
  rw [diagnose]
  dsimp only
  rw [h1, h2, if_pos (by rw [diagnostic_length]; exact h)]

/-- A diagnostic that the host accepts is emitted whole, and the rest of the line follows (R227). -/
theorem diagnose_emitted {s : State} (h : 21 ≤ s.diagReady) (r : Running) (x : Byte) :
    diagnose r x s
      = skipLine r s.input ((s.setDiag (s.diag ++ diagnostic x)).setDiagReady (s.diagReady - 21)) := by
  obtain ⟨h1, h2⟩ := emitDiag_spec (diagnostic x) 0 s
  have hm : min (diagnostic x).length s.diagReady = 21 := by rw [diagnostic_length]; omega
  rw [hm, Nat.zero_add] at h1
  rw [hm, List.take_of_length_le (by rw [diagnostic_length]; exact h)] at h2
  rw [diagnose]
  dsimp only
  rw [h1, h2, if_neg (by rw [diagnostic_length]; omega)]
  rfl

/-- A state of a PARSE held in parse state `p`: what the statement calls held. -/
def HeldIn (s : State) (p : ParseState) (t : State) : Prop :=
  t.status = { s.status with busy := true, done := false } ∧ t.result = s.result ∧ t.exit = s.exit ∧
    (∃ r, t.seq = .busy r ∧ r.parseState = some p) ∧ sequencerTurn t = .next t

/-- A PARSE that runs on with a held record is held. -/
theorem heldIn_run {s u : State} {r : Running} {p : ParseState}
    (hb : s.args.a.toNat + s.args.len.toNat ≤ s.params.bufWords)
    (hu : u.params = s.params ∧ u.status = s.status.started ∧ u.result = s.result ∧ u.exit = s.exit)
    (ho : r.op = .parse) (ha : r.args = s.args) (hp : r.phase.ofParse = true) (hs : r.parseState = some p)
    (hh : r.held (u.run r) = true) : HeldIn s p (u.run r) := by
  obtain ⟨hpar, hst, hres, hex⟩ := hu
  have hw : r.wellFormed (u.run r).params = true := by
    rw [State.run_params, hpar]
    exact wellFormed_parse (r := Running.start .parse s.args) ho ha hp rfl (start_wellFormed (check_parse hb))
  exact ⟨hst, hres, hex, ⟨r, rfl, hs⟩, sequencerTurn_held rfl hw hh⟩

/-- Settles O33: after the digits, PARSE is held for an item, for an acceptance, or for the rest of a line. -/
theorem parseHoldsForAnItem : Obligations.ParseHoldsForAnItem := by
  intro s ds hr hb hd
  refine ⟨fun hi => ?_, fun x hx hx' => ⟨fun rest hlt hi => ?_, fun junk hj hge hi => ?_⟩⟩
  · obtain ⟨m, r, ho, ha, e⟩ := exec_parse_digits hr hb hd (tail := []) (by rw [hi, List.append_nil])
    exact ⟨_, e, heldIn_run hb ⟨rfl, rfl, rfl, rfl⟩ ho ha rfl rfl rfl, rfl, rfl, rfl⟩
  · obtain ⟨m, r, ho, ha, e⟩ := exec_parse_digits hr hb hd hi
    rw [parseItems, parseMove_invalid hx hx'] at e
    dsimp only at e
    rw [diagnose_held (by exact hlt)] at e
    refine ⟨_, e, heldIn_run hb ⟨rfl, rfl, rfl, rfl⟩ ho ha rfl rfl ?_, rfl, rfl, rfl⟩
    exact (Bool.and_eq_true _ _).mpr ⟨decide_eq_true hlt, rfl⟩
  · obtain ⟨m, r, ho, ha, e⟩ := exec_parse_digits hr hb hd hi
    rw [parseItems, parseMove_invalid hx hx'] at e
    dsimp only at e
    rw [diagnose_emitted (by exact hge), State.setInput_input, skipLine_held hj _ _ rfl] at e
    exact ⟨_, e, heldIn_run hb ⟨rfl, rfl, rfl, rfl⟩ ho ha rfl rfl rfl, rfl, rfl, rfl⟩

/-! ### InvalidCharacter -/

/-- The phases of `InvalidCharacter` are the diagnostic and the rest of the line (R42). -/
theorem parseState_invalidCharacter {r : Running} :
    r.parseState = some .invalidCharacter ↔ (∃ x, r.phase = .parseDiag x) ∨ r.phase = .parseSkip := by
  unfold Running.parseState
  cases r.phase <;> simp

/-- A turn that writes the diagnostic stays in `InvalidCharacter`. -/
theorem diagTurn_seq {x : Byte} {r r' : Running} {s : State} (hp : r.phase = .parseDiag x)
    (h : (diagTurn x r s).seq = .busy r') : r'.parseState = some .invalidCharacter := by
  rw [diagTurn] at h
  split at h
  · injection h with h
    subst h
    exact parseState_invalidCharacter.mpr (.inl ⟨x, hp⟩)
  · injection h with h
    subst h
    exact parseState_invalidCharacter.mpr (.inr rfl)

/-- A turn that discards an item terminates or keeps the record. -/
theorem parseDiscard_seq {r r' : Running} {s : State} (hs : s.seq = .busy r) (h : (parseDiscard r s).seq = .busy r') :
    r' = r := by
  have keep : ∀ u : State, u.seq = s.seq → u.seq = .busy r' → r' = r := fun u hu h => by
    rw [hu, hs] at h
    injection h with h
    exact h.symm
  rw [parseDiscard] at h
  split at h
  · exact keep s rfl h
  · cases h
  · split at h
    · cases h
    · exact keep _ rfl h

/-- Settles O34: from the diagnostic and from the skipping of the line no turn leads to another parse state. -/
theorem invalidCharacterIsFinal : Obligations.InvalidCharacterIsFinal := by
  intro s t r r' hs hp ht hr'
  rcases sequencerTurn_cases ht with rfl | ⟨q, hq, _, _, rfl⟩
  · rw [hs] at hr'
    injection hr' with hr'
    rw [← hr', hp]
  · obtain rfl : r = q := by
      rw [hs] at hq
      injection hq
    rcases parseState_invalidCharacter.mp hp with ⟨x, hx⟩ | hx
    · rw [turn, hx] at hr'
      exact diagTurn_seq hx hr'
    · rw [turn, hx] at hr'
      rw [parseDiscard_seq hs hr', hp]

end Sys2Proof.Machine
end

section
/-!
PROOFS. No result depends on the content of `SCR` or `FMT_BUF` (R43, R44, R190, R240): a command run from two states that
differ only there makes the same moves, since it reads of those buffers only what it has written before.
-/
namespace Sys2Proof.Machine

/-- `t` is `s` but for the content of `SCR` and `FMT_BUF`. -/
def SameOutside (s t : State) : Prop :=
  ∃ v f e g, t = { s with scr := v, fmtBuf := f, scrEpoch := e, fmtEpoch := g }

theorem SameOutside.params_eq {s t : State} (h : SameOutside s t) : t.params = s.params := by
  obtain ⟨_, _, _, _, rfl⟩ := h
  rfl

theorem SameOutside.streams_eq {s t : State} (h : SameOutside s t) :
    t.input = s.input ∧ t.outReady = s.outReady ∧ t.diagReady = s.diagReady := by
  obtain ⟨_, _, _, _, rfl⟩ := h
  exact ⟨rfl, rfl, rfl⟩

theorem SameOutside.readWord {s t : State} (h : SameOutside s t) (k : Nat) : t.readWord k = s.readWord k := by
  obtain ⟨_, _, _, _, rfl⟩ := h
  rfl

/-- An operation that neither looks at the internal buffers nor touches them does the same on both sides. -/
theorem SameOutside.map {s t : State} (h : SameOutside s t) {op : State → State}
    (hop : ∀ v f e g, op { s with scr := v, fmtBuf := f, scrEpoch := e, fmtEpoch := g }
      = { op s with scr := v, fmtBuf := f, scrEpoch := e, fmtEpoch := g }) : SameOutside (op s) (op t) := by
  obtain ⟨v, f, e, g, rfl⟩ := h
  exact ⟨v, f, e, g, hop v f e g⟩

/-! ### Two runs of a loop -/

/-- Two runs of a loop whose steps agree on the carry and keep a relation agree on the carry and keep it. -/
theorem forWords_agree {R : State → State → Prop} {body : WordBody} {n i : Nat}
    (h : ∀ k c s t, i ≤ k → k < i + n → R s t → (body k c t).1 = (body k c s).1 ∧ R (body k c s).2 (body k c t).2)
    (c : Word) {s t : State} (hR : R s t) :
    (forWords body n i c t).1 = (forWords body n i c s).1 ∧ R (forWords body n i c s).2 (forWords body n i c t).2 := by
  induction n generalizing i c s t with
  | zero => exact ⟨rfl, hR⟩
  | succ n ih =>
    obtain ⟨hc, hs⟩ := h i c s t (by omega) (by omega) hR
    rw [forWords, forWords, hc]
    exact ih (fun k c s t h1 h2 => h k c s t (by omega) (by omega)) _ hs

/-- A word step that goes alike from states that differ in the internal buffers only. -/
def Blind (body : WordBody) : Prop :=
  ∀ k c s t, SameOutside s t → (body k c t).1 = (body k c s).1 ∧ SameOutside (body k c s).2 (body k c t).2

theorem Blind.loop {body : WordBody} (hb : Blind body) (n i : Nat) (c : Word) {s t : State} (h : SameOutside s t) :
    (forWords body n i c t).1 = (forWords body n i c s).1 ∧
      SameOutside (forWords body n i c s).2 (forWords body n i c t).2 :=
  forWords_agree (fun k c s t _ _ h => hb k c s t h) c h

theorem SameOutside.writeByte {s t : State} (h : SameOutside s t) (a : Nat) (b : Byte) :
    SameOutside (s.writeByte a b) (t.writeByte a b) := h.map (op := fun s => s.writeByte a b) fun _ _ _ _ => rfl

theorem SameOutside.writeWord {s t : State} (h : SameOutside s t) (k : Nat) (v : Word) :
    SameOutside (s.writeWord k v) (t.writeWord k v) := by
  unfold State.writeWord
  iterate 8 apply SameOutside.writeByte
  exact h

theorem blind_zeroWord (base : Nat) : Blind (zeroWord base) := fun _ _ _ _ h => ⟨rfl, h.writeWord _ _⟩

theorem blind_testWord (base : Nat) : Blind (testWord base) := fun _ _ _ _ h => by
  simp only [testWord, h.readWord]
  exact ⟨trivial, h⟩

theorem blind_copyArgsWord (x : Args) : Blind (copyArgsWord x) := fun _ _ _ _ h => by
  simp only [copyArgsWord, copyWord, h.readWord]
  exact ⟨trivial, h.writeWord _ _⟩

theorem blind_addWord (base : Nat) : Blind (addWord base) := fun _ _ _ _ h => by
  simp only [addWord, h.readWord]
  exact ⟨trivial, h.writeWord _ _⟩

theorem blind_mulWord (base : Nat) (w : Word) : Blind (mulWord base w) := fun _ _ _ _ h => by
  simp only [mulWord, h.readWord]
  exact ⟨trivial, h.writeWord _ _⟩

theorem blind_divWord (base len : Nat) (w : Word) : Blind (divWord base len w) := fun _ _ _ _ h => by
  simp only [divWord, h.readWord]
  exact ⟨trivial, h.writeWord _ _⟩

theorem blind_addLongWord (x : Args) : Blind (addLongWord x) := fun _ _ _ _ h => by
  simp only [addLongWord, h.readWord]
  exact ⟨trivial, h.writeWord _ _⟩

/-! ### Ends of a command -/

theorem SameOutside.complete {s t : State} (h : SameOutside s t) (v : Word) (f z : Bool) :
    SameOutside (s.complete v f z) (t.complete v f z) := h.map (op := fun s => s.complete v f z) fun _ _ _ _ => rfl

theorem SameOutside.run {s t : State} (h : SameOutside s t) (r : Running) : SameOutside (s.run r) (t.run r) :=
  h.map (op := fun s => s.run r) fun _ _ _ _ => rfl

theorem SameOutside.terminate {s t : State} (h : SameOutside s t) (x : Args) (code : Byte) :
    SameOutside (s.terminate x code) (t.terminate x code) :=
  h.map (op := fun s => s.terminate x code) fun _ _ _ _ => rfl

theorem SameOutside.setInput {s t : State} (h : SameOutside s t) (l : List InItem) :
    SameOutside (s.setInput l) (t.setInput l) := h.map (op := fun s => s.setInput l) fun _ _ _ _ => rfl

theorem SameOutside.outWrite {s t : State} (h : SameOutside s t) (b : Byte) :
    SameOutside (s.outWrite b) (t.outWrite b) := h.map (op := fun s => s.outWrite b) fun _ _ _ _ => rfl

theorem SameOutside.diagWrite {s t : State} (h : SameOutside s t) (b : Byte) :
    SameOutside (s.diagWrite b) (t.diagWrite b) := h.map (op := fun s => s.diagWrite b) fun _ _ _ _ => rfl

theorem SameOutside.forgetScr {s t : State} (h : SameOutside s t) : SameOutside s.forgetScr t.forgetScr := by
  obtain ⟨_, f, _, g, rfl⟩ := h
  exact ⟨_, f, _, g, rfl⟩

theorem SameOutside.forgetFmt {s t : State} (h : SameOutside s t) : SameOutside s.forgetFmt t.forgetFmt := by
  obtain ⟨v, _, e, _, rfl⟩ := h
  exact ⟨v, _, e, _, rfl⟩

/-- A command that is one loop of blind steps. -/
theorem oneLoop_sameOutside (word : Args → WordBody) (done : Word → State → State) {r : Running}
    (hw : Blind (word r.args)) (hd : ∀ c s t, SameOutside s t → SameOutside (done c s) (done c t)) {s t : State}
    (h : SameOutside s t) : SameOutside (oneLoop word done r s) (oneLoop word done r t) := by
  obtain ⟨hc, hs⟩ := hw.loop r.args.len.toNat 0 r.carry h
  rw [oneLoop, oneLoop, hc]
  exact hd _ _ _ hs

/-! ### MUL_LONG -/

/-- The states differ in the internal buffers only, and the first `n` words of `SCR` read alike. -/
def SameScratch (n : Nat) (s t : State) : Prop := SameOutside s t ∧ ∀ k, k < n → t.readScr k = s.readScr k

theorem SameScratch.writeScr {n : Nat} {s t : State} (h : SameScratch n s t) (k : Nat) (v : Word) :
    SameScratch n (s.writeScr k v) (t.writeScr k v) := by
  obtain ⟨⟨_, f, e, g, rfl⟩, hr⟩ := h
  refine ⟨⟨_, f, e, g, rfl⟩, fun j hj => ?_⟩
  rw [State.readScr_writeScr, State.readScr_writeScr, hr j hj]

theorem SameScratch.writeWord {n : Nat} {s t : State} (h : SameScratch n s t) (k : Nat) (v : Word) :
    SameScratch n (s.writeWord k v) (t.writeWord k v) :=
  ⟨h.1.writeWord k v, fun j hj => by
    simpa only [State.readScr, State.writeWord_scr, State.writeWord_scrEpoch] using h.2 j hj⟩

theorem SameScratch.loop {n m : Nat} {body : WordBody} {s t : State} (h : SameScratch n s t)
    (hb : ∀ k c s t, k < m → SameScratch n s t →
      (body k c t).1 = (body k c s).1 ∧ SameScratch n (body k c s).2 (body k c t).2) (c : Word) :
    (forWords body m 0 c t).1 = (forWords body m 0 c s).1 ∧
      SameScratch n (forWords body m 0 c s).2 (forWords body m 0 c t).2 :=
  forWords_agree (fun k c s t _ hk => hb k c s t (by omega)) c h

/-- The zeroing of the scratch makes it the same on both sides (R190). -/
theorem scratchZero_agree {s t : State} (h : SameOutside s t) (n : Nat) :
    SameScratch n (forWords scratchZeroWord n 0 0 s).2 (forWords scratchZeroWord n 0 0 t).2 := by
  refine ⟨(forWords_agree (R := SameOutside) (fun k c s t _ _ h => ?_) 0 h).2, fun k hk => ?_⟩
  · obtain ⟨_, f, e, g, rfl⟩ := h
    exact ⟨rfl, _, f, e, g, rfl⟩
  · rw [forWords_scratchZero, forWords_scratchZero, if_pos (by omega), if_pos (by omega)]

theorem scratchLoadWord_agree (x : Args) {n : Nat} (k : Nat) (c : Word) {s t : State} (h : SameScratch n s t) :
    (scratchLoadWord x k c t).1 = (scratchLoadWord x k c s).1 ∧
      SameScratch n (scratchLoadWord x k c s).2 (scratchLoadWord x k c t).2 := by
  simp only [scratchLoadWord, h.1.readWord]
  exact ⟨trivial, h.writeScr _ _⟩

theorem scratchMulWord_agree (x : Args) (i : Nat) {n k : Nat} (hk : k < n) (c : Word) {s t : State}
    (h : SameScratch n s t) :
    (scratchMulWord x i k c t).1 = (scratchMulWord x i k c s).1 ∧
      SameScratch n (scratchMulWord x i k c s).2 (scratchMulWord x i k c t).2 := by
  simp only [scratchMulWord, h.1.readWord, h.2 k hk]
  exact ⟨trivial, h.writeScr _ _⟩

theorem productAddWord_agree (x : Args) (i : Nat) {n k : Nat} (hk : k < n) (c : Word) {s t : State}
    (h : SameScratch n s t) :
    (productAddWord x i k c t).1 = (productAddWord x i k c s).1 ∧
      SameScratch n (productAddWord x i k c s).2 (productAddWord x i k c t).2 := by
  simp only [productAddWord, h.1.readWord, h.2 k hk]
  exact ⟨trivial, h.writeWord _ _⟩

theorem mulRow_agree (x : Args) (i : Nat) (c : Bool) {s t : State} (h : SameOutside s t) :
    (mulRow x i c t).1 = (mulRow x i c s).1 ∧ SameOutside (mulRow x i c s).2 (mulRow x i c t).2 := by
  have h1 := scratchZero_agree h (x.len.toNat + 1)
  obtain ⟨_, h2⟩ := h1.loop (m := x.len.toNat) (fun k c s t _ h => scratchLoadWord_agree x k c h) 0
  obtain ⟨e3, h3⟩ := h2.loop (m := x.len.toNat + 1) (fun k c s t hk h => scratchMulWord_agree x i hk c h) 0
  obtain ⟨e4, h4⟩ := h3.loop (m := x.len.toNat + 1) (fun k c s t hk h => productAddWord_agree x i hk c h) 0
  simp only [mulRow, e3, e4]
  exact ⟨trivial, h4.1⟩

theorem mulRows_agree (x : Args) (n i : Nat) (c : Bool) {s t : State} (h : SameOutside s t) :
    (mulRows x n i c t).1 = (mulRows x n i c s).1 ∧ SameOutside (mulRows x n i c s).2 (mulRows x n i c t).2 := by
  induction n generalizing i c s t with
  | zero => exact ⟨rfl, h⟩
  | succ n ih =>
    obtain ⟨e, h1⟩ := mulRow_agree x i c h
    rw [mulRows, mulRows, e]
    exact ih (i + 1) _ h1

theorem mulLongRun_sameOutside (r : Running) {s t : State} (h : SameOutside s t) :
    SameOutside (mulLongRun r s) (mulLongRun r t) := by
  obtain ⟨_, h0⟩ := (blind_zeroWord r.args.p.toNat).loop (2 * r.args.len.toNat) 0 0 h
  obtain ⟨e, h1⟩ := mulRows_agree r.args r.args.len.toNat 0 false h0
  unfold mulLongRun productClearWord
  dsimp only
  rw [e]
  exact (h1.complete _ _ _).forgetScr

/-! ### PARSE -/

theorem skipLine_sameOutside (r : Running) (items : List InItem) {s t : State} (h : SameOutside s t) :
    SameOutside (skipLine r items s) (skipLine r items t) := by
  induction items generalizing s t with
  | nil => exact h.run _
  | cons it rest ih =>
    cases it with
    | endItem => exact h.terminate _ _
    | byte b =>
      rw [skipLine, skipLine]
      split
      · exact (h.setInput rest).terminate _ _
      · exact ih (h.setInput rest)

theorem emitDiag_agree (bs : List Byte) (k : Nat) {s t : State} (h : SameOutside s t) :
    (emitDiag bs k t).1 = (emitDiag bs k s).1 ∧ SameOutside (emitDiag bs k s).2 (emitDiag bs k t).2 := by
  induction bs generalizing k s t with
  | nil => exact ⟨rfl, h⟩
  | cons b bs ih =>
    obtain ⟨_, _, hr⟩ := h.streams_eq
    rw [emitDiag, emitDiag, hr]
    split
    · exact ⟨rfl, h⟩
    · exact ih (k + 1) (h.diagWrite b)

theorem diagnose_sameOutside (r : Running) (x : Byte) {s t : State} (h : SameOutside s t) :
    SameOutside (diagnose r x s) (diagnose r x t) := by
  obtain ⟨e, h1⟩ := emitDiag_agree (diagnostic x) 0 h
  unfold diagnose
  dsimp only
  rw [e, h1.streams_eq.1]
  split
  · exact h1.run _
  · exact skipLine_sameOutside r _ h1

theorem digitStep_agree (x : Args) (d : Word) {s t : State} (h : SameOutside s t) :
    (digitStep x d t).1 = (digitStep x d s).1 ∧ SameOutside (digitStep x d s).2 (digitStep x d t).2 := by
  obtain ⟨e1, h1⟩ := (blind_mulWord x.a.toNat 10).loop x.len.toNat 0 0 h
  obtain ⟨e2, h2⟩ := (blind_addWord x.a.toNat).loop x.len.toNat 0 d h1
  simp only [digitStep, parseTimesWord, parseAddWord, e1, e2]
  exact ⟨trivial, h2⟩

theorem parseItems_sameOutside (r : Running) (items : List InItem) {s t : State} (h : SameOutside s t) :
    SameOutside (parseItems r items s) (parseItems r items t) := by
  induction items generalizing r s t with
  | nil => exact h.run _
  | cons it rest ih =>
    rw [parseItems, parseItems]
    cases parseMove r.count it with
    | exhausted => exact h.terminate _ _
    | complete => exact (h.setInput _).complete _ _ _
    | digit d =>
      obtain ⟨e, h1⟩ := digitStep_agree r.args d (h.setInput rest)
      dsimp only
      rw [e]
      exact ih _ h1
    | invalid x => exact diagnose_sameOutside r x (h.setInput rest)

theorem parseRun_sameOutside (r : Running) {s t : State} (h : SameOutside s t) :
    SameOutside (parseRun r s) (parseRun r t) := by
  obtain ⟨_, h0⟩ := (blind_zeroWord r.args.a.toNat).loop r.args.len.toNat 0 0 h
  unfold parseRun parseClearWord
  dsimp only
  rw [h0.streams_eq.1]
  exact parseItems_sameOutside r _ h0

/-! ### FORMAT -/

/-- The states differ in the internal buffers only, and the digits placed so far, the last `n` bytes of `FMT_BUF`, read
alike. -/
def SameDigits (n : Nat) (s t : State) : Prop :=
  SameOutside s t ∧
    ∀ j, 0 < j → j ≤ n → t.readFmt (digcap s.params - j) = s.readFmt (digcap s.params - j)

/-- Placing the next digit. -/
theorem SameDigits.placeDigit {n : Nat} {s t : State} (h : SameDigits n s t) (r : Word) :
    SameDigits (n + 1) (placeDigit (n + 1) r s) (placeDigit (n + 1) r t) := by
  obtain ⟨hs, hr⟩ := h
  have hp := hs.params_eq
  obtain ⟨v, _, e, g, rfl⟩ := hs
  refine ⟨⟨v, _, e, g, rfl⟩, fun j h0 hj => ?_⟩
  rw [Machine.placeDigit, Machine.placeDigit, State.readFmt_writeFmt, State.readFmt_writeFmt, State.writeFmt_params, hp]
  split
  · rfl
  · rename_i hne
    exact hr j h0 (by by_contra hc; exact hne (by rw [show j = n + 1 by omega]))

/-- A loop of blind word steps leaves the digits alone. -/
theorem SameDigits.loop {body : WordBody} (hb : Blind body)
    (hm : ∀ k c s, ∃ m, (body k c s).2 = s.setBufram m) {m : Nat} {s t : State} (h : SameDigits m s t)
    (n i : Nat) (c : Word) :
    (forWords body n i c t).1 = (forWords body n i c s).1 ∧
      SameDigits m (forWords body n i c s).2 (forWords body n i c t).2 := by
  obtain ⟨e, h1⟩ := hb.loop n i c h.1
  refine ⟨e, h1, ?_⟩
  obtain ⟨w, hw⟩ := forWords_onlyRam hm n i c s
  obtain ⟨w', hw'⟩ := forWords_onlyRam hm n i c t
  rw [hw, hw']
  exact h.2

theorem formatDigits_agree (x : Args) (fuel n : Nat) {s t : State} (h : SameDigits n s t) :
    (formatDigits x fuel n t).1 = (formatDigits x fuel n s).1 ∧
      SameDigits (formatDigits x fuel n s).1 (formatDigits x fuel n s).2 (formatDigits x fuel n t).2 := by
  induction fuel generalizing n s t with
  | zero => exact ⟨rfl, h⟩
  | succ fuel ih =>
    obtain ⟨e1, h1⟩ := h.loop (blind_divWord x.a.toNat x.len.toNat 10) (fun _ _ _ => ⟨_, State.writeWord_eq ..⟩)
      x.len.toNat 0 0
    have h2 := h1.placeDigit (forWords (divWord x.a.toNat x.len.toNat 10) x.len.toNat 0 0 s).1
    obtain ⟨e3, h3⟩ := h2.loop (blind_testWord x.a.toNat) (fun _ _ s => ⟨s.bufram, rfl⟩) x.len.toNat 0 1
    unfold formatDigits formatDivWord formatTestWord
    dsimp only
    rw [e1, e3]
    split
    · exact ih (n + 1) h3
    · exact ⟨rfl, h3⟩

theorem emitDigits_agree {n m k : Nat} (hk : k + m ≤ n) {s t : State} (hn : n ≤ digcap s.params)
    (h : SameDigits n s t) :
    (emitDigits n m k t).1 = (emitDigits n m k s).1 ∧ SameOutside (emitDigits n m k s).2 (emitDigits n m k t).2 := by
  induction m generalizing k s t with
  | zero => exact ⟨rfl, h.1⟩
  | succ m ih =>
    obtain ⟨_, hr, _⟩ := h.1.streams_eq
    have hb : emittedDigit n k t = emittedDigit n k s := by
      rw [emittedDigit, emittedDigit, h.1.params_eq, show digcap s.params - n + k = digcap s.params - (n - k) by omega]
      exact h.2 (n - k) (by omega) (by omega)
    rw [emitDigits, emitDigits, hr, hb]
    split
    · exact ⟨rfl, h.1⟩
    · exact ih (by omega) hn ⟨h.1.outWrite _, h.2⟩

/-- FORMAT has no more digits than `FMT_BUF` has bytes (R244). -/
theorem formatDigits_count_le {x : Args} {s : State} (hp : s.params.wellFormed = true)
    (hl : x.len.toNat ≤ 2 * s.params.n) :
    (formatDigits x (64 * x.len.toNat + 1) 0 s).1 ≤ digcap s.params := by
  simp only [Params.wellFormed, Bool.and_eq_true, decide_eq_true_eq] at hp
  obtain ⟨⟨⟨h1, h2⟩, _⟩, _⟩ := hp
  have hv := s.val_lt x.a.toNat x.len.toNat
  have hf : s.val x.a.toNat x.len.toNat < 10 ^ (64 * x.len.toNat + 1) := hv.trans_le (two_pow_le_ten_pow (by omega))
  have le_of_pred : ∀ {a b : Nat}, a - 1 < b → a ≤ b := by omega
  have hcap : s.val x.a.toNat x.len.toNat < 10 ^ digcap s.params :=
    calc s.val x.a.toNat x.len.toNat < 2 ^ (64 * x.len.toNat) := hv
      _ ≤ 2 ^ (128 * s.params.n) := Nat.pow_le_pow_right (by decide) (by omega)
      _ ≤ 10 ^ digcap s.params := le_of_pred (digcap_spec h1 h2).2
  rw [(formatDigits_spec x _ 0 s hf (Nat.succ_pos _)).1, Nat.zero_add]
  exact (digitCount_le_iff (digcap_pos s.params)).mpr hcap

theorem formatTail_sameOutside (r : Running) {s t : State} (h : SameOutside s t) :
    SameOutside (formatTail r s) (formatTail r t) := by
  obtain ⟨_, hr, _⟩ := h.streams_eq
  rw [formatTail, formatTail, hr]
  split
  · split
    · exact h.run _
    · exact ((h.outWrite newline).complete _ _ _).forgetFmt
  · exact (h.complete _ _ _).forgetFmt

theorem formatDigits_params (x : Args) (fuel n : Nat) (s : State) :
    (formatDigits x fuel n s).2.params = s.params := by
  obtain ⟨⟨_, _, _, _, e⟩, _⟩ := formatDigits_effect x fuel n s
  rw [e]
  rfl

theorem formatRun_sameOutside {r : Running} {s t : State} (hp : s.params.wellFormed = true)
    (hl : r.args.len.toNat ≤ 2 * s.params.n) (h : SameOutside s t) : SameOutside (formatRun r s) (formatRun r t) := by
  have hcount := formatDigits_count_le hp hl
  obtain ⟨e1, h1⟩ := formatDigits_agree r.args (64 * r.args.len.toNat + 1) 0 ⟨h, fun j h0 hj => by omega⟩
  rw [← formatDigits_params r.args (64 * r.args.len.toNat + 1) 0 s] at hcount
  obtain ⟨e2, h2⟩ := emitDigits_agree (Nat.zero_add _).le hcount h1
  unfold formatRun
  dsimp only
  rw [e1, e2]
  split
  · exact h2.run _
  · exact formatTail_sameOutside _ h2

/-! ### Every command -/

theorem runBody_sameOutside {i : Instr} {r : Running} {s t : State} (hp : s.params.wellFormed = true)
    (hc : check i r.args s.params = none) (h : SameOutside s t) : SameOutside (runBody i r s) (runBody i r t) := by
  cases i with
  | zeroFill => exact oneLoop_sameOutside zeroFillWord zeroFillDone (blind_zeroWord _) (fun _ _ _ h => h.complete _ _ _) h
  | copy => exact oneLoop_sameOutside copyArgsWord copyDone (blind_copyArgsWord _) (fun _ _ _ h => h.complete _ _ _) h
  | isZero => exact oneLoop_sameOutside isZeroWord isZeroDone (blind_testWord _) (fun _ _ _ h => h.complete _ _ _) h
  | addShort => exact oneLoop_sameOutside addShortWord addShortDone (blind_addWord _) (fun _ _ _ h => h.complete _ _ _) h
  | mulShort => exact oneLoop_sameOutside mulShortWord mulShortDone (blind_mulWord _ _) (fun _ _ _ h => h.complete _ _ _) h
  | divShort => exact oneLoop_sameOutside divShortWord divShortDone (blind_divWord _ _ _) (fun _ _ _ h => h.complete _ _ _) h
  | addLong => exact oneLoop_sameOutside addLongWord addLongDone (blind_addLongWord _) (fun _ _ _ h => h.complete _ _ _) h
  | mulLong => exact mulLongRun_sameOutside r h
  | parse => exact parseRun_sameOutside r h
  | format nl =>
    have hl := ((check_eq_none_iff (.format nl) r.args s.params).mp hc).1
    exact formatRun_sameOutside hp (by simpa [lengthFails] using hl) h

/-- Settles O18: a dropped and a faulting command look at no buffer, and an accepted one runs alike on both sides. -/
theorem internalBuffersDoNotMatter : Obligations.InternalBuffersDoNotMatter := by
  intro i s t scr fmt e f hp h
  rw [exec_eq] at h
  injection h with h
  have same : SameOutside (command i (runBody i) s)
      (command i (runBody i) { s with scr := scr, fmtBuf := fmt, scrEpoch := e, fmtEpoch := f }) := by
    unfold command
    dsimp only
    split
    · exact ⟨scr, fmt, e, f, rfl⟩
    · split
      · exact ⟨scr, fmt, e, f, rfl⟩
      · rename_i hc
        exact runBody_sameOutside hp hc ⟨scr, fmt, e, f, rfl⟩
  obtain ⟨_, _, _, _, e'⟩ := same
  exact ⟨_, exec_eq _ _, by rw [e', ← h]⟩

end Sys2Proof.Machine
end

section
/-!
PROOFS. The window of `BUFRAM` and of the reserved offsets, refused and dropped accesses, the `CMD` write that runs a
command, delivery to `IN`, and the byte lanes of a word (R73 to R81, R89, R121, R122).
-/
namespace Sys2Proof.Machine

/-! ### The state as the agenda's entry is taken -/

@[simp] theorem State.popped_params (s : State) : s.popped.params = s.params := rfl
@[simp] theorem State.popped_status (s : State) : s.popped.status = s.status := rfl
@[simp] theorem State.popped_input (s : State) : s.popped.input = s.input := rfl

/-! ### Where an access leads -/

/-- The map of R79 for the words of `BUFRAM`. -/
theorem targetAt_ram {p : Params} {k : Nat} (h : k < p.bufWords) : targetAt p (0x10000 + 8 * k) = .ram k := by
  have hk : (0x10000 + 8 * k - ramOffset) / 8 = k := by unfold ramOffset; omega
  unfold targetAt
  iterate 10 rw [if_neg (by omega)]
  rw [hk, if_pos ⟨by unfold ramOffset; omega, h⟩]

/-- The map of R80 for the reserved offsets. -/
theorem targetAt_reserved {p : Params} {off : Nat} (h8 : off % 8 = 0)
    (h : 0x050 ≤ off ∧ off ≤ 0xFFF8 ∨ 0x10000 + 8 * p.bufWords ≤ off) : targetAt p off = .reserved := by
  unfold targetAt
  iterate 10 rw [if_neg (by omega)]
  rw [if_neg (by unfold ramOffset; omega)]

/-- An access inside the window of another width or at another offset than R75 admits. -/
theorem decodeAccess_misaligned (p : Params) {off width : Nat} (h : off < windowBytes)
    (hw : width ≠ 64 ∨ off % 8 ≠ 0) : decodeAccess p (p.mmioBase + off) width = .refused := by
  unfold decodeAccess
  rw [if_neg (by omega), Nat.add_sub_cancel_left, if_pos hw]

/-- An access outside the window (R80). -/
theorem decodeAccess_outside {p : Params} {addr : Nat} (h : addr < p.mmioBase ∨ p.mmioBase + windowBytes ≤ addr)
    (width : Nat) : decodeAccess p addr width = .outside := if_pos h

/-! ### Refused and foreign accesses -/

/-- The step of an access that leads to no target only answers it. -/
theorem step_no_target {s : State} {addr width : Nat} {v : Word} {rep : Reply}
    (h : s.nextAction = some (.read addr width) ∨ s.nextAction = some (.write addr width v))
    (hd : decodeAccess s.params addr width = .refused ∧ rep = .busError ∨
      decodeAccess s.params addr width = .outside ∧ rep = .undecoded) :
    step s = .next { s.popped with reply := rep } := by
  rw [← State.popped_params] at hd
  rcases h with h | h <;> rw [step_action h]
  · show Host.Outcome.next (hostRead addr width s.popped) = _
    rcases hd with ⟨hd, rfl⟩ | ⟨hd, rfl⟩ <;> rw [hostRead, hd] <;> rfl
  · show hostWrite exec addr width v s.popped = _
    rcases hd with ⟨hd, rfl⟩ | ⟨hd, rfl⟩ <;> rw [hostWrite, hd] <;> rfl

/-- Settles O44: such an access leads to the error response (R75). -/
theorem misalignedAccessesAreRefused : Obligations.MisalignedAccessesAreRefused := by
  intro s off width v hoff hw h
  exact step_no_target h (.inl ⟨decodeAccess_misaligned s.params hoff hw, rfl⟩)

/-- Settles O45: a reserved offset is a target that holds nothing, and an address outside the window leads to none. -/
theorem reservedOffsetsReadZero : Obligations.ReservedOffsetsReadZero := by
  refine ⟨fun s off h8 hoff => ?_, fun s addr width v hout h => ?_⟩
  · have ht : targetAt s.params off = .reserved := targetAt_reserved h8 (by omega)
    have hw : off < windowBytes := by unfold windowBytes; omega
    refine ⟨fun h => step_read_register h hw h8 ?_ ?_, fun v h => ?_⟩
    · rw [ht]; rfl
    · rw [ht]; rfl
    · rw [step_write h hw h8 (by rw [ht]; nofun), ht]; rfl
  · exact step_no_target h (.inr ⟨decodeAccess_outside hout width, rfl⟩)

/-! ### The `CMD` write -/

/-- The step of a write to `CMD` (R79, R121). -/
theorem step_write_cmd {s : State} {v : Word} (h : s.nextAction = some (.write (s.params.mmioBase + 0x010) 64 v)) :
    step s = writeCmd exec v (s.popped.setReply .ack) := by
  rw [step_action h]
  show hostWrite exec _ _ v s.popped = _
  rw [hostWrite, State.popped_params, decodeAccess_admitted s.params (by decide) (by decide)]
  rfl

/-- A `CMD` write while the block is blocked is dropped, whatever its value decodes to (R122). -/
theorem writeCmd_blocked {s : State} (h : s.status.blocked = true) (v : Word) : writeCmd exec v s = .next s.drop := by
  have drop : ∀ i body, command i body s = s.drop := fun i body => by rw [command, if_pos h]
  rw [writeCmd]
  split
  · rw [rejectWord, if_pos h]
  · rw [accept, exec_eq, drop, drop, ite_self]

/-- Settles O4: the write reaches `CMD`, and the agenda says whether the command runs at once. -/
theorem stepRunsTheDecodedCommand : Obligations.StepRunsTheDecodedCommand := by
  intro s v i h hd
  have hc : step s = if s.popped.overlapped then .next (accept i { s.popped with reply := .ack })
      else exec i { s.popped with reply := .ack } := by
    rw [step_write_cmd h, writeCmd, hd]
    rfl
  exact ⟨fun ho => by rw [hc, ho]; rfl, fun ho => by rw [hc, ho]; rfl⟩

/-! ### BUFRAM words -/

/-- A store while the block is busy (R76). -/
theorem unlessBusy_busy {s : State} (h : s.status.busy = true) (store : State → State) :
    unlessBusy store s = s.drop := by
  rw [unlessBusy, h]
  rfl

/-- The step of a write that the busy rule drops (R76). -/
theorem step_write_dropped {s : State} {off : Nat} {v : Word} {store : State → State} (hb : s.status.busy = true)
    (h : s.nextAction = some (.write (s.params.mmioBase + off) 64 v)) (hw : off < windowBytes) (h8 : off % 8 = 0)
    (hc : targetAt s.params off ≠ .cmd) (ht : writeTarget (targetAt s.params off) v = unlessBusy store) :
    step s = .next { s.popped with status := { s.status with haz := true }, reply := .ack } := by
  rw [step_write h hw h8 hc, ht, unlessBusy_busy (s := s.popped.setReply .ack) hb]
  rfl

/-- Settles O46: every one of these stores is under the busy rule, and so is the read of a `BUFRAM` word. -/
theorem busyAccessesAreDropped : Obligations.BusyAccessesAreDropped := by
  intro s off v hb h8 ram dropped
  have hram : ram → targetAt s.params off = .ram ((off - 0x10000) / 8) := fun ⟨h1, h2, _⟩ => by
    rw [← targetAt_ram (p := s.params) (k := (off - 0x10000) / 8) (by omega)]
    congr 1
    omega
  have hwin : ram → off < windowBytes := fun ⟨_, _, h⟩ => h
  refine ⟨fun hoff h => ?_, fun hr h => ?_, fun hoff h => ?_⟩
  · rcases hoff with hoff | hr
    · have : off = 0x018 ∨ off = 0x020 ∨ off = 0x028 ∨ off = 0x030 ∨ off = 0x038 := by omega
      rcases this with rfl | rfl | rfl | rfl | rfl <;> exact step_write_dropped hb h (by decide) h8 nofun rfl
    · have ht := hram hr
      exact step_write_dropped hb h (hwin hr) h8 (by rw [ht]; nofun) (by rw [ht]; rfl)
  · rw [step_read h (hwin hr) h8, hram hr]
    simp only [readEffect, readValue, State.popped_status, hb, if_true]
    rfl
  · subst hoff
    rw [step_write_cmd h, writeCmd_blocked (by simp [Status.blocked, hb]) v]
    rfl

/-- Settles O51: the offset names word `k` (R79), and idle the access is a read or a write of that word. -/
theorem ramWindowReadsAndWrites : Obligations.RamWindowReadsAndWrites := by
  intro s k v hb hk hk'
  have ht := targetAt_ram hk
  have hw : 0x10000 + 8 * k < windowBytes := by unfold windowBytes; omega
  refine ⟨fun h => step_read_register h hw (by omega) ?_ ?_,
    fun h => ⟨(s.popped.setReply .ack).writeWord k v, ?_, ?_, ?_, ?_⟩⟩
  · simp [ht, readEffect, State.popped_status, hb]
  · simp only [ht, readValue, State.popped_status, hb]
    rfl
  · rw [step_write h hw (by omega) (by rw [ht]; nofun), ht]
    exact congrArg Host.Outcome.next (unlessBusy_idle (s := s.popped.setReply .ack) hb fun s => s.writeWord k v)
  · exact State.writeWord_eq ..
  · exact State.readWord_writeWord_same ..
  · exact fun j hj => State.readWord_writeWord_ne _ hj v

/-! ### Byte lanes -/

/-- A lane in plain arithmetic (R73). -/
theorem lane_toNat (v : Word) (j : Nat) : (lane v j).toNat = v.toNat / 2 ^ (8 * j) % 256 := by
  rw [lane, BitVec.extractLsb'_toNat, Nat.shiftRight_eq_div_pow]

/-- A value determines its low byte and what stands above it. -/
theorem append_byte_inj {n : Nat} {x x' : BitVec n} {y y' : Byte} (h : x ++ y = x' ++ y') : x = x' ∧ y = y' :=
  ⟨by simpa only [BitVec.extractLsb'_append_eq_left] using congrArg (BitVec.extractLsb' 8 n) h,
    by simpa only [BitVec.extractLsb'_append_eq_right] using congrArg (BitVec.extractLsb' 0 8) h⟩

/-- The lanes of a word are its bytes (R73). -/
theorem lane_readWord (s : State) (k : Nat) {j : Nat} (hj : j < 8) :
    lane (s.readWord k) j = s.readByte (8 * k + j) := by
  have h := lanes_join (s.readWord k)
  conv_rhs at h => rw [State.readWord]
  obtain ⟨h, h0⟩ := append_byte_inj h
  obtain ⟨h, h1⟩ := append_byte_inj h
  obtain ⟨h, h2⟩ := append_byte_inj h
  obtain ⟨h, h3⟩ := append_byte_inj h
  obtain ⟨h, h4⟩ := append_byte_inj h
  obtain ⟨h, h5⟩ := append_byte_inj h
  obtain ⟨h7, h6⟩ := append_byte_inj h
  interval_cases j <;> assumption

/-- Settles O52: a store puts the lanes of its value, and a word's lanes are the bytes it is kept as. -/
theorem lanesAreLittleEndian : Obligations.LanesAreLittleEndian := by
  intro s k v j hj
  constructor
  · rw [State.readByte_writeWord, if_pos (by omega), Nat.add_sub_cancel_left, lane_toNat]
  · rw [← lane_readWord s k hj, lane_toNat]

/-! ### Delivery -/

/-- Settles O40: the delivery is the step, and `End` in `IN` keeps every later item out. -/
theorem deliveredItemsJoinInOrder : Obligations.DeliveredItemsJoinInOrder := by
  intro s it h
  have hs : step s = .next (s.popped.deliver it) := step_action h
  refine ⟨fun hn => ?_, fun he => ?_⟩
  · rw [hs, State.deliver, if_neg (by simpa using hn)]; rfl
  · rw [hs, State.deliver, if_pos (by simpa using he)]

end Sys2Proof.Machine
end

section
/-!
PROOFS. A running command uses what it latched at acceptance: no turn looks at the argument registers or touches them
(R87, R121).
-/
namespace Sys2Proof.Machine

/-- An operation that neither looks at the argument registers nor touches them. -/
def IgnoresArgs (op : State → State) : Prop := ∀ s x, op (s.setArgs x) = (op s).setArgs x

/-- A word step that neither looks at the argument registers nor touches them. -/
def WordIgnoresArgs (body : WordBody) : Prop :=
  ∀ k c s x, body k c (s.setArgs x) = ((body k c s).1, (body k c s).2.setArgs x)

theorem State.writeWord_setArgs (s : State) (x : Args) (k : Nat) (v : Word) :
    (s.setArgs x).writeWord k v = (s.writeWord k v).setArgs x := rfl

theorem State.readWord_setArgs (s : State) (x : Args) (k : Nat) : (s.setArgs x).readWord k = s.readWord k := rfl

/-- A step that writes one word of `BUFRAM`, computed without the argument registers. -/
theorem wordIgnoresArgs_ram {body : WordBody} {f g : Nat → Word → State → Word} {k : Nat → Nat}
    (h : ∀ i c s, body i c s = (f i c s, s.writeWord (k i) (g i c s)))
    (hf : ∀ i c s x, f i c (s.setArgs x) = f i c s) (hg : ∀ i c s x, g i c (s.setArgs x) = g i c s) :
    WordIgnoresArgs body := by
  intro i c s x
  rw [h, h, hf, hg, State.writeWord_setArgs]

theorem zeroWord_ignoresArgs (base : Nat) : WordIgnoresArgs (zeroWord base) :=
  wordIgnoresArgs_ram (fun _ _ _ => rfl) (fun _ _ _ _ => rfl) (fun _ _ _ _ => rfl)

theorem copyArgsWord_ignoresArgs (y : Args) : WordIgnoresArgs (copyArgsWord y) :=
  wordIgnoresArgs_ram (fun _ _ _ => rfl) (fun _ _ _ _ => rfl) (fun _ _ _ _ => rfl)

theorem testWord_ignoresArgs (base : Nat) : WordIgnoresArgs (testWord base) := fun _ _ _ _ => rfl

theorem addWord_ignoresArgs (base : Nat) : WordIgnoresArgs (addWord base) :=
  wordIgnoresArgs_ram (fun _ _ _ => rfl) (fun _ _ _ _ => rfl) (fun _ _ _ _ => rfl)

theorem mulWord_ignoresArgs (base : Nat) (w : Word) : WordIgnoresArgs (mulWord base w) :=
  wordIgnoresArgs_ram (fun _ _ _ => rfl) (fun _ _ _ _ => rfl) (fun _ _ _ _ => rfl)

theorem divWord_ignoresArgs (base len : Nat) (w : Word) : WordIgnoresArgs (divWord base len w) :=
  wordIgnoresArgs_ram (k := fun i => base + (len - 1 - i)) (fun _ _ _ => rfl) (fun _ _ _ _ => rfl) (fun _ _ _ _ => rfl)

theorem addLongWord_ignoresArgs (y : Args) : WordIgnoresArgs (addLongWord y) :=
  wordIgnoresArgs_ram (fun _ _ _ => rfl) (fun _ _ _ _ => rfl) (fun _ _ _ _ => rfl)

theorem productAddWord_ignoresArgs (y : Args) (i : Nat) : WordIgnoresArgs (productAddWord y i) :=
  wordIgnoresArgs_ram (fun _ _ _ => rfl) (fun _ _ _ _ => rfl) (fun _ _ _ _ => rfl)

theorem scratchZeroWord_ignoresArgs : WordIgnoresArgs scratchZeroWord := fun _ _ _ _ => rfl

theorem scratchLoadWord_ignoresArgs (y : Args) : WordIgnoresArgs (scratchLoadWord y) := fun _ _ _ _ => rfl

theorem scratchMulWord_ignoresArgs (y : Args) (i : Nat) : WordIgnoresArgs (scratchMulWord y i) := fun _ _ _ _ => rfl

/-- A turn of a loop ignores the argument registers if its word step and what follows the loop do. -/
theorem loopTurn_ignoresArgs {body : WordBody} {len : Nat} {after : Running → State → State} {r : Running}
    (hb : WordIgnoresArgs body) (ha : IgnoresArgs (after r)) : IgnoresArgs (loopTurn body len after r) := by
  intro s x
  rw [loopTurn, loopTurn]
  split
  · rw [hb]
    rfl
  · exact ha s x

theorem mulNext_ignoresArgs (i : Nat) (r : Running) : IgnoresArgs (mulNext i r) := by
  intro s x
  unfold mulNext
  split <;> rfl

theorem parseTake_ignoresArgs (r : Running) : IgnoresArgs (parseTake r) := by
  intro s x
  unfold parseTake
  rw [State.setArgs_input]
  cases s.input with
  | nil => rfl
  | cons it rest =>
    dsimp only
    cases parseMove r.count it <;> rfl

theorem parseDiscard_ignoresArgs (r : Running) : IgnoresArgs (parseDiscard r) := by
  intro s x
  unfold parseDiscard
  rw [State.setArgs_input]
  split
  · rfl
  · rfl
  · split <;> rfl

theorem diagTurn_ignoresArgs (y : Byte) (r : Running) : IgnoresArgs (diagTurn y r) := by
  intro s x
  unfold diagTurn
  split <;> rfl

theorem emitTurn_ignoresArgs (r : Running) : IgnoresArgs (emitTurn r) := by
  intro s x
  unfold emitTurn
  split
  · rfl
  · split <;> rfl

/-- A turn of the running command, phase by phase. -/
theorem turn_ignoresArgs (r : Running) : IgnoresArgs (turn r) := by
  intro s x
  have loop : ∀ {word : Args → WordBody} (done : Word → State → State), WordIgnoresArgs (word r.args) →
      (∀ c, IgnoresArgs (done c)) → oneLoopTurn word done r (s.setArgs x) = (oneLoopTurn word done r s).setArgs x :=
    fun done hw hd => loopTurn_ignoresArgs hw (hd r.carry) s x
  unfold turn
  dsimp only
  cases r.phase with
  | words =>
    dsimp only
    cases r.op with
    | zeroFill => exact loop zeroFillDone (zeroWord_ignoresArgs _) fun _ _ _ => rfl
    | copy => exact loop copyDone (copyArgsWord_ignoresArgs _) fun _ _ _ => rfl
    | isZero => exact loop isZeroDone (testWord_ignoresArgs _) fun _ _ _ => rfl
    | addShort => exact loop addShortDone (addWord_ignoresArgs _) fun _ _ _ => rfl
    | mulShort => exact loop mulShortDone (mulWord_ignoresArgs _ _) fun _ _ _ => rfl
    | divShort => exact loop divShortDone (divWord_ignoresArgs _ _ _) fun _ _ _ => rfl
    | addLong => exact loop addLongDone (addLongWord_ignoresArgs _) fun _ _ _ => rfl
    | mulLong | parse | format _ => rfl
  | mulClear => exact loopTurn_ignoresArgs (zeroWord_ignoresArgs _) (mulNext_ignoresArgs _ _) s x
  | mulZero => exact loopTurn_ignoresArgs scratchZeroWord_ignoresArgs (fun _ _ => rfl) s x
  | mulLoad => exact loopTurn_ignoresArgs (scratchLoadWord_ignoresArgs _) (fun _ _ => rfl) s x
  | mulTimes => exact loopTurn_ignoresArgs (scratchMulWord_ignoresArgs _ _) (fun _ _ => rfl) s x
  | mulAdd =>
    refine loopTurn_ignoresArgs (productAddWord_ignoresArgs _ _) (fun s x => ?_) s x
    exact mulNext_ignoresArgs _ _ s x
  | parseClear => exact loopTurn_ignoresArgs (zeroWord_ignoresArgs _) (fun _ _ => rfl) s x
  | parseRead => exact parseTake_ignoresArgs r s x
  | parseTimes d => exact loopTurn_ignoresArgs (mulWord_ignoresArgs _ _) (fun _ _ => rfl) s x
  | parseAdd => exact loopTurn_ignoresArgs (addWord_ignoresArgs _) (fun _ _ => rfl) s x
  | parseDiag y => exact diagTurn_ignoresArgs y r s x
  | parseSkip => exact parseDiscard_ignoresArgs r s x
  | fmtDivide => exact loopTurn_ignoresArgs (divWord_ignoresArgs _ _ _) (fun _ _ => rfl) s x
  | fmtTest => exact loopTurn_ignoresArgs (testWord_ignoresArgs _) (fun _ _ => rfl) s x
  | fmtEmit => exact emitTurn_ignoresArgs r s x
  | fmtNewline => rfl

/-- Whether a command is held does not depend on the argument registers (R353). -/
theorem held_setArgs (r : Running) (s : State) (x : Args) : r.held (s.setArgs x) = r.held s := rfl

/-- Settles O6: the record of the command, not the argument registers, says what the turn does. -/
theorem runningCommandIgnoresArgumentRegisters : Obligations.RunningCommandIgnoresArgumentRegisters := by
  intro s t x h
  show sequencerTurn (s.setArgs x) = .next (t.setArgs x)
  unfold sequencerTurn at h ⊢
  rw [State.setArgs_seq, State.setArgs_params]
  cases hs : s.seq with
  | idle | terminated =>
    rw [hs] at h
    injection h with h
    rw [h]
  | busy r =>
    rw [hs] at h
    dsimp only at h ⊢
    split at h
    · injection h with h
      rw [if_pos (by assumption), held_setArgs, turn_ignoresArgs, ← h, apply_ite (State.setArgs · x)]
    · cases h

end Sys2Proof.Machine
end

section
/-!
PROOFS. What a command may touch: its own streams (R89, R91) and the words it writes (R71, R102).
-/
namespace Sys2Proof.Machine

/-- `t` is `s` as far as command `i` with arguments `x` must leave it alone: the streams of other commands, what stands in
`OUT` and `DIAG` already, and the bytes outside the words it writes. -/
structure Touches (i : Instr) (x : Args) (s t : State) : Prop where
  parseStreams : i ≠ .parse → t.input = s.input ∧ t.diag = s.diag ∧ t.diagReady = s.diagReady
  formatStream : (∀ nl, i ≠ .format nl) → t.output = s.output ∧ t.outReady = s.outReady
  output : ∃ l, t.output = s.output ++ l
  diag : ∃ l, t.diag = s.diag ++ l
  bytes : ∀ a, a < 8 * (writtenWords i x).1 ∨ 8 * (writtenWords i x).1 + 8 * (writtenWords i x).2 ≤ a →
    t.readByte a = s.readByte a

/-- A command that leaves every stream alone. -/
theorem touches_of_streams_eq {i : Instr} {x : Args} {s t : State}
    (hs : t.input = s.input ∧ t.output = s.output ∧ t.diag = s.diag ∧ t.outReady = s.outReady ∧
      t.diagReady = s.diagReady)
    (hb : ∀ a, a < 8 * (writtenWords i x).1 ∨ 8 * (writtenWords i x).1 + 8 * (writtenWords i x).2 ≤ a →
      t.readByte a = s.readByte a) : Touches i x s t := by
  obtain ⟨hi, ho, hd, hr, hq⟩ := hs
  exact ⟨fun _ => ⟨hi, hd, hq⟩, fun _ => ⟨ho, hr⟩, ⟨[], by simp [ho]⟩, ⟨[], by simp [hd]⟩, hb⟩

/-- A termination leaves every byte outside the destination alone (R229). -/
theorem State.readByte_terminate_outside (s : State) {x : Args} {a : Nat}
    (h : a < 8 * x.a.toNat ∨ 8 * x.a.toNat + 8 * x.len.toNat ≤ a) (code : Byte) :
    (s.terminate x code).readByte a = s.readByte a := by
  have hn : ¬(8 * (Args.rangeA x).base ≤ a ∧ a < 8 * (Args.rangeA x).base + 8 * (Args.rangeA x).count) := by
    show ¬(8 * x.a.toNat ≤ a ∧ a < 8 * x.a.toNat + 8 * x.len.toNat)
    omega
  exact (State.readByte_unspecify _ _ a).trans (if_neg hn)

/-- PARSE takes items of `IN`, appends to `DIAG`, and writes its destination, also where it terminates (R221, R229). -/
theorem parseRun_touches (r : Running) (s : State) : Touches .parse r.args s (parseRun r s) := by
  obtain ⟨t, ⟨⟨m, i, d, k, rfl⟩, hb, _, _, l, hl, _⟩, he⟩ := parseRun_effect r s
  have touches : ∀ {u : State}, u.output = s.output → u.outReady = s.outReady → u.diag = d →
      (∀ a, a < 8 * r.args.a.toNat ∨ 8 * r.args.a.toNat + 8 * r.args.len.toNat ≤ a →
        u.readByte a = ((((s.setBufram m).setInput i).setDiag d).setDiagReady k).readByte a) →
      Touches .parse r.args s u := fun ho hr hd hu =>
    ⟨fun h => absurd rfl h, fun _ => ⟨ho, hr⟩, ⟨[], by simp [ho]⟩, ⟨l, hd.trans hl⟩,
      fun a ha => (hu a ha).trans (hb a ha)⟩
  rcases he with ⟨_, _, _, _, _, e⟩ | ⟨_, _, e⟩ | ⟨_, _, e⟩ <;> rw [e]
  · exact touches rfl rfl rfl fun _ _ => rfl
  · exact touches rfl rfl rfl fun _ _ => rfl
  · exact touches rfl rfl rfl fun a ha => State.readByte_terminate_outside _ ha _

/-- FORMAT appends to `OUT` and writes its buffer (R240). -/
theorem formatRun_touches (nl : Bool) (r : Running) (s : State) : Touches (.format nl) r.args s (formatRun r s) := by
  obtain ⟨t, ⟨⟨m, f, o, k, rfl⟩, hb, _, _, l, hl, _⟩, he⟩ := formatRun_effect r s
  rcases he with ⟨_, _, _, _, _, e⟩ | ⟨_, e⟩ <;> rw [e] <;>
    exact ⟨fun _ => ⟨rfl, rfl, rfl⟩, fun h => absurd rfl (h nl), ⟨l, hl⟩, ⟨[], (List.append_nil _).symm⟩, hb⟩

/-- MUL_LONG writes its product (R190). -/
theorem mulLongRun_touches (r : Running) (s : State) : Touches .mulLong r.args s (mulLongRun r s) := by
  obtain ⟨c, t, ⟨⟨m, v, rfl⟩, hb, _⟩, e⟩ := mulLongRun_effect r s
  rw [e]
  exact touches_of_streams_eq ⟨rfl, rfl, rfl, rfl, rfl⟩ hb

/-- The body of every command. -/
theorem runBody_touches (i : Instr) (r : Running) (s : State) : Touches i r.args s (runBody i r s) := by
  have loop : i ∈ [.zeroFill, .copy, .isZero, .addShort, .mulShort, .divShort, .addLong] →
      Touches i r.args s (runBody i r s) := fun hi => by
    obtain ⟨v, f, z, t, ⟨⟨m, rfl⟩, hb, _⟩, e⟩ := runBody_oneLoop hi r s
    rw [e]
    exact touches_of_streams_eq ⟨rfl, rfl, rfl, rfl, rfl⟩ hb
  cases i with
  | zeroFill | copy | isZero | addShort | mulShort | divShort | addLong => exact loop (by decide)
  | mulLong => exact mulLongRun_touches r s
  | parse => exact parseRun_touches r s
  | format nl => exact formatRun_touches nl r s

/-- A `CMD` write: dropped and faulting it touches `STATUS` only, accepted it runs the body. -/
theorem exec_touches {i : Instr} {s t : State} (h : exec i s = .next t) : Touches i s.args s t := by
  rw [exec_eq] at h
  injection h with h
  rcases command_cases i (runBody i) s with ⟨_, e⟩ | ⟨_, code, _, e⟩ | ⟨_, _, e⟩ <;> rw [← h, e]
  · exact touches_of_streams_eq ⟨rfl, rfl, rfl, rfl, rfl⟩ fun _ _ => rfl
  · exact touches_of_streams_eq ⟨rfl, rfl, rfl, rfl, rfl⟩ fun _ _ => rfl
  · obtain ⟨hparse, hformat, hout, hdiag, hbytes⟩ :=
      runBody_touches i (Running.start i s.args) (s.begin (Running.start i s.args))
    exact ⟨hparse, hformat, hout, hdiag, hbytes⟩

/-- Settles O16, from what a command touches. -/
theorem streamsBelongToTheirCommands : Obligations.StreamsBelongToTheirCommands := by
  intro i s t h
  obtain ⟨hp, hf, ho, hd, _⟩ := exec_touches h
  exact ⟨hp, hf, ho, hd⟩

/-- Settles O17, from what a command touches. -/
theorem commandWritesOnlyItsRange : Obligations.CommandWritesOnlyItsRange := by
  intro i s t h
  exact (exec_touches h).bytes

end Sys2Proof.Machine
end

section
/-!
PROOFS. FORMAT: the decimal text it extracts and the part of it the host accepts (R240, R241), and the hold on `OUT`
(R91, R245).
-/
namespace Sys2Proof.Machine

/-- The arguments of FORMAT pass when its buffer is in bounds and not longer than a product (R120). -/
theorem check_format {x : Args} {p : Params} (hl : x.len.toNat ≤ 2 * p.n)
    (hb : x.a.toNat + x.len.toNat ≤ p.bufWords) (nl : Bool) : check (.format nl) x p = none := by
  rw [check_eq_none_iff]
  refine ⟨by simpa [lengthFails] using hl, ?_, rfl, rfl⟩
  simpa [boundsFails, ranges, Range.inBounds, Args.rangeA] using hb

theorem decimalBytes_length (v : Nat) : (decimalBytes v).length = digitCount v := by
  rw [decimalBytes_eq, List.length_map, List.length_range]

/-- The first bytes of a decimal text, digit by digit. -/
theorem decimalBytes_take (v k : Nat) :
    (decimalBytes v).take k
      = (List.range (min (digitCount v) k)).map (fun j => BitVec.ofNat 8 (0x30 + v / 10 ^ (digitCount v - 1 - j) % 10)) := by
  rw [decimalBytes_eq, ← List.map_take, List.take_range, Nat.min_comm]

/-- The digit loop of FORMAT: the buffer is left zero, and `FMT_BUF` holds the decimal text at its end (R240, R243). -/
theorem formatDigits_text {x : Args} {s : State} (hp : s.params.wellFormed = true) (hl : x.len.toNat ≤ 2 * s.params.n)
    {v : Nat} (hv : s.val x.a.toNat x.len.toNat = v) :
    ∃ m f, formatDigits x (64 * x.len.toNat + 1) 0 s = (digitCount v, (s.setBufram m).setFmtBuf f) ∧
      ((s.setBufram m).setFmtBuf f).val x.a.toNat x.len.toNat = 0 ∧
      ∀ k, k < digitCount v → emittedDigit (digitCount v) k ((s.setBufram m).setFmtBuf f)
        = BitVec.ofNat 8 (0x30 + v / 10 ^ (digitCount v - 1 - k) % 10) := by
  have hcap := formatDigits_count_le hp hl
  have hf : s.val x.a.toNat x.len.toNat < 10 ^ (64 * x.len.toNat + 1) :=
    (s.val_lt _ _).trans_le (two_pow_le_ten_pow (by omega))
  obtain ⟨hc, hz, _, hd, m, f, e⟩ := formatDigits_spec x _ 0 s hf (Nat.succ_pos _)
  rw [hv, Nat.zero_add] at hc hd
  rw [hc] at hcap
  rw [e] at hz hd
  refine ⟨m, f, Prod.ext hc e, hz, fun k hk => ?_⟩
  show State.readFmt _ (digcap s.params - digitCount v + k) = _
  rw [show digcap s.params - digitCount v + k = digcap s.params - (digitCount v - k) by omega,
    (hd hcap (digitCount v - k)).1 (by omega) (by omega),
    show digitCount v - k - 0 - 1 = digitCount v - 1 - k by omega]

/-- `s` after FORMAT has worked on `BUFRAM` and `FMT_BUF` and has emitted `text`. -/
def State.formatted (s : State) (m f : List Host.Cell) (text : List Byte) : State :=
  (((s.setBufram m).setFmtBuf f).setOutput (s.output ++ text)).setOutReady (s.outReady - text.length)

@[simp] theorem State.formatted_readWord (s : State) (m f : List Host.Cell) (text : List Byte) (k : Nat) :
    (s.formatted m f text).readWord k = ((s.setBufram m).setFmtBuf f).readWord k := rfl

/-- The emission of FORMAT from a `FMT_BUF` that holds a decimal text: the part of the text that the host accepts (R91,
R245). -/
theorem emitDigits_text {v : Nat} {s : State} {m f : List Host.Cell}
    (h : ∀ k, k < digitCount v → emittedDigit (digitCount v) k ((s.setBufram m).setFmtBuf f)
      = BitVec.ofNat 8 (0x30 + v / 10 ^ (digitCount v - 1 - k) % 10)) :
    emitDigits (digitCount v) (digitCount v) 0 ((s.setBufram m).setFmtBuf f)
      = (min (digitCount v) s.outReady, s.formatted m f ((decimalBytes v).take s.outReady)) := by
  obtain ⟨h1, h2⟩ := emitDigits_spec (digitCount v) (digitCount v) 0 ((s.setBufram m).setFmtBuf f)
  have htext : (List.range (min (digitCount v) s.outReady)).map
      (fun j => emittedDigit (digitCount v) (0 + j) ((s.setBufram m).setFmtBuf f))
        = (decimalBytes v).take s.outReady := by
    rw [decimalBytes_take]
    refine List.map_congr_left fun j hj => ?_
    rw [List.mem_range] at hj
    rw [Nat.zero_add, h j (by omega)]
  have hlen : ((decimalBytes v).take s.outReady).length = min (digitCount v) s.outReady := by
    rw [List.length_take, decimalBytes_length, Nat.min_comm]
  refine Prod.ext (h1.trans (Nat.zero_add _)) (h2.trans ?_)
  rw [State.formatted, hlen, ← htext]
  rfl

/-- FORMAT after its start: the buffer is left zero, the part of the decimal text that the host accepts is emitted, and
FORMAT is held if that is not all of it (R240, R245). -/
theorem formatRun_eq {r : Running} {s : State} (hp : s.params.wellFormed = true)
    (hl : r.args.len.toNat ≤ 2 * s.params.n) {v : Nat} (hv : s.val r.args.a.toNat r.args.len.toNat = v) :
    ∃ m f, (s.formatted m f ((decimalBytes v).take s.outReady)).val r.args.a.toNat r.args.len.toNat = 0 ∧
      formatRun r s
        = if s.outReady < digitCount v then
            (s.formatted m f ((decimalBytes v).take s.outReady)).run
              { { r with count := digitCount v }.goto .fmtEmit with idx := s.outReady }
          else formatTail { r with count := digitCount v } (s.formatted m f ((decimalBytes v).take s.outReady)) := by
  obtain ⟨m, f, e, hz, hd⟩ := formatDigits_text hp hl hv
  refine ⟨m, f, (State.val_congr fun k _ _ => State.formatted_readWord s m f _ k).trans hz, ?_⟩
  rw [formatRun, e, emitDigits_text hd]
  dsimp only
  by_cases h : s.outReady < digitCount v
  · rw [Nat.min_eq_right h.le, if_pos h]
  · rw [Nat.min_eq_left (by omega), if_neg h, if_neg (Nat.lt_irrefl _)]

/-- FORMAT on a ready block with an in-bounds buffer of value `v` that is not longer than a product. -/
theorem exec_format {s : State} {nl : Bool} {v : Nat} (hr : s.ready) (hp : s.params.wellFormed = true)
    (hc : check (.format nl) s.args s.params = none) (hv : s.val s.args.a.toNat s.args.len.toNat = v) :
    ∃ (m f : List Host.Cell) (r : Running) (t : State),
      r.op = .format nl ∧ r.args = s.args ∧ r.count = digitCount v ∧
      t = (s.begin (Running.start (.format nl) s.args)).formatted m f ((decimalBytes v).take s.outReady) ∧
      t.val s.args.a.toNat s.args.len.toNat = 0 ∧
      exec (.format nl) s
        = .next (if s.outReady < digitCount v then t.run { r.goto .fmtEmit with idx := s.outReady }
            else formatTail r t) := by
  have hl : s.args.len.toNat ≤ 2 * s.params.n := by
    simpa [lengthFails] using ((check_eq_none_iff (.format nl) s.args s.params).mp hc).1
  have hv' : (s.begin (Running.start (.format nl) s.args)).val s.args.a.toNat s.args.len.toNat = v := by
    rw [← hv]
    exact State.val_congr fun k _ _ => State.readWord_congr' rfl rfl k
  obtain ⟨m, f, hz, e⟩ := formatRun_eq (r := Running.start (.format nl) s.args)
    (s := s.begin (Running.start (.format nl) s.args)) hp hl hv'
  exact ⟨m, f, _, _, rfl, rfl, rfl, rfl, hz, (exec_accepted hr hc).trans (congrArg Host.Outcome.next e)⟩

/-- A FORMAT that runs on with a held record is held. -/
theorem sequencerTurn_format_held {s u : State} {nl : Bool} {r : Running}
    (hc : check (.format nl) s.args s.params = none) (hu : u.params = s.params) (ho : r.op = .format nl) (ha : r.args = s.args) (hp : r.phase.ofFormat nl = true)
    (hh : r.held (u.run r) = true) : sequencerTurn (u.run r) = .next (u.run r) := by
  refine sequencerTurn_held rfl ?_ hh
  rw [State.run_params, hu]
  exact wellFormed_format (r := Running.start (.format nl) s.args) ho ha hp rfl (start_wellFormed hc)

/-- Settles O36: the host's acceptance ends inside the digits, or after them and before the newline. -/
theorem formatHoldsForAcceptance : Obligations.FormatHoldsForAcceptance := by
  intro s nl hr hp hl hb hready
  have hc := check_format hl hb nl
  generalize hv : s.val s.args.a.toNat s.args.len.toNat = v at hready ⊢
  rw [decimalBytes_length] at hready
  have hcredit : s.outReady ≤ digitCount v → s.outReady - ((decimalBytes v).take s.outReady).length = 0 := fun h => by
    rw [List.length_take, decimalBytes_length, Nat.min_eq_left h, Nat.sub_self]
  obtain ⟨m, f, r, t, ho, ha, hn, rfl, _, e⟩ := exec_format hr hp hc hv
  by_cases h : s.outReady < digitCount v
  · rw [if_pos h] at e
    refine ⟨_, e, rfl, rfl, hcredit h.le, sequencerTurn_format_held hc rfl ho ha rfl ?_⟩
    have hleft : s.outReady < r.count := by rwa [hn]
    exact (Bool.and_eq_true _ _).mpr ⟨decide_eq_true hleft, decide_eq_true (hcredit h.le)⟩
  · have hnl : nl = true := by
      by_contra hf
      rw [if_neg hf] at hready
      exact h hready
    subst hnl
    have hz := hcredit (Nat.le_of_lt_succ hready)
    rw [if_neg h, formatTail, ho, if_pos (show Instr.nlBit (.format true) = true from rfl), if_pos (by exact hz)] at e
    exact ⟨_, e, rfl, rfl, hz, sequencerTurn_format_held hc rfl ho ha rfl (decide_eq_true hz)⟩

end Sys2Proof.Machine
end

section
/-!
PROOFS. The decoder and the encoder (R100, R104, R110), and the `CMD` writes that no command comes of: illegal words
(R105) and writes to a block that is blocked (R122).
-/
namespace Sys2Proof.Machine

/-! ### The fields of a value -/

/-- The three fields of a value are all of it (R100). -/
theorem toWord_ofWord (v : Word) : (Cmd64.ofWord v).toWord = v := by
  apply BitVec.eq_of_getLsbD_eq
  intro k hk
  simp only [Cmd64.toWord, Cmd64.ofWord, BitVec.getLsbD_append, BitVec.getLsbD_extractLsb', BitVec.getLsbD_ofBool]
  rcases Nat.lt_trichotomy k 8 with h | rfl | h
  · simp [h]
  · simp
  · have h1 : 9 + (k - 8 - 1) = k := by omega
    simp [h1, show ¬k < 8 by omega, show ¬k - 8 < 1 by omega, show k - 8 - 1 < 55 by omega]

theorem ofWord_injective {v u : Word} (h : Cmd64.ofWord v = Cmd64.ofWord u) : v = u := by
  rw [← toWord_ofWord v, h, toWord_ofWord]

/-- The fields of a command's word, command by command. -/
theorem ofWord_encode (i : Instr) : Cmd64.ofWord (encode i) = i.cmd64 := by
  cases i with
  | zeroFill => exact Laws.EncodingFields.zeroFill.1
  | copy => exact Laws.EncodingFields.copy.1
  | isZero => exact Laws.EncodingFields.isZero.1
  | addShort => exact Laws.EncodingFields.addShort.1
  | mulShort => exact Laws.EncodingFields.mulShort.1
  | divShort => exact Laws.EncodingFields.divShort.1
  | addLong => exact Laws.EncodingFields.addLong.1
  | mulLong => exact Laws.EncodingFields.mulLong.1
  | parse => exact Laws.EncodingFields.parse.1
  | format nl => exact (Laws.EncodingFields.format nl).1

theorem ofWord_opc (v : Word) : (Cmd64.ofWord v).opc.toNat = v.toNat % 256 := by
  rw [Cmd64.ofWord, BitVec.extractLsb'_toNat, Nat.shiftRight_zero]

theorem ofWord_nl (v : Word) : (Cmd64.ofWord v).nl = decide (v.toNat / 256 % 2 = 1) := by
  rw [Cmd64.ofWord, BitVec.getLsbD, Nat.testBit_eq_decide_div_mod_eq]

theorem ofWord_reserved_eq_zero (v : Word) : (Cmd64.ofWord v).reserved = 0 ↔ v.toNat / 512 = 0 := by
  have hv : v.toNat / 512 < 2 ^ 55 := by have := v.isLt; omega
  rw [← BitVec.toNat_inj, Cmd64.ofWord, BitVec.extractLsb'_toNat, Nat.shiftRight_eq_div_pow]
  show v.toNat / 512 % 2 ^ 55 = 0 ↔ _
  rw [Nat.mod_eq_of_lt hv]

/-! ### The opcode map -/

/-- The map finds the command with this opcode and, for FORMAT, this `NL` bit (R104). -/
theorem opcodeInstr_eq_some_iff (opc : Byte) (nl : Bool) (i : Instr) :
    opcodeInstr opc nl = some i ↔ i.opcode = opc ∧ (opc = 0x31 → i.nlBit = nl) := by
  constructor
  · intro h
    unfold opcodeInstr at h
    repeat' split at h
    all_goals simp only [Option.some.injEq, reduceCtorEq] at h
    all_goals
      subst_vars
      exact ⟨rfl, by simp [Instr.nlBit]⟩
  · rintro ⟨rfl, hn⟩
    cases i with
    | format b => obtain rfl : b = nl := hn rfl; rfl
    | _ => rfl

/-- The opcodes of R104 are those of the commands. -/
theorem opcode_assigned_iff (opc : Byte) :
    opc.toNat ∈ [0x01, 0x02, 0x03, 0x10, 0x11, 0x12, 0x20, 0x21, 0x30, 0x31] ↔ ∃ i : Instr, i.opcode = opc := by
  constructor
  · intro h
    have found : ∀ i : Instr, opc.toNat = i.opcode.toNat → ∃ i : Instr, i.opcode = opc :=
      fun i e => ⟨i, BitVec.eq_of_toNat_eq e.symm⟩
    simp only [List.mem_cons, List.not_mem_nil, or_false] at h
    rcases h with h | h | h | h | h | h | h | h | h | h
    · exact found .zeroFill h
    · exact found .copy h
    · exact found .isZero h
    · exact found .addShort h
    · exact found .mulShort h
    · exact found .divShort h
    · exact found .addLong h
    · exact found .mulLong h
    · exact found .parse h
    · exact found (.format false) h
  · rintro ⟨i, rfl⟩
    cases i <;> simp [Instr.opcode]

/-- Only FORMAT sets the `NL` bit (R100). -/
theorem nlBit_eq_false {i : Instr} (h : i.opcode ≠ 0x31) : i.nlBit = false := by
  cases i with
  | format _ => exact absurd rfl h
  | _ => rfl

/-- The map finds a command for the opcode of a command, whatever the `NL` bit. -/
theorem opcodeInstr_of_opcode (i : Instr) (nl : Bool) : ∃ j, opcodeInstr i.opcode nl = some j := by
  cases i <;> exact ⟨_, rfl⟩

/-! ### Decode, case by case -/

/-- A value whose opcode the map does not have. -/
theorem decode_of_none {v : Word} (h : opcodeInstr (Cmd64.ofWord v).opc (Cmd64.ofWord v).nl = none) :
    decode v = .fault .illegalOpcode := by
  unfold decode
  dsimp only
  rw [h]

/-- A value whose opcode the map has. -/
theorem decode_of_some {v : Word} {i : Instr} (h : opcodeInstr (Cmd64.ofWord v).opc (Cmd64.ofWord v).nl = some i) :
    decode v
      = if (Cmd64.ofWord v).reserved ≠ 0 ∨ (Cmd64.ofWord v).nl = true ∧ (Cmd64.ofWord v).opc ≠ 0x31 then
          .fault .reservedField
        else .command i := by
  unfold decode
  dsimp only
  rw [h, ite_or]

theorem decode_illegal {v : Word} (h : ∀ i : Instr, i.opcode ≠ (Cmd64.ofWord v).opc) :
    decode v = .fault .illegalOpcode := by
  refine decode_of_none (Option.eq_none_iff_forall_ne_some.mpr fun i hi => ?_)
  exact h i ((opcodeInstr_eq_some_iff _ _ _).mp hi).1

theorem decode_reserved {v : Word} {i : Instr} (hi : i.opcode = (Cmd64.ofWord v).opc)
    (h : (Cmd64.ofWord v).reserved ≠ 0 ∨ (Cmd64.ofWord v).nl = true ∧ (Cmd64.ofWord v).opc ≠ 0x31) :
    decode v = .fault .reservedField := by
  obtain ⟨j, hj⟩ := opcodeInstr_of_opcode i (Cmd64.ofWord v).nl
  rw [hi] at hj
  rw [decode_of_some hj, if_pos h]

/-- A legal value decodes to the command with its opcode and its `NL` bit. -/
theorem decode_legal {v : Word} {i : Instr} (hi : i.opcode = (Cmd64.ofWord v).opc)
    (hr : (Cmd64.ofWord v).reserved = 0) (hn : (Cmd64.ofWord v).nl = true → (Cmd64.ofWord v).opc = 0x31) :
    ∃ j : Instr, decode v = .command j ∧ j.opcode = (Cmd64.ofWord v).opc ∧ j.nlBit = (Cmd64.ofWord v).nl := by
  obtain ⟨j, hj⟩ := opcodeInstr_of_opcode i (Cmd64.ofWord v).nl
  rw [hi] at hj
  obtain ⟨hopc, hbit⟩ := (opcodeInstr_eq_some_iff _ _ _).mp hj
  refine ⟨j, ?_, hopc, ?_⟩
  · rw [decode_of_some hj, if_neg]
    rintro (h | ⟨h, hne⟩)
    · exact h hr
    · exact hne (hn h)
  · by_cases hf : (Cmd64.ofWord v).opc = 0x31
    · exact hbit hf
    · rw [nlBit_eq_false (hopc ▸ hf), Bool.eq_false_of_not_eq_true (mt hn hf)]

/-- A value that decodes to a command has the fields of the command's word. -/
theorem ofWord_of_decode {v : Word} {i : Instr} (h : decode v = .command i) : Cmd64.ofWord v = i.cmd64 := by
  cases hj : opcodeInstr (Cmd64.ofWord v).opc (Cmd64.ofWord v).nl with
  | none => rw [decode_of_none hj] at h; cases h
  | some j =>
    obtain ⟨hopc, hbit⟩ := (opcodeInstr_eq_some_iff _ _ _).mp hj
    rw [decode_of_some hj] at h
    split at h
    · cases h
    · rename_i hlegal
      injection h with h
      subst h
      obtain ⟨hres, hperm⟩ := not_or.mp hlegal
      have hnl : (Cmd64.ofWord v).nl = j.nlBit := by
        by_cases hf : (Cmd64.ofWord v).opc = 0x31
        · exact (hbit hf).symm
        · rw [nlBit_eq_false (hopc ▸ hf)]
          exact Bool.eq_false_of_not_eq_true fun hn => hperm ⟨hn, hf⟩
      rw [Instr.cmd64, hopc, ← hnl, ← not_not.mp hres]

theorem decode_encode (i : Instr) : decode (encode i) = .command i := by
  have hf := ofWord_encode i
  have hi : opcodeInstr (Cmd64.ofWord (encode i)).opc (Cmd64.ofWord (encode i)).nl = some i := by
    rw [hf]
    exact (opcodeInstr_eq_some_iff _ _ _).mpr ⟨rfl, fun _ => rfl⟩
  rw [decode_of_some hi, hf, if_neg]
  rintro (h | ⟨hn, hne⟩)
  · exact h rfl
  · exact absurd hn (by rw [Instr.cmd64, nlBit_eq_false hne]; exact Bool.false_ne_true)

/-- Settles O1: a value that decodes to a command has the fields of the command's word, and its fields are all of it. -/
theorem decodeInvertsEncode : Obligations.DecodeInvertsEncode := by
  intro v i
  constructor
  · exact fun h => ofWord_injective ((ofWord_of_decode h).trans (ofWord_encode i).symm)
  · rintro rfl
    exact decode_encode i

/-- Settles O2: the four cases are those of the decoder, its fields in plain arithmetic. -/
theorem decodeIsTotalInTheOrderOfTheRule : Obligations.DecodeIsTotalInTheOrderOfTheRule := by
  intro v op nl reserved assigned
  have hop : (Cmd64.ofWord v).opc.toNat = op := ofWord_opc v
  have hassigned : assigned ↔ ∃ i : Instr, i.opcode = (Cmd64.ofWord v).opc := by
    rw [← opcode_assigned_iff, hop]
  have hnl : (Cmd64.ofWord v).nl = decide (nl = 1) := ofWord_nl v
  have hres : (Cmd64.ofWord v).reserved = 0 ↔ reserved = 0 := ofWord_reserved_eq_zero v
  have hformat : (Cmd64.ofWord v).opc = 0x31 ↔ op = 0x31 := by rw [← hop, ← BitVec.toNat_inj]; rfl
  refine ⟨fun h => ?_, fun ⟨ha, hr⟩ => ?_, fun ⟨ha, _, hn, hf⟩ => ?_, fun ⟨ha, hr, hn⟩ => ?_⟩
  · exact decode_illegal fun i hi => h (hassigned.mpr ⟨i, hi⟩)
  · obtain ⟨i, hi⟩ := hassigned.mp ha
    exact decode_reserved hi (.inl (mt hres.mp hr))
  · obtain ⟨i, hi⟩ := hassigned.mp ha
    exact decode_reserved hi (.inr ⟨by rw [hnl, decide_eq_true hn], mt hformat.mp hf⟩)
  · obtain ⟨i, hi⟩ := hassigned.mp ha
    have hperm : (Cmd64.ofWord v).nl = true → (Cmd64.ofWord v).opc = 0x31 := fun h1 => by
      have : nl = 1 := of_decide_eq_true (hnl ▸ h1)
      exact hformat.mpr (hn.resolve_left (by omega))
    obtain ⟨j, hd, hopc, hbit⟩ := decode_legal hi (hres.mpr hr) hperm
    exact ⟨j, hd, by rw [hopc, hop], hbit.trans hnl⟩

/-- Settles O3, word by word: six words of commands, and two that decode to faults. -/
theorem specWordsDecode : Obligations.SpecWordsDecode :=
  ⟨decode_encode .zeroFill, decode_encode .addShort, decode_encode .mulLong, decode_encode .parse,
    decode_encode (.format false), decode_encode (.format true), by decide, by decide⟩

/-! ### `CMD` writes that no command comes of -/

theorem blocked_of_ready {s : State} (h : s.ready) : s.status.blocked = false := s.status.blocked_eq_false_iff.mpr h

/-- A `CMD` write of a value that decodes to a fault, to a ready block (R105, R331). -/
theorem step_write_illegal {s : State} {v : Word} {code : FaultCode} (hr : s.ready)
    (h : s.nextAction = some (.write (s.params.mmioBase + 0x010) 64 v)) (hd : decode v = .fault code) :
    step s = .next { s.popped with
      reply := .ack, status := { s.status with fault := true, faultCode := code.code, done := false } } := by
  have hb : ¬(s.popped.setReply .ack).status.blocked = true := by
    rw [State.setReply_status, State.popped_status, blocked_of_ready hr]
    exact Bool.false_ne_true
  rw [step_write_cmd h, writeCmd, hd]
  dsimp only
  rw [rejectWord, if_neg hb]
  rfl

/-- Settles O42: such a word decodes to a fault by R110, and the write raises it. -/
theorem illegalWordsFault : Obligations.IllegalWordsFault := by
  intro s v hr h
  obtain ⟨hillegal, hreserved, hnl, _⟩ := decodeIsTotalInTheOrderOfTheRule v
  refine ⟨fun ha => step_write_illegal hr h (hillegal ha), fun ha hf => ?_⟩
  refine step_write_illegal (code := .reservedField) hr h ?_
  by_cases hz : v.toNat / 512 = 0
  · exact hnl ⟨ha, hz, hf.resolve_left (not_not.mpr hz)⟩
  · exact hreserved ⟨ha, hz⟩

/-- Settles O43: the write reaches `CMD`, where a blocked block drops it. -/
theorem blockedCommandsAreDropped : Obligations.BlockedCommandsAreDropped := by
  intro s v h hb
  have hblocked : (s.popped.setReply .ack).status.blocked = true := by
    rw [State.setReply_status, State.popped_status]
    simpa [Status.blocked, or_assoc] using hb
  rw [step_write_cmd h, writeCmd_blocked hblocked]
  rfl

end Sys2Proof.Machine
end

section
/-!
PROOFS. The argument checks in plain arithmetic and in their order (R120, R334), and the commands of length 0 (R124).
-/
namespace Sys2Proof.Machine

/-! ### The checks, one by one -/

theorem Range.overlaps_iff_not_apart (r q : Range) :
    r.overlaps q = true ↔ ¬apart r.base r.count q.base q.count := by
  rw [Range.overlaps_iff]
  unfold apart
  omega

theorem lengthFails_iff (i : Instr) (x : Args) (p : Params) :
    lengthFails i x p = true ↔
      (i = .mulLong ∧ p.n < x.len.toNat) ∨ ((∃ nl, i = .format nl) ∧ 2 * p.n < x.len.toNat) := by
  cases i <;> simp [lengthFails]

theorem boundsFails_iff (i : Instr) (x : Args) (p : Params) :
    boundsFails i x p = true ↔
      p.bufWords < x.a.toNat + x.len.toNat ∨
      (i ∈ [.copy, .addLong, .mulLong] ∧ p.bufWords < x.b.toNat + x.len.toNat) ∨
      (i = .mulLong ∧ p.bufWords < x.p.toNat + 2 * x.len.toNat) := by
  cases i <;> simp [boundsFails, ranges, Range.inBounds, Args.rangeA, Args.rangeB, Args.rangeP]

theorem aliasFails_iff (i : Instr) (x : Args) :
    aliasFails i x = true ↔
      (i ∈ [.copy, .addLong] ∧ ¬apart x.a.toNat x.len.toNat x.b.toNat x.len.toNat) ∨
      (i = .mulLong ∧ (¬apart x.p.toNat (2 * x.len.toNat) x.a.toNat x.len.toNat ∨
        ¬apart x.p.toNat (2 * x.len.toNat) x.b.toNat x.len.toNat)) := by
  cases i <;> simp [aliasFails, Range.overlaps_iff_not_apart, Args.rangeA, Args.rangeB, Args.rangeP]

theorem divisorFails_iff (i : Instr) (x : Args) : divisorFails i x = true ↔ i = .divShort ∧ x.w = 0 := by
  cases i <;> simp [divisorFails]

/-! ### What a check decides -/

/-- A command whose arguments fail a check faults on a ready block (R331). -/
theorem exec_faulted {i : Instr} {s : State} {code : FaultCode} (hr : s.ready)
    (hc : check i s.args s.params = some code) : exec i s = .next (s.raiseFault code) := by
  rw [exec_eq, command, blocked_of_ready hr, hc]
  rfl

/-- A running command does not touch `FAULT`. -/
theorem runBody_fault {i : Instr} {r : Running} (hr : r.op = i) (s : State) :
    (runBody i r s).status.fault = s.status.fault := by
  obtain ⟨t, ⟨⟨_, _, _, _, _, _, _, _, rfl⟩, _⟩, he⟩ := runBody_effect i r hr s
  rcases he with ⟨_, _, e⟩ | ⟨_, _, _, e | e | e⟩ | ⟨_, _, e⟩ <;> rw [e] <;> rfl

/-- Settles O41: the order of the checks is that of `check`, and each is its plain arithmetic. -/
theorem checksRunInOrder : Obligations.ChecksRunInOrder := by
  intro i s hr x len tooLong outside aliased faulted
  have hl : lengthFails i s.args s.params = true ↔ tooLong := lengthFails_iff ..
  have hb : boundsFails i s.args s.params = true ↔ outside := boundsFails_iff ..
  have ha : aliasFails i s.args = true ↔ aliased := aliasFails_iff ..
  have hd : divisorFails i s.args = true ↔ i = .divShort ∧ x.w = 0 := divisorFails_iff ..
  have hcheck : check i s.args s.params
      = if lengthFails i s.args s.params then some .length
        else if boundsFails i s.args s.params then some .bounds
        else if aliasFails i s.args then some .aliasing
        else if divisorFails i s.args then some .divideByZero
        else none := rfl
  simp only [← hl, ← hb, ← ha, ← hd]
  refine ⟨fun h1 => ?_, fun ⟨h1, h2⟩ => ?_, fun ⟨h1, h2, h3⟩ => ?_, fun ⟨h1, h2, h3, h4⟩ => ?_,
    fun ⟨h1, h2, h3, h4⟩ => ?_⟩
  · rw [if_pos h1] at hcheck
    exact exec_faulted hr hcheck
  · rw [if_neg h1, if_pos h2] at hcheck
    exact exec_faulted hr hcheck
  · rw [if_neg h1, if_neg h2, if_pos h3] at hcheck
    exact exec_faulted hr hcheck
  · rw [if_neg h1, if_neg h2, if_neg h3, if_pos h4] at hcheck
    exact exec_faulted hr hcheck
  · rw [if_neg h1, if_neg h2, if_neg h3, if_neg h4] at hcheck
    refine ⟨_, exec_accepted hr hcheck, (runBody_fault (r := Running.start i s.args) rfl _).trans ?_⟩
    obtain ⟨_, hfault, _⟩ := hr
    exact hfault

/-! ### Length 0 -/

/-- The arguments of a command that takes one range, and no divisor, pass when `LEN` is 0 and the base in bounds
(R71). -/
theorem check_zero_length {i : Instr} {x : Args} {p : Params} (hi : i ∉ [.copy, .addLong, .mulLong, .divShort])
    (hl : x.len = 0) (ha : x.a.toNat ≤ p.bufWords) : check i x p = none := by
  have h0 : x.len.toNat = 0 := by rw [hl]; rfl
  simp only [List.mem_cons, List.not_mem_nil, or_false, not_or] at hi
  obtain ⟨hcopy, hadd, hmul, hdiv⟩ := hi
  rw [check_eq_none_iff]
  simp only [← Bool.not_eq_true, lengthFails_iff, boundsFails_iff, aliasFails_iff, divisorFails_iff]
  refine ⟨?_, ?_, ?_, ?_⟩ <;> simp [hcopy, hadd, hmul, hdiv, h0, ha]

/-- A command that is one loop over no word completes with the carry it starts with. -/
theorem oneLoop_zero_length (word : Args → WordBody) (done : Word → State → State) {r : Running}
    (hl : r.args.len.toNat = 0) (s : State) : oneLoop word done r s = done r.carry s := by
  rw [oneLoop, hl]
  rfl

/-- FORMAT of a buffer of no word places the one digit 0 (R124, R242). -/
theorem formatDigits_zero_length {x : Args} (hl : x.len.toNat = 0) (s : State) :
    formatDigits x (64 * x.len.toNat + 1) 0 s = (1, placeDigit 1 0 s) := by
  rw [hl, formatDigits, hl]
  rfl

/-- FORMAT of a buffer of no word emits its digit and completes, if the host accepts it (R124). -/
theorem formatRun_zero_length {r : Running} {s : State} (hl : r.args.len.toNat = 0) (hn : r.op.nlBit = false)
    (ho : s.outReady ≠ 0) : formatRun r s = formatDone 1 ((placeDigit 1 0 s).outWrite 0x30) := by
  have hdigit : emittedDigit 1 0 (placeDigit 1 0 s) = 0x30 := by
    rw [emittedDigit, placeDigit, State.readFmt_writeFmt, State.writeFmt_params, if_pos (Nat.add_zero _)]
    rfl
  have hemit : emitDigits 1 1 0 (placeDigit 1 0 s) = (1, (placeDigit 1 0 s).outWrite 0x30) := by
    rw [emitDigits, if_neg (by exact ho), hdigit, emitDigits]
  rw [formatRun, formatDigits_zero_length hl]
  dsimp only
  rw [hemit, if_neg (Nat.lt_irrefl 1), formatTail, if_neg (by simp [hn])]

/-- Settles O39: with no word to work on, the first carry is the result of ADD_SHORT and IS_ZERO, and FORMAT places and
emits one digit. -/
theorem zeroLengthCommandsComplete : Obligations.ZeroLengthCommandsComplete := by
  intro s hr hl ha
  have h0 : s.args.len.toNat = 0 := by rw [hl]; rfl
  refine ⟨⟨_, exec_accepted hr (check_zero_length (by decide) hl ha), ?_⟩,
    ⟨_, exec_accepted hr (check_zero_length (by decide) hl ha), ?_⟩,
    fun ho => ⟨_, exec_accepted hr (check_zero_length (by decide) hl ha), ?_⟩⟩
  · rw [runBody, oneLoop_zero_length _ _ (by exact h0)]
    exact ⟨rfl, rfl, rfl⟩
  · rw [runBody, oneLoop_zero_length _ _ (by exact h0)]
    exact ⟨rfl, rfl, rfl⟩
  · rw [runBody, formatRun_zero_length (r := Running.start (.format false) s.args) h0 rfl
      (show (s.begin (Running.start (.format false) s.args)).outReady ≠ 0 from Nat.ne_of_gt ho)]
    exact ⟨rfl, rfl, rfl⟩

end Sys2Proof.Machine
end

section
/-!
PROOFS. The frames of MUL_LONG, PARSE and FORMAT: what a `CMD` write changes, path by path (R102, R122, R123, R331,
R340).
-/
namespace Sys2Proof.Machine

/-- MUL_LONG over a product range that overlaps no factor writes its product range and `SCR`, loses no carry on the way,
and completes with `TRUNC` = 0 (R190, R192, R193). -/
theorem mulLongRun_keeps_carries {r : Running} (hc : aliasFails .mulLong r.args = false) (s : State) :
    ∃ t, OnlyProduct r.args s t ∧ mulLongRun r s = mulLongDone false t := by
  obtain ⟨ha, hb⟩ : (Args.rangeP r.args).overlaps (Args.rangeA r.args) = false ∧
      (Args.rangeP r.args).overlaps (Args.rangeB r.args) = false := by
    simpa only [aliasFails, Bool.or_eq_false_iff] using hc
  set s0 := (forWords (productClearWord r.args) (2 * r.args.len.toNat) 0 0 s).2 with hs0
  have hclear : OnlyProduct r.args s s0 :=
    (OnlyWords.loop (fun k c s _ hk => zeroWord_effect (by omega) c s) 0 s).product
  have hzero : s0.val r.args.p.toNat (2 * r.args.len.toNat) = 0 := by
    rw [State.val_eq_zero_iff]
    intro k h1 h2
    exact (forWords_zeroWord r.args.p.toNat (2 * r.args.len.toNat) 0 0 s k).trans (if_pos ⟨h1, h2⟩)
  obtain ⟨htrunc, _⟩ := mulRows_spec ha hb (Nat.zero_add _) false (hzero.trans (Nat.mul_zero _).symm)
  refine ⟨_, hclear.trans (mulRows_effect (Nat.zero_add _) false s0), ?_⟩
  rw [mulLongRun, ← hs0, htrunc]

/-- Settles O54: a drop and a fault touch `STATUS` only; an accepted MUL_LONG writes its product and completes. -/
theorem mulLongFrame : Obligations.MulLongFrame := by
  intro s t h
  rw [exec_eq] at h
  injection h with h
  subst h
  rcases command_cases .mulLong (runBody .mulLong) s with ⟨_, e⟩ | ⟨_, code, _, e⟩ | ⟨_, hc, e⟩ <;> rw [e]
  · exact ⟨rfl, .inl ⟨rfl, rfl, rfl⟩, fun _ _ => rfl⟩
  · exact ⟨rfl, .inr (.inl ⟨rfl, rfl, rfl⟩), fun _ _ => rfl⟩
  · obtain ⟨_, _, hal, _⟩ := (check_eq_none_iff ..).mp hc
    obtain ⟨u, ⟨⟨m, v, rfl⟩, hbytes, _⟩, hu⟩ :=
      mulLongRun_keeps_carries (r := Running.start .mulLong s.args) hal (s.begin (Running.start .mulLong s.args))
    rw [runBody, hu]
    exact ⟨rfl, .inr (.inr ⟨rfl, rfl, rfl⟩), hbytes⟩

/-- A PARSE that runs is in one of the two running parse states (R42). -/
theorem parseState_of_ofParse {r : Running} (h : r.phase.ofParse = true) :
    r.parseState = some .accumulating ∨ r.parseState = some .invalidCharacter := by
  unfold Running.parseState
  cases hp : r.phase <;> simp_all [Phase.ofParse]

/-- A PARSE that runs on with a held record is held. -/
theorem sequencerTurn_parse_held {s u : State} {r : Running} (hc : check .parse s.args s.params = none)
    (hu : u.params = s.params) (ho : r.op = .parse) (ha : r.args = s.args) (hp : r.phase.ofParse = true)
    (hh : r.held (u.run r) = true) : sequencerTurn (u.run r) = .next (u.run r) := by
  refine sequencerTurn_held rfl ?_ hh
  rw [State.run_params, hu]
  exact wellFormed_parse (r := Running.start .parse s.args) ho ha hp rfl (start_wellFormed hc)

/-- Settles O55: a drop and a fault touch `STATUS` only; an accepted PARSE works on its destination and its streams, and
ends held, complete or terminated. -/
theorem parseFrame : Obligations.ParseFrame := by
  intro s t h
  rw [exec_eq] at h
  injection h with h
  subst h
  rcases command_cases .parse (runBody .parse) s with ⟨_, e⟩ | ⟨_, code, _, e⟩ | ⟨hb, hc, e⟩ <;> rw [e]
  · exact ⟨rfl, .inl rfl, ⟨[], rfl⟩, fun _ _ => rfl⟩
  · exact ⟨rfl, .inr (.inl rfl), ⟨[], rfl⟩, fun _ _ => rfl⟩
  · obtain ⟨u, ⟨⟨m, i, d, k, rfl⟩, hbytes, _, htaken, _⟩, hu⟩ :=
      parseRun_effect (Running.start .parse s.args) (s.begin (Running.start .parse s.args))
    rw [runBody]
    rcases hu with ⟨r, ho, ha, hp, hh, e⟩ | ⟨n, f, e⟩ | ⟨code, hcode, e⟩ <;> rw [e]
    · exact ⟨rfl, .inr (.inr (.inr (.inl ⟨rfl, rfl, rfl, ⟨r, rfl, ho, ha, parseState_of_ofParse hp⟩,
        sequencerTurn_parse_held hc rfl ho ha hp hh⟩))), htaken, hbytes⟩
    · exact ⟨rfl, .inr (.inr (.inl ⟨rfl, rfl, rfl⟩)), htaken, hbytes⟩
    · obtain ⟨_, _, hterm⟩ := s.status.blocked_eq_false_iff.mp hb
      exact ⟨rfl, .inr (.inr (.inr (.inr ⟨hterm, rfl, rfl, hcode, rfl⟩))), htaken,
        fun a ha => (State.readByte_terminate_outside _ ha code).trans (hbytes a ha)⟩

/-- Settles O56: a drop and a fault touch `STATUS` only; an accepted FORMAT works on its buffer, `FMT_BUF` and `OUT`,
and ends held or complete. -/
theorem formatFrame : Obligations.FormatFrame := by
  intro nl s t h
  rw [exec_eq] at h
  injection h with h
  subst h
  have nothing : ∃ l, s.output = s.output ++ l ∧ s.outReady + l.length = s.outReady :=
    ⟨[], (List.append_nil _).symm, rfl⟩
  rcases command_cases (.format nl) (runBody (.format nl)) s with ⟨_, e⟩ | ⟨_, code, _, e⟩ | ⟨_, hc, e⟩ <;> rw [e]
  · exact ⟨rfl, .inl rfl, nothing, fun _ _ => rfl⟩
  · exact ⟨rfl, .inr (.inl rfl), nothing, fun _ _ => rfl⟩
  · obtain ⟨u, ⟨⟨m, f, o, k, rfl⟩, hbytes, _, _, hout⟩, hu⟩ :=
      formatRun_effect (Running.start (.format nl) s.args) (s.begin (Running.start (.format nl) s.args))
    rw [runBody]
    rcases hu with ⟨r, ho, ha, hp, hh, e⟩ | ⟨n, e⟩ <;> rw [e]
    · have hphase : r.phase.ofFormat nl = true := by
        rcases hp with h | ⟨h, hn⟩
        · rw [h]; rfl
        · rw [h]; exact hn
      exact ⟨rfl, .inr (.inr (.inr ⟨rfl, rfl, ⟨r, rfl, ho, ha⟩,
        sequencerTurn_format_held hc rfl ho ha hphase hh⟩)), hout, hbytes⟩
    · exact ⟨rfl, .inr (.inr (.inl ⟨rfl, rfl⟩)), hout, hbytes⟩

end Sys2Proof.Machine
end

section
/-!
PROOFS. Host programs: the register writes of a command line (R107, R108) and the pseudo-instructions (R109).
-/
namespace Sys2Proof.Machine

/-! ### Single accesses of a program -/

/-- A bus access of the program is one turn of a run in which the host does nothing else. -/
theorem hostRun_access {a : HostAction} {s t : State} (h : step (s.setAgenda [.now a]) = .next t) (n : Nat)
    (rest : List HostOp) (e : Option Byte) :
    hostRun (List.replicate (n + 1) []) { ops := .access a :: rest, exit := e, block := s }
      = hostRun (List.replicate n []) { ops := rest, exit := e, block := t } :=
  hostRun_turn (hostTurn_access ((hostDoes_eq a s).symm.trans h) rest e) n

/-! ### The writes of a command line -/

/-- The block as the register write of a program finds it acknowledged: nothing else planned. -/
def State.acked (s : State) : State := (s.setAgenda []).setReply .ack

/-- What a write to an argument register stores: its live bits (R36). Other registers store nothing. -/
def RegName.store (r : RegName) (v : Word) (x : Args) : Args :=
  match r with
  | .argA => { x with a := v.setWidth 16 }
  | .argB => { x with b := v.setWidth 16 }
  | .argP => { x with p := v.setWidth 16 }
  | .argLen => { x with len := v.setWidth 16 }
  | .argW => { x with w := v }
  | .param | .status | .cmd | .result | .exit => x

/-- An argument register of R36. -/
def RegName.isArg (r : RegName) : Prop := r ∈ [.argA, .argB, .argP, .argLen, .argW]

/-- A write to an argument register while the block is not busy. -/
theorem step_writeReg_arg {r : RegName} (hr : r.isArg) {s : State} (hb : s.status.busy = false) (v : Word) :
    step (s.setAgenda [.now (writeReg s.params.mmioBase r v)]) = .next (s.acked.setArgs (r.store v s.args)) := by
  simp only [RegName.isArg, List.mem_cons, List.not_mem_nil, or_false] at hr
  rcases hr with rfl | rfl | rfl | rfl | rfl
  · exact step_write_args (RegName.store .argA v) hb rfl (by decide) (by decide) nofun rfl
  · exact step_write_args (RegName.store .argB v) hb rfl (by decide) (by decide) nofun rfl
  · exact step_write_args (RegName.store .argP v) hb rfl (by decide) (by decide) nofun rfl
  · exact step_write_args (RegName.store .argLen v) hb rfl (by decide) (by decide) nofun rfl
  · exact step_write_args (RegName.store .argW v) hb rfl (by decide) (by decide) nofun rfl

/-- Register writes of a program. -/
def registerWriteOps (base : Nat) (ws : List (RegName × Word)) : List HostOp :=
  ws.map fun w => .access (writeReg base w.1 w.2)

/-- Writes to argument registers, one after the other, store their values. What they leave of the agenda and the reply
is what the next access leaves of them. -/
theorem hostRun_argWrites {ws : List (RegName × Word)} (hws : ∀ w ∈ ws, w.1.isArg) {s : State}
    (hb : s.status.busy = false) (n : Nat) (rest : List HostOp) (e : Option Byte) :
    ∃ t, hostRun (List.replicate (ws.length + n) [])
          { ops := registerWriteOps s.params.mmioBase ws ++ rest, exit := e, block := s }
        = hostRun (List.replicate n []) { ops := rest, exit := e, block := t } ∧
      t.acked = s.acked.setArgs (ws.foldl (fun x w => w.1.store w.2 x) s.args) := by
  induction ws generalizing s with
  | nil => exact ⟨s, by rw [List.length_nil, Nat.zero_add]; rfl, rfl⟩
  | cons w ws ih =>
    have hw := step_writeReg_arg (hws w (List.mem_cons_self ..)) hb w.2
    obtain ⟨t, ht, hargs⟩ := ih (fun w' h => hws w' (List.mem_cons_of_mem _ h))
      (s := s.acked.setArgs (w.1.store w.2 s.args)) hb
    refine ⟨t, ?_, hargs⟩
    rw [List.length_cons, Nat.add_right_comm]
    exact (hostRun_access hw _ _ _).trans ht

/-- The argument writes of a line as registers and values, in their order (R108). -/
def CommandLine.argStores : CommandLine → List (RegName × Word)
  | .zeroFill a len | .isZero a len | .parse a len | .format a len | .formatNl a len =>
    [(.argA, a.setWidth 64), (.argLen, len.setWidth 64)]
  | .copy dst src len | .addLong dst src len =>
    [(.argA, dst.setWidth 64), (.argB, src.setWidth 64), (.argLen, len.setWidth 64)]
  | .addShort a len w | .mulShort a len w | .divShort a len w =>
    [(.argA, a.setWidth 64), (.argLen, len.setWidth 64), (.argW, w)]
  | .mulLong p a b len =>
    [(.argA, a.setWidth 64), (.argB, b.setWidth 64), (.argP, p.setWidth 64), (.argLen, len.setWidth 64)]

theorem CommandLine.argWrites_eq (base : Nat) (c : CommandLine) :
    c.argWrites base = c.argStores.map fun w => writeReg base w.1 w.2 := by
  cases c <;> rfl

theorem CommandLine.argStores_isArg (c : CommandLine) : ∀ w ∈ c.argStores, w.1.isArg := by
  cases c <;> simp [argStores, RegName.isArg]

/-- A half word written to a register and read back from its live bits. -/
theorem half_setWidth (h : Half) : (h.setWidth 64).setWidth 16 = h := by
  rw [BitVec.setWidth_setWidth_of_le _ (by decide), BitVec.setWidth_eq]

/-- The argument writes of a line store its operands (R107). -/
theorem CommandLine.foldl_argStores (c : CommandLine) (x : Args) :
    c.argStores.foldl (fun x w => w.1.store w.2 x) x = c.args x := by
  cases c <;> simp only [argStores, List.foldl, RegName.store, half_setWidth, CommandLine.args]

/-- The write of a command's word to `CMD`, with nothing else planned (R121). -/
theorem step_writeReg_cmd (i : Instr) (s : State) :
    step (s.setAgenda [.now (writeReg s.params.mmioBase .cmd (encode i))]) = exec i s.acked :=
  (stepRunsTheDecodedCommand (s.setAgenda [.now (writeReg s.params.mmioBase .cmd (encode i))]) (encode i) i rfl
    (decode_encode i)).1 rfl

/-- Settles O57: the argument writes store the operands, and the `CMD` write runs the command on them. -/
theorem commandLineRunsItsCommand : Obligations.CommandLineRunsItsCommand := by
  intro c s t rest e hb h
  obtain ⟨u, hu, hargs⟩ := hostRun_argWrites c.argStores_isArg hb 1
    (.access (writeReg s.params.mmioBase .cmd (encode c.instr)) :: rest) e
  have hparams : u.params = s.params := by
    show u.acked.params = s.params
    rw [hargs]
    rfl
  have hcmd := step_writeReg_cmd c.instr u
  rw [hargs, c.foldl_argStores, hparams] at hcmd
  have hlength : (c.accesses s.params.mmioBase).length = c.argStores.length + 1 := by
    rw [CommandLine.accesses, c.argWrites_eq, List.length_append, List.length_map, List.length_singleton]
  have hops : (c.accesses s.params.mmioBase).map HostOp.access ++ rest
      = registerWriteOps s.params.mmioBase c.argStores
        ++ .access (writeReg s.params.mmioBase .cmd (encode c.instr)) :: rest := by
    rw [CommandLine.accesses, c.argWrites_eq, List.map_append, List.map_map, List.append_assoc]
    rfl
  rw [hlength, hops, hu]
  exact hostRun_access (hcmd.trans h) 0 rest e

/-! ### The pseudo-instructions -/

/-- WAIT reads `STATUS` (R109). -/
theorem hostTurn_wait (s : State) (rest : List HostOp) (e : Option Byte) :
    hostTurn { ops := .wait :: rest, exit := e, block := s }
      = .next {
          ops := .waitCheck :: rest, exit := e, block := { s with agenda := [], reply := .data s.status.word } } := by
  have h : hostDoes (readReg s.params.mmioBase .status) s
      = .next { s with agenda := [], reply := .data s.status.word } :=
    (registerReads (s.setAgenda [.now (readReg s.params.mmioBase .status)]) 0x008 rfl).1 rfl
  simp only [hostTurn, h, HostRun.withBlock]

/-- WAIT goes on once the value read says that the block is not busy. -/
theorem hostTurn_waitCheck_idle {s : State} (hb : s.reply.bit 0 = false) (rest : List HostOp) (e : Option Byte) :
    hostTurn { ops := .waitCheck :: rest, exit := e, block := s } = .next { ops := rest, exit := e, block := s } := by
  simp only [hostTurn, hb, Bool.false_eq_true, if_false]

/-- WAIT lets the sequencer move and reads again while the value read says that the block is busy. -/
theorem hostTurn_waitCheck_busy {s t : State} (hb : s.reply.bit 0 = true)
    (ht : sequencerTurn (s.setAgenda []) = .next t) (rest : List HostOp) (e : Option Byte) :
    hostTurn { ops := .waitCheck :: rest, exit := e, block := s }
      = .next { ops := .wait :: rest, exit := e, block := t } := by
  simp only [hostTurn, hb, if_true, step_quiet, ht, HostRun.withBlock]

/-- The two bits that CLEARF writes clear `FAULT`, its code and `HAZ` (R34, R109). -/
theorem step_clearf (s : State) :
    step (s.setAgenda [.now (writeReg s.params.mmioBase .status 0x44)])
      = .next (s.acked.setStatus { s.status with fault := false, faultCode := 0, haz := false }) := by
  have h := statusWriteClears (s.setAgenda [.now (writeReg s.params.mmioBase .status 0x44)]) 0x44 rfl
  rw [show (0x44 : Word).getLsbD 2 = true from rfl, show (0x44 : Word).getLsbD 6 = true from rfl] at h
  simp only [Bool.not_true, Bool.and_false, if_true] at h
  exact h

/-- Settles O58, one pseudo-instruction after the other, from what its accesses do. -/
theorem pseudoInstructionsAct : Obligations.PseudoInstructionsAct := by
  intro s rest e read
  have hbit : read.reply.bit 0 = s.status.busy := Reply.bit_busy s.status
  have hwait := hostTurn_wait s rest e
  refine ⟨fun hb => ?_, fun t hb ht => ?_, hostRun_access (step_clearf s) 0 rest e, fun k v hb hk hk' => ?_⟩
  · exact (hostRun_turn hwait 1).trans (hostRun_turn (hostTurn_waitCheck_idle (hbit.trans hb) rest e) 0)
  · exact (hostRun_turn hwait 1).trans (hostRun_turn (hostTurn_waitCheck_busy (hbit.trans hb) ht rest e) 0)
  · obtain ⟨_, hset⟩ := ramWindowReadsAndWrites
      (s.setAgenda [.now (.write (s.params.mmioBase + (0x10000 + 8 * k)) 64 v)]) k v hb hk hk'
    obtain ⟨t, hset, ht, hread, _⟩ := hset rfl
    have hparams : t.params = s.params := by rw [ht]; rfl
    have hidle : t.status.busy = false := by rw [ht]; exact hb
    obtain ⟨hget, _⟩ := ramWindowReadsAndWrites
      (t.setAgenda [.now (.read (t.params.mmioBase + (0x10000 + 8 * k)) 64)]) k v hidle (by exact hparams ▸ hk) hk'
    have hget := hostRun_access (hget rfl) 0 rest e
    rw [hparams] at hget
    exact ⟨_, (hostRun_access hset 1 _ e).trans hget, congrArg Reply.data hread, hread⟩

end Sys2Proof.Machine
end

section
/-!
PROOFS. A command run turn by turn reaches the state that exec gives at once (R41, R42, R121, R123): the turns of each
loop reach what its `forWords` gives, and the loops follow each other as in the command's pseudocode.
-/
namespace Sys2Proof.Machine

/-! ### Records and phases -/

/-- A record of an accepted command: its phase one of the command's, and a row of MUL_LONG a row of the factor. -/
theorem wellFormed_of_phase {i : Instr} {r : Running} {p : Params} (hc : check i r.args p = none) (ho : r.op = i)
    (hp : r.phase.fits i = true) (hn : r.phase.inRow = true → r.outer < r.args.len.toNat) : r.wellFormed p = true :=
  wellFormed_goto (r := Running.start i r.args) ho rfl hp hn (start_wellFormed hc)

/-- A whole phase of the sequencer, and what it leaves of the agenda and the parameters. -/
theorem phase_reaches_next {body : WordBody} (hq : Quiet body) {len : Nat} {after : Running → State → State}
    {r : Running} {s : State} (ha : s.agenda = []) (hw : r.wellFormed s.params = true) (h0 : r.idx = 0)
    (hh : ∀ i c t, { r with idx := i, carry := c }.held t = false)
    (ht : ∀ i c t, turn { r with idx := i, carry := c } t = loopTurn body len after { r with idx := i, carry := c } t) :
    Reaches (s.run r)
      (after { r with idx := len, carry := (forWords body len 0 r.carry s).1 }
        ((forWords body len 0 r.carry s).2.run { r with idx := len, carry := (forWords body len 0 r.carry s).1 })) ∧
    (forWords body len 0 r.carry s).2.agenda = [] ∧ (forWords body len 0 r.carry s).2.params = s.params := by
  obtain ⟨_, hagenda, hparams, _⟩ := forWords_quiet hq len 0 r.carry s .idle
  exact ⟨phase_reaches hq ha hw h0 hh ht, hagenda.trans ha, hparams⟩

/-! ### The loop of each phase -/

theorem turn_mulClear {r : Running} (h : r.phase = .mulClear) (s : State) :
    turn r s = loopTurn (productClearWord r.args) (2 * r.args.len.toNat) (mulNext 0) r s := by rw [turn, h]

theorem turn_mulZero {r : Running} (h : r.phase = .mulZero) (s : State) :
    turn r s = loopTurn scratchZeroWord (r.args.len.toNat + 1) (fun r s => s.run (r.goto .mulLoad)) r s := by
  rw [turn, h]

theorem turn_mulLoad {r : Running} (h : r.phase = .mulLoad) (s : State) :
    turn r s = loopTurn (scratchLoadWord r.args) r.args.len.toNat (fun r s => s.run (r.goto .mulTimes)) r s := by
  rw [turn, h]

theorem turn_mulTimes {r : Running} (h : r.phase = .mulTimes) (s : State) :
    turn r s
      = loopTurn (scratchMulWord r.args r.outer) (r.args.len.toNat + 1)
          (fun r s => s.run ({ r with trunc := r.trunc || carryLost r.carry }.goto .mulAdd)) r s := by
  rw [turn, h]

theorem turn_mulAdd {r : Running} (h : r.phase = .mulAdd) (s : State) :
    turn r s
      = loopTurn (productAddWord r.args r.outer) (r.args.len.toNat + 1)
          (fun r s => mulNext (r.outer + 1) { r with trunc := r.trunc || carryLost r.carry } s) r s := by
  rw [turn, h]

theorem turn_parseClear {r : Running} (h : r.phase = .parseClear) (s : State) :
    turn r s = loopTurn (parseClearWord r.args) r.args.len.toNat (fun r s => s.run (r.goto .parseRead)) r s := by
  rw [turn, h]

theorem turn_parseTimes {r : Running} {d : Word} (h : r.phase = .parseTimes d) (s : State) :
    turn r s
      = loopTurn (parseTimesWord r.args) r.args.len.toNat
          (fun r s => s.run { r.goto .parseAdd with carry := d, trunc := r.trunc || carryLost r.carry }) r s := by
  rw [turn, h]

theorem turn_parseAdd {r : Running} (h : r.phase = .parseAdd) (s : State) :
    turn r s
      = loopTurn (parseAddWord r.args) r.args.len.toNat
          (fun r s =>
            s.run ({ r with count := r.count + 1, trunc := r.trunc || carryLost r.carry }.goto .parseRead)) r s := by
  rw [turn, h]

theorem turn_fmtDivide {r : Running} (h : r.phase = .fmtDivide) (s : State) :
    turn r s
      = loopTurn (formatDivWord r.args) r.args.len.toNat
          (fun r s => (placeDigit (r.count + 1) r.carry s).run
            { r.goto .fmtTest with carry := 1, count := r.count + 1 }) r s := by
  rw [turn, h]

theorem turn_fmtTest {r : Running} (h : r.phase = .fmtTest) (s : State) :
    turn r s
      = loopTurn (formatTestWord r.args) r.args.len.toNat
          (fun r s => s.run (r.goto (if r.carry = 0 then .fmtDivide else .fmtEmit))) r s := by
  rw [turn, h]

/-! ### The commands that are one word loop -/

theorem oneLoop_reaches {i : Instr} {x : Args} {word : Args → WordBody} {done : Word → State → State} {s : State}
    (hq : Quiet (word x)) (ha : s.agenda = []) (hc : check i x s.params = none)
    (hh : ∀ k c t, { Running.start i x with idx := k, carry := c }.held t = false)
    (ht : ∀ k c t, turn { Running.start i x with idx := k, carry := c } t
      = oneLoopTurn word done { Running.start i x with idx := k, carry := c } t)
    (hd : ∀ c t r, done c (State.run t r) = done c t) :
    Reaches (s.run (Running.start i x)) (oneLoop word done (Running.start i x) s) := by
  have h := phase_reaches (len := x.len.toNat) (after := fun r s => done r.carry s) hq ha (start_wellFormed hc) rfl hh
    ht
  rw [hd] at h
  exact h

/-! ### MUL_LONG -/

/-- What a row enters next does not depend on the record it leaves. -/
theorem mulNext_run (i : Nat) (r r0 : Running) (s : State) : mulNext i r (s.run r0) = mulNext i r s := by
  unfold mulNext
  split <;> rfl

/-- The turns of one row (R190, steps 1 to 4). -/
theorem mulRow_reaches {i : Nat} {r : Running} {s : State} (hc : check .mulLong r.args s.params = none)
    (ha : s.agenda = []) (ho : r.op = .mulLong) (hi : i < r.args.len.toNat) :
    ∃ r', r'.op = .mulLong ∧ r'.args = r.args ∧ r'.trunc = (mulRow r.args i r.trunc s).1 ∧
      Reaches (s.run { r.goto .mulZero with outer := i }) (mulNext (i + 1) r' (mulRow r.args i r.trunc s).2) := by
  have wf : ∀ {t : State} {r' : Running}, t.params = s.params → r'.op = .mulLong → r'.args = r.args →
      r'.phase.fits .mulLong = true → r'.outer = i → r'.wellFormed t.params = true := fun hp ho' ha' hf hi' => by
    rw [hp]
    exact wellFormed_of_phase (ha' ▸ hc) ho' hf fun _ => by rw [hi', ha']; exact hi
  let L := r.args.len.toNat
  let m := forWords (scratchMulWord r.args i) (L + 1) 0 0
    (forWords (scratchLoadWord r.args) L 0 0 (forWords scratchZeroWord (L + 1) 0 0 s).2).2
  obtain ⟨h1, a1, p1⟩ := phase_reaches_next quiet_scratchZeroWord (len := L + 1)
    (r := { r.goto .mulZero with outer := i }) ha (wf rfl ho rfl rfl rfl) rfl (fun _ _ _ => rfl)
    (fun _ _ _ => turn_mulZero rfl _)
  obtain ⟨h2, a2, p2⟩ := phase_reaches_next (quiet_scratchLoadWord r.args) (len := L)
    (r := { r.goto .mulLoad with outer := i }) a1 (wf p1 ho rfl rfl rfl) rfl (fun _ _ _ => rfl)
    (fun _ _ _ => turn_mulLoad rfl _)
  obtain ⟨h3, a3, p3⟩ := phase_reaches_next (quiet_scratchMulWord r.args i) (len := L + 1)
    (r := { r.goto .mulTimes with outer := i }) a2 (wf (p2.trans p1) ho rfl rfl rfl) rfl (fun _ _ _ => rfl)
    (fun _ _ _ => turn_mulTimes rfl _)
  obtain ⟨h4, _, _⟩ := phase_reaches_next (quiet_productAddWord r.args i) (len := L + 1)
    (r := { r.goto .mulAdd with outer := i, trunc := r.trunc || carryLost m.1 }) a3
    (wf (p3.trans (p2.trans p1)) ho rfl rfl rfl) rfl (fun _ _ _ => rfl) (fun _ _ _ => turn_mulAdd rfl _)
  rw [mulNext_run] at h4
  refine ⟨_, ?_, ?_, ?_, h1.trans (h2.trans (h3.trans h4))⟩
  · exact ho
  · rfl
  · rfl

/-- The turns of the rows from `i` on, and the completion (R190). -/
theorem mulRows_reaches {n i : Nat} {r : Running} {s : State} (hc : check .mulLong r.args s.params = none)
    (ha : s.agenda = []) (ho : r.op = .mulLong) (hi : i + n = r.args.len.toNat) :
    Reaches (mulNext i r s) (mulLongDone (mulRows r.args n i r.trunc s).1 (mulRows r.args n i r.trunc s).2) := by
  induction n generalizing i r s with
  | zero =>
    rw [mulNext, if_neg (by omega)]
    exact Reaches.refl _
  | succ n ih =>
    obtain ⟨r', ho', hx, htrunc, hrow⟩ := mulRow_reaches hc ha ho (by omega : i < r.args.len.toNat)
    obtain ⟨⟨m, v, e⟩, _⟩ := mulRow_effect (by omega : i < r.args.len.toNat) r.trunc s
    have hrest := ih (i := i + 1) (r := r') (s := (mulRow r.args i r.trunc s).2) (by rw [hx, e]; exact hc)
      (by rw [e]; exact ha) ho' (by rw [hx]; omega)
    rw [hx, htrunc] at hrest
    rw [mulNext, if_pos (by omega), mulRows]
    exact hrow.trans hrest

theorem mulLongRun_reaches {x : Args} {s : State} (hc : check .mulLong x s.params = none) (ha : s.agenda = []) :
    Reaches (s.run (Running.start .mulLong x)) (mulLongRun (Running.start .mulLong x) s) := by
  obtain ⟨h, hagenda, hparams⟩ := phase_reaches_next (quiet_zeroWord x.p.toNat) (len := 2 * x.len.toNat)
    (r := Running.start .mulLong x) ha (start_wellFormed hc) rfl (fun _ _ _ => rfl) (fun _ _ _ => turn_mulClear rfl _)
  rw [mulNext_run] at h
  exact h.trans (mulRows_reaches (by rw [hparams]; exact hc) hagenda rfl (Nat.zero_add _))

/-! ### PARSE -/

/-- Work on PARSE's destination and streams leaves the agenda and the parameters. -/
theorem OnlyParsed.agenda_params {x : Args} {s t : State} (h : OnlyParsed x s t) :
    t.agenda = s.agenda ∧ t.params = s.params := by
  obtain ⟨⟨_, _, _, _, rfl⟩, _⟩ := h
  exact ⟨rfl, rfl⟩

/-- The turns that discard the rest of a line (R227). -/
theorem skipLine_reaches {r : Running} {items : List InItem} {s : State} (hc : check .parse r.args s.params = none)
    (ha : s.agenda = []) (ho : r.op = .parse) (hi : s.input = items) :
    Reaches (s.run (r.goto .parseSkip)) (skipLine r items s) := by
  induction items generalizing s with
  | nil => exact Reaches.refl _
  | cons it rest ih =>
    have hin : (s.run (r.goto .parseSkip)).input = it :: rest := hi
    refine turn_reaches ha (wellFormed_of_phase hc ho rfl nofun) (congrArg List.isEmpty hin) ?_
    show Reaches (parseDiscard (r.goto .parseSkip) (s.run (r.goto .parseSkip))) _
    rw [parseDiscard, hin]
    cases it with
    | endItem => exact Reaches.refl _
    | byte b =>
      dsimp only
      rw [skipLine]
      split
      · exact Reaches.refl _
      · exact ih (s := s.setInput rest) hc ha rfl

/-- The turns that write the diagnostic from its `k`-th byte on (R227, R91). -/
theorem emitDiag_reaches {r : Running} {x : Byte} {bs : List Byte} {k : Nat} {s : State}
    (hc : check .parse r.args s.params = none) (ha : s.agenda = []) (ho : r.op = .parse)
    (hbs : (diagnostic x).drop k = bs) :
    Reaches (s.run { r.goto (.parseDiag x) with idx := k })
      ((emitDiag bs k s).2.run { r.goto (.parseDiag x) with idx := (emitDiag bs k s).1 }) := by
  induction bs generalizing k s with
  | nil => exact Reaches.refl _
  | cons b bs ih =>
    rw [emitDiag]
    split
    · exact Reaches.refl _
    · rename_i hready
      have hbyte : (diagnostic x)[k]? = some b := by rw [← List.head?_drop, hbs, List.head?_cons]
      have hbs' : (diagnostic x).drop (k + 1) = bs := by rw [← List.tail_drop, hbs, List.tail_cons]
      refine turn_reaches ha (wellFormed_of_phase hc ho rfl nofun) ?_ ?_
      · exact (Bool.and_eq_false_iff ..).mpr (.inr (decide_eq_false hready))
      · show Reaches (diagTurn x { r.goto (.parseDiag x) with idx := k } _) _
        rw [diagTurn, hbyte]
        exact ih (s := s.diagWrite b) hc ha hbs'

/-- The turns of a diagnostic and of the rest of its line (R227). -/
theorem diagnose_reaches {r : Running} (x : Byte) {s : State} (hc : check .parse r.args s.params = none)
    (ha : s.agenda = []) (ho : r.op = .parse) :
    Reaches (s.run (r.goto (.parseDiag x))) (diagnose r x s) := by
  have hemit := emitDiag_reaches (k := 0) (x := x) hc ha ho rfl
  obtain ⟨hagenda, hparams⟩ := (emitDiag_effect r.args (diagnostic x) 0 s).agenda_params
  rw [List.drop_zero] at hemit
  rw [diagnose]
  dsimp only
  split
  · exact hemit
  · rename_i hall
    have hnone : (diagnostic x)[(emitDiag (diagnostic x) 0 s).1]? = none :=
      List.getElem?_eq_none (Nat.le_of_not_lt hall)
    rw [← hparams] at hc
    refine hemit.trans (turn_reaches (hagenda.trans ha) (wellFormed_of_phase hc ho rfl nofun) ?_ ?_)
    · exact (Bool.and_eq_false_iff ..).mpr (.inl (decide_eq_false hall))
    · show Reaches (diagTurn x { r.goto (.parseDiag x) with idx := (emitDiag (diagnostic x) 0 s).1 } _) _
      rw [diagTurn, hnone]
      exact skipLine_reaches hc (hagenda.trans ha) ho rfl

/-- The turns of a digit step (R222). -/
theorem digitStep_reaches {r : Running} (d : Word) {s : State} (hc : check .parse r.args s.params = none)
    (ha : s.agenda = []) (ho : r.op = .parse) :
    Reaches (s.run (r.goto (.parseTimes d)))
      ((digitStep r.args d s).2.run
        ({ r with count := r.count + 1, trunc := r.trunc || (digitStep r.args d s).1 }.goto .parseRead)) := by
  let m := forWords (parseTimesWord r.args) r.args.len.toNat 0 0 s
  obtain ⟨h1, a1, p1⟩ := phase_reaches_next (quiet_mulWord r.args.a.toNat 10) (len := r.args.len.toNat)
    (r := r.goto (.parseTimes d)) ha (wellFormed_of_phase hc ho rfl nofun) rfl (fun _ _ _ => rfl)
    (fun _ _ _ => turn_parseTimes rfl _)
  obtain ⟨h2, _, _⟩ := phase_reaches_next (quiet_addWord r.args.a.toNat) (len := r.args.len.toNat)
    (r := { r.goto .parseAdd with carry := d, trunc := r.trunc || carryLost m.1 }) a1
    (by rw [p1]; exact wellFormed_of_phase hc ho rfl nofun) rfl (fun _ _ _ => rfl) (fun _ _ _ => turn_parseAdd rfl _)
  have h := h1.trans h2
  dsimp only at h
  rw [Bool.or_assoc] at h
  exact h

/-- The turns of PARSE over the items there are (R221). -/
theorem parseItems_reaches {r : Running} {items : List InItem} {s : State} (hc : check .parse r.args s.params = none)
    (ha : s.agenda = []) (ho : r.op = .parse) (hi : s.input = items) :
    Reaches (s.run (r.goto .parseRead)) (parseItems r items s) := by
  induction items generalizing r s with
  | nil => exact Reaches.refl _
  | cons it rest ih =>
    have hin : (s.run (r.goto .parseRead)).input = it :: rest := hi
    refine turn_reaches ha (wellFormed_of_phase hc ho rfl nofun) (congrArg List.isEmpty hin) ?_
    show Reaches (parseTake (r.goto .parseRead) (s.run (r.goto .parseRead))) _
    rw [parseTake, hin, parseItems]
    dsimp only [Running.goto]
    cases parseMove r.count it with
    | exhausted => exact Reaches.refl _
    | complete => exact Reaches.refl _
    | digit d =>
      obtain ⟨m, e⟩ := (digitStep_effect r.args d (s.setInput rest)).1
      refine (digitStep_reaches (s := s.setInput rest) d hc ha ho).trans (ih ?_ ?_ ho ?_)
      · rw [e]; exact hc
      · rw [e]; exact ha
      · rw [e]; rfl
    | invalid x => exact diagnose_reaches (s := s.setInput rest) x hc ha ho

theorem parseRun_reaches {x : Args} {s : State} (hc : check .parse x s.params = none) (ha : s.agenda = []) :
    Reaches (s.run (Running.start .parse x)) (parseRun (Running.start .parse x) s) := by
  obtain ⟨h, hagenda, hparams⟩ := phase_reaches_next (quiet_zeroWord x.a.toNat) (len := x.len.toNat)
    (r := Running.start .parse x) ha (start_wellFormed hc) rfl (fun _ _ _ => rfl) (fun _ _ _ => turn_parseClear rfl _)
  exact h.trans (parseItems_reaches (r := Running.start .parse x) (by rw [hparams]; exact hc) hagenda rfl rfl)

/-! ### FORMAT -/

/-- Work on FORMAT's buffer and `OUT` leaves the agenda and the parameters. -/
theorem OnlyFormatted.agenda_params {x : Args} {s t : State} (h : OnlyFormatted x s t) :
    t.agenda = s.agenda ∧ t.params = s.params := by
  obtain ⟨⟨_, _, _, _, rfl⟩, _⟩ := h
  exact ⟨rfl, rfl⟩

/-- The turns that extract the digits, with divisions enough for the value in the buffer (R240). -/
theorem formatDigits_reaches {nl : Bool} {fuel n : Nat} {r : Running} {s : State}
    (hc : check (.format nl) r.args s.params = none) (ha : s.agenda = []) (ho : r.op = .format nl)
    (hf : s.val r.args.a.toNat r.args.len.toNat < 10 ^ fuel) (h0 : 0 < fuel) :
    Reaches (s.run { r.goto .fmtDivide with count := n })
      ((formatDigits r.args fuel n s).2.run ({ r with count := (formatDigits r.args fuel n s).1 }.goto .fmtEmit)) := by
  induction fuel generalizing n s with
  | zero => omega
  | succ fuel ih =>
    obtain ⟨_, hdiv, _, _⟩ := formatDiv_spec r.args s
    obtain ⟨h1, a1, p1⟩ := phase_reaches_next
      (show Quiet (formatDivWord r.args) from quiet_divWord r.args.a.toNat r.args.len.toNat 10)
      (len := r.args.len.toNat) (r := { r.goto .fmtDivide with count := n }) ha (wellFormed_of_phase hc ho rfl nofun) rfl
      (fun _ _ _ => rfl) (fun _ _ _ => turn_fmtDivide rfl _)
    set q := forWords (formatDivWord r.args) r.args.len.toNat 0 0 s with hq
    set s1 := placeDigit (n + 1) q.1 q.2 with hs1
    obtain ⟨h2, _, _⟩ := phase_reaches_next (show Quiet (formatTestWord r.args) from quiet_testWord r.args.a.toNat)
      (len := r.args.len.toNat) (s := s1) (r := { r.goto .fmtTest with carry := 1, count := n + 1 }) a1
      (wellFormed_of_phase (by exact p1 ▸ hc) ho rfl nofun) rfl (fun _ _ _ => rfl) (fun _ _ _ => turn_fmtTest rfl _)
    have hv : s1.val r.args.a.toNat r.args.len.toNat = s.val r.args.a.toNat r.args.len.toNat / 10 := by
      rw [← hdiv]
      exact State.val_congr fun k _ _ => State.readWord_congr' rfl rfl k
    have hz : forWords (formatTestWord r.args) r.args.len.toNat 0 1 s1
        = (if s1.val r.args.a.toNat r.args.len.toNat = 0 then 1 else 0, s1) := forWords_testWord _ _ 0 1 s1
    have e : formatDigits r.args (fuel + 1) n s
        = if (forWords (formatTestWord r.args) r.args.len.toNat 0 1 s1).1 = 0 then
            formatDigits r.args fuel (n + 1) (forWords (formatTestWord r.args) r.args.len.toNat 0 1 s1).2
          else (n + 1, (forWords (formatTestWord r.args) r.args.len.toNat 0 1 s1).2) := rfl
    refine h1.trans ?_
    dsimp only at h2
    rw [hz] at h2 e
    rw [e]
    dsimp only at h2 ⊢
    by_cases hzero : s1.val r.args.a.toNat r.args.len.toNat = 0
    · rw [if_pos hzero, if_neg (by decide)] at h2
      rw [if_pos hzero, if_neg (by decide)]
      exact h2
    · rw [if_neg hzero, if_pos rfl] at h2
      rw [if_neg hzero, if_pos rfl]
      have hf' : s1.val r.args.a.toNat r.args.len.toNat < 10 ^ fuel := by
        rw [pow_succ] at hf
        omega
      have h0' : 0 < fuel := Nat.pos_of_ne_zero fun h => by
        rw [h, pow_zero] at hf'
        omega
      exact h2.trans (ih (s := s1) (by exact p1 ▸ hc) a1 hf' h0')

/-- The turns that emit the digits from the `k`-th on (R240, R91). -/
theorem emitDigits_reaches {nl : Bool} {m k : Nat} {r : Running} {s : State}
    (hc : check (.format nl) r.args s.params = none) (ha : s.agenda = []) (ho : r.op = .format nl)
    (hk : k + m = r.count) :
    Reaches (s.run { r.goto .fmtEmit with idx := k })
      ((emitDigits r.count m k s).2.run { r.goto .fmtEmit with idx := (emitDigits r.count m k s).1 }) := by
  induction m generalizing k s with
  | zero => exact Reaches.refl _
  | succ m ih =>
    rw [emitDigits]
    split
    · exact Reaches.refl _
    · rename_i hready
      refine turn_reaches ha (wellFormed_of_phase hc ho rfl nofun) ?_ ?_
      · exact (Bool.and_eq_false_iff ..).mpr (.inr (decide_eq_false hready))
      · show Reaches (emitTurn { r.goto .fmtEmit with idx := k } _) _
        have hlt : k < r.count := by omega
        rw [emitTurn, if_pos (by exact hlt)]
        exact ih (k := k + 1) (s := s.outWrite (emittedDigit r.count k s)) hc ha (by omega)

/-- The turns after the last digit (R240, R91). -/
theorem formatTail_reaches {nl : Bool} {k : Nat} {r : Running} {s : State}
    (hc : check (.format nl) r.args s.params = none) (ha : s.agenda = []) (ho : r.op = .format nl)
    (hk : ¬k < r.count) : Reaches (s.run { r.goto .fmtEmit with idx := k }) (formatTail r s) := by
  refine turn_reaches ha (wellFormed_of_phase hc ho rfl nofun) ?_ ?_
  · exact (Bool.and_eq_false_iff ..).mpr (.inl (decide_eq_false hk))
  show Reaches (emitTurn { r.goto .fmtEmit with idx := k } _) _
  rw [emitTurn, if_neg (by exact hk), formatTail]
  by_cases hn : r.op.nlBit = true
  · rw [if_pos (by exact hn), if_pos hn]
    split
    · exact Reaches.refl _
    · rename_i hready
      have hfits : Phase.fits .fmtNewline (.format nl) = true := by rw [ho] at hn; exact hn
      exact turn_reaches (s := s) ha (wellFormed_of_phase hc ho hfits nofun) (decide_eq_false hready) (Reaches.refl _)
  · rw [if_neg (by exact hn), if_neg hn]
    exact Reaches.refl _

/-- The turns of FORMAT from its first division on. -/
theorem formatRun_reaches {nl : Bool} {r : Running} {s : State} (hc : check (.format nl) r.args s.params = none)
    (ha : s.agenda = []) (ho : r.op = .format nl) :
    Reaches (s.run { r.goto .fmtDivide with count := 0 }) (formatRun r s) := by
  have hf : s.val r.args.a.toNat r.args.len.toNat < 10 ^ (64 * r.args.len.toNat + 1) :=
    (s.val_lt _ _).trans_le (two_pow_le_ten_pow (by omega))
  have hdigits := formatDigits_reaches (n := 0) hc ha ho hf (Nat.succ_pos _)
  obtain ⟨aq, pq⟩ := (formatDigits_effect r.args (64 * r.args.len.toNat + 1) 0 s).agenda_params
  rw [formatRun]
  dsimp only
  generalize formatDigits r.args (64 * r.args.len.toNat + 1) 0 s = q at hdigits aq pq ⊢
  rw [← pq] at hc
  have hemit := emitDigits_reaches (r := { r with count := q.1 }) (k := 0) hc (aq.trans ha) ho (Nat.zero_add _)
  obtain ⟨ap, pp⟩ := (emitDigits_effect r.args q.1 q.1 0 q.2).agenda_params
  refine hdigits.trans (hemit.trans ?_)
  dsimp only
  generalize emitDigits q.1 q.1 0 q.2 = p at ap pp ⊢
  split
  · exact Reaches.refl _
  · rename_i hall
    exact formatTail_reaches (r := { r with count := q.1 }) (by rw [pp]; exact hc) (ap.trans (aq.trans ha)) ho hall

/-! ### Every command -/

/-- The turns of an accepted command. -/
theorem runBody_reaches {i : Instr} {x : Args} {s : State} (hc : check i x s.params = none) (ha : s.agenda = []) :
    Reaches (s.run (Running.start i x)) (runBody i (Running.start i x) s) := by
  cases i with
  | zeroFill =>
    exact oneLoop_reaches (quiet_zeroWord _) ha hc (fun _ _ _ => rfl) (fun _ _ _ => rfl) (fun _ _ _ => rfl)
  | copy =>
    exact oneLoop_reaches (quiet_copyArgsWord _) ha hc (fun _ _ _ => rfl) (fun _ _ _ => rfl) (fun _ _ _ => rfl)
  | isZero =>
    exact oneLoop_reaches (quiet_testWord _) ha hc (fun _ _ _ => rfl) (fun _ _ _ => rfl) (fun _ _ _ => rfl)
  | addShort =>
    exact oneLoop_reaches (quiet_addWord _) ha hc (fun _ _ _ => rfl) (fun _ _ _ => rfl) (fun _ _ _ => rfl)
  | mulShort =>
    exact oneLoop_reaches (quiet_mulWord _ _) ha hc (fun _ _ _ => rfl) (fun _ _ _ => rfl) (fun _ _ _ => rfl)
  | divShort =>
    exact oneLoop_reaches (quiet_divWord _ _ _) ha hc (fun _ _ _ => rfl) (fun _ _ _ => rfl) (fun _ _ _ => rfl)
  | addLong =>
    exact oneLoop_reaches (quiet_addLongWord _) ha hc (fun _ _ _ => rfl) (fun _ _ _ => rfl) (fun _ _ _ => rfl)
  | mulLong => exact mulLongRun_reaches hc ha
  | parse => exact parseRun_reaches hc ha
  | format nl => exact formatRun_reaches (r := Running.start (.format nl) x) hc ha rfl

/-- Settles O5: a dropped or faulting command is done at once, and the turns of an accepted one reach its effect. -/
theorem turnsReachTheCommandsEffect : Obligations.TurnsReachTheCommandsEffect := by
  intro i s ha
  have reaches : Reaches (accept i s) (command i (runBody i) s) := by
    rw [accept]
    rcases command_cases i (runBody i) s with ⟨hb, e⟩ | ⟨hb, code, hc, e⟩ | ⟨hb, hc, e⟩ <;> rw [e]
    · rw [command, if_pos hb]
      exact Reaches.refl _
    · rw [command, hb, hc]
      exact Reaches.refl _
    · rw [command_accepted hb hc]
      exact runBody_reaches (s := s.begin (Running.start i s.args)) hc ha
  obtain ⟨k, hk⟩ := reaches
  exact ⟨k, _, exec_eq i s, hk⟩

end Sys2Proof.Machine
end

section
/-!
PROOFS. A command ignores the argument registers it does not use (R101, R102): with other values there, its checks, its
word steps and its streams are the same, and a record it latches differs in those values only.
-/
namespace Sys2Proof.Machine

/-! ### A change of arguments -/

/-- The sequencer with the latched arguments changed by `f`. -/
def Sequencer.relatch (f : Args → Args) : Sequencer → Sequencer
  | .busy r => .busy { r with args := f r.args }
  | .idle => .idle
  | .terminated => .terminated

/-- The state with the argument registers, and the arguments a running command has latched, changed by `f`. -/
def State.relatch (f : Args → Args) (s : State) : State := (s.setArgs (f s.args)).setSeq (s.seq.relatch f)

/-- The record with its arguments changed by `f`. -/
def Running.relatch (f : Args → Args) (r : Running) : Running := { r with args := f r.args }

/-- A change of arguments that keeps those every command uses. -/
structure KeepsRange (f : Args → Args) : Prop where
  a : ∀ x, (f x).a = x.a
  len : ∀ x, (f x).len = x.len

/-- A word step that goes alike under a change of arguments. -/
def Relatches (f : Args → Args) (body : WordBody) : Prop :=
  ∀ k c s, body k c (s.relatch f) = ((body k c s).1, (body k c s).2.relatch f)

theorem WordIgnoresArgs.args_eq {body : WordBody} (h : WordIgnoresArgs body) (k : Nat) (c : Word) (s : State) :
    (body k c s).2.args = s.args :=
  congrArg (fun p => p.2.args) (h k c s s.args)

/-- A word step that looks neither at the argument registers nor at the sequencer. -/
theorem Quiet.relatches {body : WordBody} (hq : Quiet body) (ha : WordIgnoresArgs body) (f : Args → Args) :
    Relatches f body := by
  intro k c s
  obtain ⟨h1, h2, _, _, _⟩ := hq k c (s.setArgs (f s.args)) (s.seq.relatch f)
  obtain ⟨_, _, _, _, hseq⟩ := hq k c s .idle
  rw [ha] at h1 h2
  refine Prod.ext h1 (h2.trans ?_)
  rw [State.relatch, ha.args_eq, hseq]

theorem Relatches.loop {f : Args → Args} {body : WordBody} (h : Relatches f body) (n i : Nat) (c : Word) (s : State) :
    forWords body n i c (s.relatch f) = ((forWords body n i c s).1, (forWords body n i c s).2.relatch f) := by
  induction n generalizing i c s with
  | zero => rfl
  | succ n ih => rw [forWords, h, forWords, ih]

/-! ### The commands that are one word loop -/

/-- A command that is one loop, if its word step uses none of the changed arguments. -/
theorem oneLoop_relatch {f : Args → Args} (word : Args → WordBody) (done : Word → State → State) {r : Running}
    (hf : KeepsRange f) (hw : word (f r.args) = word r.args) (hq : Quiet (word r.args))
    (ha : WordIgnoresArgs (word r.args)) (hd : ∀ c s, done c (State.relatch f s) = (done c s).relatch f) (s : State) :
    oneLoop word done (r.relatch f) (s.relatch f) = (oneLoop word done r s).relatch f := by
  show done (forWords (word (f r.args)) (f r.args).len.toNat 0 r.carry (s.relatch f)).1
    (forWords (word (f r.args)) (f r.args).len.toNat 0 r.carry (s.relatch f)).2 = _
  rw [hw, hf.len, (hq.relatches ha f).loop, hd]
  rfl

/-! ### MUL_LONG -/

theorem mulRow_relatch (f : Args → Args) (x : Args) (i : Nat) (t : Bool) (s : State) :
    mulRow x i t (s.relatch f) = ((mulRow x i t s).1, (mulRow x i t s).2.relatch f) := by
  unfold mulRow
  dsimp only
  rw [(quiet_scratchZeroWord.relatches scratchZeroWord_ignoresArgs f).loop,
    ((quiet_scratchLoadWord x).relatches (scratchLoadWord_ignoresArgs x) f).loop,
    ((quiet_scratchMulWord x i).relatches (scratchMulWord_ignoresArgs x i) f).loop,
    ((quiet_productAddWord x i).relatches (productAddWord_ignoresArgs x i) f).loop]

theorem mulRows_relatch (f : Args → Args) (x : Args) (n i : Nat) (t : Bool) (s : State) :
    mulRows x n i t (s.relatch f) = ((mulRows x n i t s).1, (mulRows x n i t s).2.relatch f) := by
  induction n generalizing i t s with
  | zero => rfl
  | succ n ih => rw [mulRows, mulRow_relatch, mulRows, ih]

/-- The rows do not use the short operand. -/
theorem mulRows_setW (x : Args) (w : Word) (n i : Nat) (t : Bool) (s : State) :
    mulRows { x with w := w } n i t s = mulRows x n i t s := by
  induction n generalizing i t s with
  | zero => rfl
  | succ n ih =>
    rw [mulRows, mulRows, ih]
    rfl

/-- MUL_LONG under a change of the short operand only. -/
theorem mulLongRun_relatch {f : Args → Args} {w : Word} (hf : ∀ x, f x = { x with w := w }) (r : Running) (s : State) :
    mulLongRun (r.relatch f) (s.relatch f) = (mulLongRun r s).relatch f := by
  have hclear := ((quiet_zeroWord r.args.p.toNat).relatches (zeroWord_ignoresArgs _) f).loop
    (2 * r.args.len.toNat) 0 0 s
  unfold mulLongRun productClearWord
  rw [show (r.relatch f).args = { r.args with w := w } from hf r.args]
  dsimp only
  rw [hclear, mulRows_setW, mulRows_relatch]
  rfl

/-! ### PARSE -/

theorem State.terminate_relatch {f : Args → Args} (hf : KeepsRange f) (x : Args) (code : Byte) (s : State) :
    (s.relatch f).terminate (f x) code = (s.terminate x code).relatch f := by
  have hrange : Args.rangeA (f x) = Args.rangeA x := by rw [Args.rangeA, Args.rangeA, hf.a, hf.len]
  rw [State.terminate, hrange]
  rfl

theorem skipLine_relatch {f : Args → Args} (hf : KeepsRange f) (r : Running) (items : List InItem) (s : State) :
    skipLine (r.relatch f) items (s.relatch f) = (skipLine r items s).relatch f := by
  induction items generalizing s with
  | nil => rfl
  | cons it rest ih =>
    cases it with
    | endItem => exact State.terminate_relatch hf r.args 1 s
    | byte b =>
      rw [skipLine, skipLine]
      split
      · exact State.terminate_relatch hf r.args 1 (s.setInput rest)
      · exact ih (s.setInput rest)

theorem emitDiag_relatch (f : Args → Args) (bs : List Byte) (k : Nat) (s : State) :
    emitDiag bs k (s.relatch f) = ((emitDiag bs k s).1, (emitDiag bs k s).2.relatch f) := by
  induction bs generalizing k s with
  | nil => rfl
  | cons b bs ih =>
    rw [emitDiag, emitDiag, show (s.relatch f).diagReady = s.diagReady from rfl]
    split
    · rfl
    · exact ih (k + 1) (s.diagWrite b)

theorem diagnose_relatch {f : Args → Args} (hf : KeepsRange f) (r : Running) (x : Byte) (s : State) :
    diagnose (r.relatch f) x (s.relatch f) = (diagnose r x s).relatch f := by
  unfold diagnose
  rw [emitDiag_relatch]
  dsimp only
  split
  · rfl
  · exact skipLine_relatch hf r _ _

theorem digitStep_relatch {f : Args → Args} (hf : KeepsRange f) (x : Args) (d : Word) (s : State) :
    digitStep (f x) d (s.relatch f) = ((digitStep x d s).1, (digitStep x d s).2.relatch f) := by
  unfold digitStep parseTimesWord parseAddWord
  rw [hf.a, hf.len, ((quiet_mulWord _ _).relatches (mulWord_ignoresArgs _ _) f).loop]
  dsimp only
  rw [((quiet_addWord _).relatches (addWord_ignoresArgs _) f).loop]

theorem parseItems_relatch {f : Args → Args} (hf : KeepsRange f) (r : Running) (items : List InItem) (s : State) :
    parseItems (r.relatch f) items (s.relatch f) = (parseItems r items s).relatch f := by
  induction items generalizing r s with
  | nil => rfl
  | cons it rest ih =>
    rw [parseItems, parseItems, show (r.relatch f).count = r.count from rfl]
    cases parseMove r.count it with
    | exhausted => exact State.terminate_relatch hf r.args 2 s
    | complete => rfl
    | digit d =>
      have hd := digitStep_relatch hf r.args d (s.setInput rest)
      dsimp only
      rw [show digitStep (r.relatch f).args d ((s.relatch f).setInput rest) = _ from hd]
      exact ih { r with count := r.count + 1, trunc := r.trunc || (digitStep r.args d (s.setInput rest)).1 } _
    | invalid x => exact diagnose_relatch hf r x (s.setInput rest)

theorem parseRun_relatch {f : Args → Args} (hf : KeepsRange f) (r : Running) (s : State) :
    parseRun (r.relatch f) (s.relatch f) = (parseRun r s).relatch f := by
  have hclear := ((quiet_zeroWord r.args.a.toNat).relatches (zeroWord_ignoresArgs _) f).loop r.args.len.toNat 0 0 s
  unfold parseRun parseClearWord
  rw [show (r.relatch f).args = f r.args from rfl, hf.a, hf.len, hclear]
  exact parseItems_relatch hf r _ _

/-! ### FORMAT -/

theorem formatDigits_relatch {f : Args → Args} (hf : KeepsRange f) (x : Args) (fuel n : Nat) (s : State) :
    formatDigits (f x) fuel n (s.relatch f) = ((formatDigits x fuel n s).1, (formatDigits x fuel n s).2.relatch f) := by
  induction fuel generalizing n s with
  | zero => rfl
  | succ fuel ih =>
    have hdiv := ((quiet_divWord x.a.toNat x.len.toNat 10).relatches (divWord_ignoresArgs _ _ _) f).loop
      x.len.toNat 0 0 s
    have htest := fun t => ((quiet_testWord x.a.toNat).relatches (testWord_ignoresArgs _) f).loop x.len.toNat 0 1 t
    have hplace : ∀ (d : Word) (t : State), placeDigit (n + 1) d (t.relatch f) = (placeDigit (n + 1) d t).relatch f :=
      fun _ _ => rfl
    unfold formatDigits formatDivWord formatTestWord
    rw [hf.a, hf.len, hdiv]
    dsimp only
    rw [hplace, htest]
    dsimp only
    split
    · exact ih (n + 1) _
    · rfl

theorem emitDigits_relatch (f : Args → Args) (n m k : Nat) (s : State) :
    emitDigits n m k (s.relatch f) = ((emitDigits n m k s).1, (emitDigits n m k s).2.relatch f) := by
  induction m generalizing k s with
  | zero => rfl
  | succ m ih =>
    rw [emitDigits, emitDigits, show (s.relatch f).outReady = s.outReady from rfl]
    split
    · rfl
    · exact ih (k + 1) (s.outWrite (emittedDigit n k s))

theorem formatTail_relatch (f : Args → Args) (r : Running) (s : State) :
    formatTail (r.relatch f) (s.relatch f) = (formatTail r s).relatch f := by
  rw [formatTail, formatTail, show (r.relatch f).op = r.op from rfl, show (s.relatch f).outReady = s.outReady from rfl]
  split
  · split <;> rfl
  · rfl

theorem formatRun_relatch {f : Args → Args} (hf : KeepsRange f) (r : Running) (s : State) :
    formatRun (r.relatch f) (s.relatch f) = (formatRun r s).relatch f := by
  unfold formatRun
  rw [show (r.relatch f).args = f r.args from rfl, hf.len, formatDigits_relatch hf]
  dsimp only
  rw [emitDigits_relatch]
  dsimp only
  split
  · rfl
  · exact formatTail_relatch f { r with count := _ } _

/-! ### Every command -/

/-- The arguments with other values in the registers that a command does not use (R102). -/
def otherArgs (i : Instr) (b p : Half) (w : Word) (x : Args) : Args :=
  { x with
    b := if i ∈ [.copy, .addLong, .mulLong] then x.b else b
    p := if i = .mulLong then x.p else p
    w := if i ∈ [.addShort, .mulShort, .divShort] then x.w else w }

theorem otherArgs_keepsRange (i : Instr) (b p : Half) (w : Word) : KeepsRange (otherArgs i b p w) :=
  ⟨fun _ => rfl, fun _ => rfl⟩

/-- The checks look at used arguments only (R120). -/
theorem check_otherArgs (i : Instr) (b p : Half) (w : Word) (x : Args) (q : Params) :
    check i (otherArgs i b p w x) q = check i x q := by
  cases i <;> rfl

/-- The record a command starts with has the new arguments, and the carry of the old ones. -/
theorem start_otherArgs (i : Instr) (b p : Half) (w : Word) (x : Args) :
    Running.start i (otherArgs i b p w x) = (Running.start i x).relatch (otherArgs i b p w) := by
  cases i <;> rfl

/-- The body of a command under other values in the registers it does not use. -/
theorem runBody_otherArgs (i : Instr) (b p : Half) (w : Word) (r : Running) (s : State) :
    runBody i (r.relatch (otherArgs i b p w)) (s.relatch (otherArgs i b p w))
      = (runBody i r s).relatch (otherArgs i b p w) := by
  have hf := otherArgs_keepsRange i b p w
  cases i with
  | zeroFill =>
    exact oneLoop_relatch zeroFillWord zeroFillDone hf rfl (quiet_zeroWord _) (zeroWord_ignoresArgs _)
      (fun _ _ => rfl) s
  | copy =>
    exact oneLoop_relatch copyArgsWord copyDone hf rfl (quiet_copyArgsWord _) (copyArgsWord_ignoresArgs _)
      (fun _ _ => rfl) s
  | isZero =>
    exact oneLoop_relatch isZeroWord isZeroDone hf rfl (quiet_testWord _) (testWord_ignoresArgs _) (fun _ _ => rfl) s
  | addShort =>
    exact oneLoop_relatch addShortWord addShortDone hf rfl (quiet_addWord _) (addWord_ignoresArgs _) (fun _ _ => rfl) s
  | mulShort =>
    exact oneLoop_relatch mulShortWord mulShortDone hf rfl (quiet_mulWord _ _) (mulWord_ignoresArgs _ _)
      (fun _ _ => rfl) s
  | divShort =>
    exact oneLoop_relatch divShortWord divShortDone hf rfl (quiet_divWord _ _ _) (divWord_ignoresArgs _ _ _)
      (fun _ _ => rfl) s
  | addLong =>
    exact oneLoop_relatch addLongWord addLongDone hf rfl (quiet_addLongWord _) (addLongWord_ignoresArgs _)
      (fun _ _ => rfl) s
  | mulLong => exact mulLongRun_relatch (w := w) (fun _ => rfl) r s
  | parse => exact parseRun_relatch hf r s
  | format nl => exact formatRun_relatch hf r s

/-- An accepted command under other values in the registers it does not use. -/
theorem exec_otherArgs {i : Instr} {s : State} (b p : Half) (w : Word) (hb : s.status.blocked = false)
    (hc : check i s.args s.params = none) :
    exec i { s with args := otherArgs i b p w s.args }
      = .next
          ((runBody i (Running.start i s.args) (s.begin (Running.start i s.args))).relatch (otherArgs i b p w)) := by
  have hc' : check i (otherArgs i b p w s.args) s.params = none := (check_otherArgs ..).trans hc
  rw [exec_eq, command_accepted (s := { s with args := otherArgs i b p w s.args }) hb hc']
  dsimp only
  rw [start_otherArgs, ← runBody_otherArgs]
  rfl

/-- Settles O19: the checks give the same fault, and an accepted command goes alike up to its completion, its
termination or its hold. -/
theorem unusedArgumentsAreIgnored : Obligations.UnusedArgumentsAreIgnored := by
  intro i s t b p w hb h other
  rw [exec_eq] at h
  injection h with h
  subst h
  have idle : s.status.busy = false := (s.status.blocked_eq_false_iff.mp hb).1
  cases hc : check i s.args s.params with
  | some code =>
    have faults : ∀ y, check i y s.params = some code →
        command i (runBody i) { s with args := y } = State.raiseFault { s with args := y } code := fun y hy => by
      rw [command, hb]
      simp [hy]
    have hc' : check i (other s.args) s.params = some code := (check_otherArgs i b p w ..).trans hc
    rw [exec_eq, faults _ hc', show command i (runBody i) s = s.raiseFault code from faults s.args hc]
    exact ⟨fun _ => rfl, fun hbusy => absurd (idle.symm.trans hbusy) nofun⟩
  | none =>
    rw [show exec i { s with args := other s.args } = _ from exec_otherArgs b p w hb hc, command_accepted hb hc]
    obtain ⟨u, ⟨⟨_, _, _, _, _, _, _, _, rfl⟩, _⟩, he⟩ :=
      runBody_effect i (Running.start i s.args) rfl (s.begin (Running.start i s.args))
    rcases he with ⟨r, _, e⟩ | ⟨_, _, _, e | e | e⟩ | ⟨_, _, e⟩ <;> rw [e]
    · exact ⟨nofun, fun _ => ⟨r, rfl, rfl⟩⟩
    all_goals exact ⟨fun _ => rfl, nofun⟩

end Sys2Proof.Machine
end

section
/-!
PROOFS. Short arithmetic: ADD_SHORT, MUL_SHORT and DIV_SHORT compute what R141, R151 and R161 say, MUL_SHORT by 0 makes
IS_ZERO true (R153), and DIV_SHORT by 0 faults (R163).
-/
namespace Sys2Proof.Machine

/-! ### The commands of one range -/

/-- The arguments of a command of one range and no length limit pass when the range is in bounds and there is no zero
divisor (R120). -/
theorem check_oneRange {i : Instr} {x : Args} {p : Params}
    (hi : i ∈ [.zeroFill, .isZero, .addShort, .mulShort, .divShort]) (hb : x.a.toNat + x.len.toNat ≤ p.bufWords)
    (hw : i = .divShort → x.w ≠ 0) : check i x p = none := by
  rw [check_eq_none_iff]
  simp only [← Bool.not_eq_true, lengthFails_iff, boundsFails_iff, aliasFails_iff, divisorFails_iff, not_and]
  simp only [List.mem_cons, List.not_mem_nil, or_false] at hi
  rcases hi with rfl | rfl | rfl | rfl | rfl <;> exact ⟨by simp, by simp [hb], by simp, hw⟩

@[simp] theorem State.begin_val (s : State) (r : Running) (a n : Nat) : (s.begin r).val a n = s.val a n :=
  State.val_congr fun k _ _ => State.readWord_congr' rfl rfl k

@[simp] theorem State.begin_setBufram_val (s : State) (r : Running) (m : List Host.Cell) (a n : Nat) :
    ((s.begin r).setBufram m).val a n = (s.setBufram m).val a n :=
  State.val_congr fun k _ _ => State.readWord_congr' rfl rfl k

@[simp] theorem State.complete_val (s : State) (v : Word) (f z : Bool) (a n : Nat) :
    (s.complete v f z).val a n = s.val a n :=
  State.val_congr fun k _ _ => State.readWord_congr' rfl rfl k

/-- A command that is one loop over words of `BUFRAM` runs its loop and completes (R121, R123). -/
theorem exec_oneLoop {i : Instr} {s : State} {word : Args → WordBody} {done : Word → State → State}
    (hr : s.ready) (hc : check i s.args s.params = none) (hbody : runBody i = oneLoop word done)
    (hram : ∀ k c u, ∃ m, (word s.args k c u).2 = State.setBufram u m) :
    ∃ c m,
      forWords (word s.args) s.args.len.toNat 0 (firstCarry i s.args) (s.begin (Running.start i s.args))
        = (c, (s.begin (Running.start i s.args)).setBufram m) ∧
      exec i s = .next (done c ((s.begin (Running.start i s.args)).setBufram m)) := by
  obtain ⟨m, hm⟩ := forWords_onlyRam hram s.args.len.toNat 0 (firstCarry i s.args) (s.begin (Running.start i s.args))
  refine ⟨_, m, Prod.ext rfl hm, ?_⟩
  rw [exec_accepted hr hc, hbody, ← hm]
  rfl

/-! ### What each command leaves -/

/-- A command whose loop is a carry chain completes; its words are the remainder, and its carry-out is the quotient, of
the exact number `x` that they make up (R141, R151). -/
theorem exec_carryChain {i : Instr} {s : State} {word : Args → WordBody} {x : Nat}
    (hr : s.ready) (hc : check i s.args s.params = none)
    (hbody : runBody i = oneLoop word fun c u => u.complete c (carryLost c) false)
    (hram : ∀ k c u, ∃ m, (word s.args k c u).2 = State.setBufram u m)
    (hchain : ∀ c u, forWords (word s.args) s.args.len.toNat 0 (firstCarry i s.args)
        (s.begin (Running.start i s.args)) = (c, u) →
      u.val s.args.a.toNat s.args.len.toNat + 2 ^ (64 * s.args.len.toNat) * c.toNat = x) :
    ∃ c m, exec i s = .next ((s.setBufram m).complete c (carryLost c) false) ∧
      (s.setBufram m).val s.args.a.toNat s.args.len.toNat = x % 2 ^ (64 * s.args.len.toNat) ∧
      c.toNat = x / 2 ^ (64 * s.args.len.toNat) := by
  obtain ⟨c, m, hloop, he⟩ := exec_oneLoop hr hc hbody hram
  have hx := hchain _ _ hloop
  rw [State.begin_setBufram_val] at hx
  obtain ⟨hdiv, hmod⟩ := (Nat.div_mod_unique (Nat.two_pow_pos _)).mpr ⟨hx, State.val_lt ..⟩
  exact ⟨c, m, he, hmod.symm, hdiv.symm⟩

/-- ADD_SHORT completes; its words and its carry-out are those of the sum (R140, R141). -/
theorem exec_addShort {s : State} (hr : s.ready) (hb : s.args.a.toNat + s.args.len.toNat ≤ s.params.bufWords) :
    ∃ c m, exec .addShort s = .next ((s.setBufram m).complete c (carryLost c) false) ∧
      (s.setBufram m).val s.args.a.toNat s.args.len.toNat
        = (s.val s.args.a.toNat s.args.len.toNat + s.args.w.toNat) % 2 ^ (64 * s.args.len.toNat) ∧
      c.toNat = (s.val s.args.a.toNat s.args.len.toNat + s.args.w.toNat) / 2 ^ (64 * s.args.len.toNat) := by
  refine exec_carryChain (word := addShortWord) hr (check_oneRange (by decide) hb nofun) rfl
    (fun k c u => ⟨_, State.writeWord_eq u _ _⟩) fun c u hloop => ?_
  obtain ⟨hval, _⟩ := forWords_addWord s.args.a.toNat s.args.len.toNat s.args.w
    (s.begin (Running.start .addShort s.args))
  rw [show forWords (addWord s.args.a.toNat) _ 0 s.args.w _ = (c, u) from hloop, State.begin_val] at hval
  exact hval

/-- MUL_SHORT completes; its words and its carry-out are those of the product (R150, R151). -/
theorem exec_mulShort {s : State} (hr : s.ready) (hb : s.args.a.toNat + s.args.len.toNat ≤ s.params.bufWords) :
    ∃ c m, exec .mulShort s = .next ((s.setBufram m).complete c (carryLost c) false) ∧
      (s.setBufram m).val s.args.a.toNat s.args.len.toNat
        = s.val s.args.a.toNat s.args.len.toNat * s.args.w.toNat % 2 ^ (64 * s.args.len.toNat) ∧
      c.toNat = s.val s.args.a.toNat s.args.len.toNat * s.args.w.toNat / 2 ^ (64 * s.args.len.toNat) := by
  refine exec_carryChain (word := mulShortWord) hr (check_oneRange (by decide) hb nofun) rfl
    (fun k c u => ⟨_, State.writeWord_eq u _ _⟩) fun c u hloop => ?_
  obtain ⟨hval, _⟩ := forWords_mulWord s.args.a.toNat s.args.w s.args.len.toNat 0
    (s.begin (Running.start .mulShort s.args))
  rw [show forWords (mulWord s.args.a.toNat s.args.w) _ 0 0 _ = (c, u) from hloop, State.begin_val] at hval
  exact hval

/-- DIV_SHORT by a non-zero word completes; its words and its remainder are an exact division (R160, R161). -/
theorem exec_divShort {s : State} (hr : s.ready) (hb : s.args.a.toNat + s.args.len.toNat ≤ s.params.bufWords)
    (hw : s.args.w ≠ 0) :
    ∃ c m, exec .divShort s = .next ((s.setBufram m).complete c false false) ∧
      c.toNat + s.args.w.toNat * (s.setBufram m).val s.args.a.toNat s.args.len.toNat
        = s.val s.args.a.toNat s.args.len.toNat ∧
      c.toNat < s.args.w.toNat := by
  have hpos : (0 : Word).toNat < s.args.w.toNat := Nat.pos_of_ne_zero fun h => hw (BitVec.eq_of_toNat_eq h)
  obtain ⟨c, m, hloop, he⟩ := exec_oneLoop (i := .divShort) (word := divShortWord) hr
    (check_oneRange (by decide) hb fun _ => hw) rfl fun k c u => ⟨_, State.writeWord_eq u _ _⟩
  obtain ⟨hval, hlt, _⟩ := forWords_divWord (base := s.args.a.toNat) (Nat.le_refl s.args.len.toNat) hpos
    (s.begin (Running.start .divShort s.args))
  rw [Nat.sub_self, show forWords (divWord s.args.a.toNat s.args.len.toNat s.args.w) _ 0 0 _ = _ from hloop] at hval hlt
  exact ⟨c, m, he, by simpa [Nat.add_comm] using hval.symm, hlt⟩

/-- IS_ZERO changes no word and answers whether the buffer holds 0 (R270). -/
theorem exec_isZero {s : State} (hr : s.ready) (hb : s.args.a.toNat + s.args.len.toNat ≤ s.params.bufWords) :
    exec .isZero s = .next (isZeroDone (if s.val s.args.a.toNat s.args.len.toNat = 0 then 1 else 0) s) := by
  have hloop := forWords_testWord s.args.a.toNat s.args.len.toNat 0 1 (s.begin (Running.start .isZero s.args))
  rw [Nat.add_zero, State.begin_val] at hloop
  rw [exec_accepted (i := .isZero) hr (check_oneRange (by decide) hb nofun)]
  exact congrArg (fun p => Host.Outcome.next (isZeroDone p.1 p.2)) hloop

/-! ### The obligations -/

/-- Settles O20: the words and the carry-out of the addition are the remainder and the quotient of the sum. -/
theorem addShortAddsTheWord : Obligations.AddShortAddsTheWord := by
  intro s hr hb
  obtain ⟨c, m, he, hmod, hdiv⟩ := exec_addShort hr hb
  exact ⟨_, he, (State.complete_val ..).trans hmod, hdiv, rfl⟩

/-- Settles O21: the words and the carry-out of the multiplication are the remainder and the quotient of the
product. -/
theorem mulShortMultipliesByTheWord : Obligations.MulShortMultipliesByTheWord := by
  intro s hr hb
  obtain ⟨c, m, he, hmod, hdiv⟩ := exec_mulShort hr hb
  exact ⟨_, he, (State.complete_val ..).trans hmod, hdiv, rfl⟩

/-- Settles O22: the product with 0 leaves the buffer 0 and the block ready, with its arguments as they were. -/
theorem multiplyingByZeroIsZero : Obligations.MultiplyingByZeroIsZero := by
  intro s hr hb hw
  obtain ⟨c, m, he, hmod, _⟩ := exec_mulShort hr hb
  have hzero : (s.setBufram m).val s.args.a.toNat s.args.len.toNat = 0 := by simpa [hw] using hmod
  obtain ⟨_, hfault, hterm⟩ := hr
  have hz := exec_isZero (s := (s.setBufram m).complete c (carryLost c) false) ⟨rfl, hfault, hterm⟩ hb
  rw [if_pos (by exact (State.complete_val ..).trans hzero)] at hz
  exact ⟨_, _, he, hz, rfl, rfl⟩

/-- Settles O23: the words and the remainder of the division loop are the quotient and the remainder. -/
theorem divShortDividesByTheWord : Obligations.DivShortDividesByTheWord := by
  intro s hr hb hw
  obtain ⟨c, m, he, hval, hlt⟩ := exec_divShort hr hb hw
  obtain ⟨hdiv, hmod⟩ := (Nat.div_mod_unique (Nat.zero_lt_of_lt hlt)).mpr ⟨hval, hlt⟩
  exact ⟨_, he, (State.complete_val ..).trans hdiv.symm, hmod.symm, rfl⟩

/-- Settles O24: an in-bounds DIV_SHORT passes every check before that of its divisor. -/
theorem divisionByZeroFaults : Obligations.DivisionByZeroFaults := by
  intro s hr hb hw
  refine exec_faulted (code := .divideByZero) hr ?_
  have hbounds : ¬boundsFails .divShort s.args s.params = true := by simpa [boundsFails_iff] using hb
  have hdivisor : divisorFails .divShort s.args = true := (divisorFails_iff ..).mpr ⟨rfl, hw⟩
  simp [check, lengthFails, aliasFails, hbounds, hdivisor]

end Sys2Proof.Machine
end

section
/-!
PROOFS. Long arithmetic: ADD_LONG adds its source into its destination (R181), MUL_LONG writes the exact product (R191,
R192), and neither changes the buffers it only reads.
-/
namespace Sys2Proof.Machine

/-! ### Arguments that pass -/

/-- The arguments of ADD_LONG pass when its two ranges are in bounds and apart (R120, R182). -/
theorem check_addLong {x : Args} {p : Params} (ha : x.a.toNat + x.len.toNat ≤ p.bufWords)
    (hb : x.b.toNat + x.len.toNat ≤ p.bufWords) (hab : apart x.a.toNat x.len.toNat x.b.toNat x.len.toNat) :
    check .addLong x p = none := by
  rw [check_eq_none_iff]
  simp only [← Bool.not_eq_true, boundsFails_iff, aliasFails_iff]
  exact ⟨nofun, by simp [ha, hb], by simp [hab], nofun⟩

/-- The arguments of MUL_LONG pass when `LEN` is at most `N`, its three ranges are in bounds, and the product is apart
from both factors (R120, R197). -/
theorem check_mulLong {x : Args} {p : Params} (hlen : x.len.toNat ≤ p.n) (ha : x.a.toNat + x.len.toNat ≤ p.bufWords)
    (hb : x.b.toNat + x.len.toNat ≤ p.bufWords) (hp : x.p.toNat + 2 * x.len.toNat ≤ p.bufWords)
    (hpa : apart x.p.toNat (2 * x.len.toNat) x.a.toNat x.len.toNat)
    (hpb : apart x.p.toNat (2 * x.len.toNat) x.b.toNat x.len.toNat) : check .mulLong x p = none := by
  rw [check_eq_none_iff]
  simp only [← Bool.not_eq_true, lengthFails_iff, boundsFails_iff, aliasFails_iff]
  exact ⟨by simp [hlen], by simp [ha, hb, hp], by simp [hpa, hpb], nofun⟩

/-! ### Buffers a command only reads -/

/-- A command keeps the number of every buffer that is apart from the words it writes (R71, R102). -/
theorem exec_val_of_apart {i : Instr} {s t : State} (h : exec i s = .next t) {a n : Nat}
    (hw : apart (writtenWords i s.args).1 (writtenWords i s.args).2 a n) : t.val a n = s.val a n :=
  State.val_congr fun k h1 h2 => State.readWord_congr fun j hj =>
    (exec_touches h).bytes _ (by unfold apart at hw; omega)

/-! ### What each command leaves -/

/-- ADD_LONG completes; its words and its carry-out are those of the sum (R180, R181). -/
theorem exec_addLong {s : State} (hr : s.ready) (hc : check .addLong s.args s.params = none) :
    ∃ c m, exec .addLong s = .next ((s.setBufram m).complete c (carryLost c) false) ∧
      (s.setBufram m).val s.args.a.toNat s.args.len.toNat
        = (s.val s.args.a.toNat s.args.len.toNat + s.val s.args.b.toNat s.args.len.toNat)
          % 2 ^ (64 * s.args.len.toNat) ∧
      c.toNat = (s.val s.args.a.toNat s.args.len.toNat + s.val s.args.b.toNat s.args.len.toNat)
          / 2 ^ (64 * s.args.len.toNat) := by
  obtain ⟨_, _, halias, _⟩ := (check_eq_none_iff ..).mp hc
  refine exec_carryChain (word := addLongWord) hr hc rfl (fun k c u => ⟨_, State.writeWord_eq u _ _⟩)
    fun c u hloop => ?_
  obtain ⟨hval, _⟩ := forWords_addLongWord halias 0 (s.begin (Running.start .addLong s.args))
  rw [show forWords (addLongWord s.args) _ 0 0 _ = (c, u) from hloop, State.begin_val, State.begin_val] at hval
  exact hval

/-- The carry-out of a sum of two buffers is at most 1 (R181). -/
theorem State.val_add_val_div_le_one (s : State) (a b n : Nat) : (s.val a n + s.val b n) / 2 ^ (64 * n) ≤ 1 := by
  have ha := s.val_lt a n
  have hb := s.val_lt b n
  exact Nat.le_of_lt_succ (Nat.div_lt_of_lt_mul (by omega))

@[simp] theorem mulLongDone_val (f : Bool) (s : State) (a n : Nat) : (mulLongDone f s).val a n = s.val a n :=
  State.val_congr fun k _ _ => State.readWord_congr' rfl rfl k

/-- Step 0 of MUL_LONG leaves the product 0 and both factors as they were; the rows then build the product (R190,
R191). -/
theorem mulLongRun_val {r : Running} (halias : aliasFails .mulLong r.args = false) (s : State) :
    (mulLongRun r s).val r.args.p.toNat (2 * r.args.len.toNat)
      = s.val r.args.a.toNat r.args.len.toNat * s.val r.args.b.toNat r.args.len.toNat := by
  obtain ⟨ha, hb⟩ : (Args.rangeP r.args).overlaps (Args.rangeA r.args) = false ∧
      (Args.rangeP r.args).overlaps (Args.rangeB r.args) = false := by
    simpa only [aliasFails, Bool.or_eq_false_iff] using halias
  set s0 := (forWords (productClearWord r.args) (2 * r.args.len.toNat) 0 0 s).2 with hs0
  have hclear : ∀ k, s0.readWord k
      = if r.args.p.toNat ≤ k ∧ k < r.args.p.toNat + 2 * r.args.len.toNat then 0 else s.readWord k :=
    forWords_zeroWord r.args.p.toNat (2 * r.args.len.toNat) 0 0 s
  have hzero : s0.val r.args.p.toNat (2 * r.args.len.toNat) = 0 :=
    (s0.val_eq_zero_iff ..).mpr fun k h1 h2 => (hclear k).trans (if_pos ⟨h1, h2⟩)
  have hfactor : ∀ a, (Args.rangeP r.args).overlaps ⟨a, r.args.len.toNat⟩ = false →
      s0.val a r.args.len.toNat = s.val a r.args.len.toNat := fun a h => by
    simp only [Range.overlaps_eq_false_iff, Args.rangeP] at h
    exact State.val_congr fun k h1 h2 => (hclear k).trans (if_neg (by omega))
  obtain ⟨_, hprod, _⟩ := mulRows_spec ha hb (Nat.zero_add _) false (hzero.trans (Nat.mul_zero _).symm)
  rw [mulLongRun, mulLongDone_val, ← hs0, hprod, hfactor _ ha, hfactor _ hb]

/-! ### The obligations -/

/-- Settles O25: the words and the carry-out of the loop are the remainder and the quotient of the sum, and the source
is apart from the words written. -/
theorem addLongAddsTheBuffers : Obligations.AddLongAddsTheBuffers := by
  intro s hr ha hb hab
  obtain ⟨c, m, he, hmod, hdiv⟩ := exec_addLong hr (check_addLong ha hb hab)
  have hle : c.toNat ≤ 1 := hdiv.trans_le (s.val_add_val_div_le_one ..)
  have hcarry : c = 0 ∨ c = 1 := by bv_omega
  exact ⟨_, he, (State.complete_val ..).trans hmod, hdiv, hcarry, exec_val_of_apart he hab, rfl⟩

/-- Settles O26: the rows build the exact product and lose no carry, and the factors are apart from the words
written. -/
theorem mulLongMultipliesTheBuffers : Obligations.MulLongMultipliesTheBuffers := by
  intro s hr hlen ha hb hp hpa hpb
  have hc := check_mulLong hlen ha hb hp hpa hpb
  obtain ⟨_, _, halias, _⟩ := (check_eq_none_iff ..).mp hc
  have he := exec_accepted hr hc
  have hprod := mulLongRun_val (r := Running.start .mulLong s.args) halias (s.begin (Running.start .mulLong s.args))
  obtain ⟨u, ⟨⟨m, v, rfl⟩, _⟩, hu⟩ :=
    mulLongRun_keeps_carries (r := Running.start .mulLong s.args) halias (s.begin (Running.start .mulLong s.args))
  rw [State.begin_val, State.begin_val] at hprod
  refine ⟨_, he, hprod, exec_val_of_apart he hpa, exec_val_of_apart he hpb, ?_⟩
  rw [runBody, hu]
  exact ⟨rfl, rfl⟩

end Sys2Proof.Machine
end

section
/-!
PROOFS. The decimal codec: how PARSE completes and how it terminates (R223, R225, R227), the text that FORMAT writes
(R241), one after the other (R230), and the size of the digit buffer (R244).
-/
namespace Sys2Proof.Machine

/-- The number a buffer holds is read from `bufram` and `epoch`. -/
theorem State.val_congr' {s t : State} {a n : Nat} (hm : t.bufram = s.bufram)
    (he : t.epoch = s.epoch) :
    t.val a n = s.val a n :=
  State.val_congr fun k _ _ => State.readWord_congr' hm he k

@[simp] theorem State.setInput_val (s : State) (l : List InItem) (a n : Nat) : (s.setInput l).val a n = s.val a n :=
  State.val_congr' rfl rfl

/-! ### PARSE -/

/-- What ends a numeral completes PARSE: a newline, which is taken, or `End` after a digit, which stays (R221, R231). -/
theorem terminator_completes {ds : List Nat} {tail after : List InItem}
    (h : tail = .byte newline :: after ∨ (ds ≠ [] ∧ tail = after ∧ after.head? = some .endItem)) :
    ∃ it rest, tail = it :: rest ∧ parseMove ds.length it = .complete ∧ restOf it rest = after := by
  rcases h with rfl | ⟨hds, rfl, hend⟩
  · exact ⟨_, _, rfl, parseMove_newline _, rfl⟩
  · obtain ⟨rest, rfl⟩ := List.head?_eq_some_iff.mp hend
    refine ⟨_, _, rfl, ?_, rfl⟩
    rw [parseMove_end, if_neg (mt List.length_eq_zero_iff.mp hds)]

/-- What ends a skipped line terminates the block: a newline, which is taken, or `End`, which stays (R227, R231). -/
theorem skipLine_terminates {junk : List Byte} (hj : newline ∉ junk) {tail after : List InItem}
    (h : tail = .byte newline :: after ∨ (tail = after ∧ after.head? = some .endItem)) (r : Running) (s : State)
    (hi : s.input = junk.map .byte ++ tail) :
    skipLine r (junk.map .byte ++ tail) s = (s.setInput after).terminate r.args 1 := by
  rcases h with rfl | ⟨rfl, hend⟩
  · exact skipLine_newline hj r after s
  · obtain ⟨rest, rfl⟩ := List.head?_eq_some_iff.mp hend
    exact skipLine_end hj r rest s hi

section
variable {s : State} {ds : List Nat} (hr : s.ready) (hb : s.args.a.toNat + s.args.len.toNat ≤ s.params.bufWords)
  (hd : ∀ d ∈ ds, d ≤ 9)
include hr hb hd

/-- PARSE takes the digits of a numeral: its record counts them, and its destination holds their value (R221, R223). -/
theorem exec_parse_numeral {tail : List InItem} (hi : s.input = digitItems ds ++ tail) :
    ∃ (m : List Host.Cell) (r : Running), r.args = s.args ∧ r.count = ds.length ∧
      r.trunc = decide (2 ^ (64 * s.args.len.toNat) ≤ numeralValue ds) ∧
      (s.setBufram m).val s.args.a.toNat s.args.len.toNat = numeralValue ds % 2 ^ (64 * s.args.len.toNat) ∧
      exec .parse s
        = .next (parseItems r tail (((s.begin (Running.start .parse s.args)).setBufram m).setInput tail)) := by
  obtain ⟨m, e, hv⟩ := parseRun_digits hd (r := Running.start .parse s.args)
    (s := s.begin (Running.start .parse s.args)) rfl hi
  refine ⟨m, _, rfl, Nat.zero_add _, rfl, ?_, (exec_accepted hr (check_parse hb)).trans (congrArg Host.Outcome.next e)⟩
  rw [State.setInput_val, State.begin_setBufram_val] at hv
  exact hv

/-- PARSE of a whole numeral completes (R223, R225, R231). -/
theorem exec_parse_completes {tail after : List InItem} (hi : s.input = digitItems ds ++ tail)
    (ht : tail = .byte newline :: after ∨ (ds ≠ [] ∧ tail = after ∧ after.head? = some .endItem)) :
    ∃ m, (s.setBufram m).val s.args.a.toNat s.args.len.toNat = numeralValue ds % 2 ^ (64 * s.args.len.toNat) ∧
      exec .parse s
        = .next (parseDone ds.length (decide (2 ^ (64 * s.args.len.toNat) ≤ numeralValue ds))
            ((s.setBufram m).setInput after)) := by
  obtain ⟨m, r, _, hcount, htrunc, hval, e⟩ := exec_parse_numeral hr hb hd hi
  obtain ⟨it, rest, rfl, hmove, rfl⟩ := terminator_completes ht
  rw [parseItems, hcount, hmove, htrunc] at e
  exact ⟨m, hval, e⟩

/-- PARSE of an invalid byte for whose diagnostic the host is ready emits it, skips the line and terminates (R227, R228,
R340). -/
theorem exec_parse_invalid {x : Byte} {junk : List Byte} {tail after : List InItem} (hx : x ≠ newline)
    (hx' : x.toNat < 0x30 ∨ 0x39 < x.toNat) (hj : newline ∉ junk) (hdiag : 21 ≤ s.diagReady)
    (hi : s.input = digitItems ds ++ .byte x :: (junk.map .byte ++ tail))
    (ht : tail = .byte newline :: after ∨ (tail = after ∧ after.head? = some .endItem)) :
    ∃ m, exec .parse s
      = .next (((((s.setBufram m).setInput after).setDiag (s.diag ++ diagnostic x)).setDiagReady
          (s.diagReady - 21)).terminate s.args 1) := by
  obtain ⟨m, r, hargs, _, _, _, e⟩ := exec_parse_numeral hr hb hd hi
  rw [parseItems, parseMove_invalid hx hx'] at e
  dsimp only at e
  rw [diagnose_emitted (by exact hdiag), State.setInput_input, skipLine_terminates hj ht r _ rfl, hargs] at e
  exact ⟨m, e⟩

end

/-- PARSE of `End` before any digit terminates (R225, R340). -/
theorem exec_parse_exhausted {s : State} (hr : s.ready) (hb : s.args.a.toNat + s.args.len.toNat ≤ s.params.bufWords)
    {rest : List InItem} (hi : s.input = .endItem :: rest) :
    ∃ m, exec .parse s = .next ((s.setBufram m).terminate s.args 2) := by
  obtain ⟨m, r, hargs, hcount, _, _, e⟩ := exec_parse_numeral (ds := []) hr hb nofun hi
  rw [parseItems, hcount, parseMove_end, List.length_nil, if_pos rfl, hargs, ← hi] at e
  exact ⟨m, e⟩

/-- Settles O30, from the end state of a PARSE of a whole numeral. -/
theorem parseReadsTheNumeral : Obligations.ParseReadsTheNumeral := by
  intro s ds tail after hr hb hd hi ht
  obtain ⟨m, hval, e⟩ := exec_parse_completes hr hb hd hi ht
  refine ⟨_, e, ?_, lowWord_toNat _, rfl, rfl, rfl⟩
  rw [parseDone, State.complete_val, ← hval]
  exact State.val_congr' rfl rfl

/-- Settles O31: the block terminates, and the bytes of the destination are those of the new occasion. -/
theorem endBeforeADigitTerminates : Obligations.EndBeforeADigitTerminates := by
  intro s rest hr hb hi
  obtain ⟨m, e⟩ := exec_parse_exhausted hr hb hi
  exact ⟨_, e, rfl, fun a h1 h2 => (State.readByte_unspecify ..).trans (if_pos ⟨h1, h2⟩)⟩

/-- Settles O32, from the end state of a PARSE of an invalid byte. -/
theorem invalidByteTerminates : Obligations.InvalidByteTerminates := by
  intro s ds x junk tail after hr hb hd hx hx' hj hdiag hi ht
  obtain ⟨m, e⟩ := exec_parse_invalid hr hb hd hx hx' hj hdiag hi ht
  exact ⟨_, e, rfl⟩

/-! ### The digit buffer -/

/-- A buffer of at most `2 N` words holds a number of at most `DIGCAP` digits (R244). -/
theorem digitCount_val_le {p : Params} (h1 : 1 ≤ p.n) (h2 : p.n ≤ 16383) (s : State) (a : Nat) {n : Nat}
    (hn : n ≤ 2 * p.n) : digitCount (s.val a n) ≤ digcap p := by
  have hpow : 2 ^ (64 * n) ≤ 2 ^ (128 * p.n) := Nat.pow_le_pow_right (by decide) (by omega)
  have hval := (s.val_lt a n).trans_le hpow
  exact (digitCount_le_iff (digcap_pos p)).mpr ((Nat.le_sub_one_of_lt hval).trans_lt (digcap_spec h1 h2).2)

/-- Settles O37: the search for `DIGCAP` ends at 4933 for the default parameters; for every permitted `N` it finds the
digit count of the largest number of `2 N` words. -/
theorem digitBufferIsLargeEnough : Obligations.DigitBufferIsLargeEnough := by
  refine ⟨by decide +kernel, fun p hp => ?_⟩
  simp only [Params.wellFormed, Bool.and_eq_true, decide_eq_true_eq] at hp
  obtain ⟨⟨⟨h1, h2⟩, _⟩, _⟩ := hp
  obtain ⟨hlo, hhi⟩ := digcap_spec h1 h2
  exact ⟨hlo, hhi, fun s a n hn => (decimalBytes_length _).trans_le (digitCount_val_le h1 h2 s a hn)⟩

/-! ### FORMAT -/

/-- The digit count of a buffer fits in `RESULT`, since `LEN` has 16 bits (R36, R240). -/
theorem lowWord_digitCount (s : State) (a : Nat) {n : Nat} (hn : n < 2 ^ 16) :
    (lowWord (digitCount (s.val a n))).toNat = digitCount (s.val a n) := by
  have hten : 2 ^ (64 * n) ≤ 10 ^ (64 * n + 1) := two_pow_le_ten_pow (by omega)
  have hle := (digitCount_le_iff (Nat.succ_pos (64 * n))).mpr ((s.val_lt a n).trans_le hten)
  rw [lowWord_toNat, Nat.mod_eq_of_lt (by omega)]

/-- The newline after the text (R240). -/
theorem State.formatted_outWrite (s : State) (m f : List Host.Cell) (text : List Byte) (b : Byte) :
    (s.formatted m f text).outWrite b = s.formatted m f (text ++ [b]) := by
  simp only [State.formatted, State.outWrite, State.setOutput, State.setOutReady, List.append_assoc, List.length_append,
    List.length_singleton, Nat.sub_sub]

/-- FORMAT with the host ready for every byte completes, its text the digits and the newline of FORMAT.NL (R240, R241,
R246). -/
theorem exec_format_completes {s : State} {nl : Bool} {v : Nat} (hr : s.ready) (hp : s.params.wellFormed = true)
    (hc : check (.format nl) s.args s.params = none) (hv : s.val s.args.a.toNat s.args.len.toNat = v)
    (hready : (decimalBytes v).length + (if nl then 1 else 0) ≤ s.outReady) :
    ∃ m f, (s.formatted m f (decimalBytes v ++ if nl then [newline] else [])).val s.args.a.toNat s.args.len.toNat = 0 ∧
      exec (.format nl) s
        = .next (formatDone (digitCount v) (s.formatted m f (decimalBytes v ++ if nl then [newline] else []))) := by
  obtain ⟨m, f, r, t, ho, _, hn, ht, hz, e⟩ := exec_format hr hp hc hv
  have hdigits : ¬s.outReady < digitCount v := by rw [← decimalBytes_length]; omega
  rw [List.take_of_length_le (by omega)] at ht
  rw [if_neg hdigits, formatTail, ho, hn] at e
  have hval : ∀ text, (s.formatted m f text).val s.args.a.toNat s.args.len.toNat = 0 := fun text => by
    rw [← hz, ht]
    exact State.val_congr' rfl rfl
  refine ⟨m, f, hval _, e.trans (congrArg Host.Outcome.next ?_)⟩
  cases nl with
  | false =>
    rw [ht]
    simp only [Instr.nlBit, Bool.false_eq_true, if_false, List.append_nil]
    rfl
  | true =>
    have hcredit : ¬t.outReady = 0 := by
      rw [ht]
      show ¬s.outReady - (decimalBytes v).length = 0
      simp only [if_true] at hready
      omega
    simp only [Instr.nlBit, if_true]
    rw [if_neg hcredit, ht, State.formatted_outWrite]
    rfl

@[simp] theorem formatDone_val (k : Nat) (s : State) (a n : Nat) : (formatDone k s).val a n = s.val a n :=
  State.val_congr' rfl rfl

/-- Settles O35, from the end state of a FORMAT that the host lets finish. -/
theorem formatWritesTheDecimalText : Obligations.FormatWritesTheDecimalText := by
  intro s nl hr hp hl hb hready
  obtain ⟨m, f, hz, e⟩ := exec_format_completes hr hp (check_format hl hb nl) rfl hready
  refine ⟨_, e, (List.append_assoc ..).symm, (formatDone_val ..).trans hz, ?_, rfl⟩
  rw [decimalBytes_length]
  exact lowWord_digitCount s _ s.args.len.isLt

/-- Settles O38: PARSE leaves the value in the buffer and the block ready, and FORMAT writes its decimal text. -/
theorem formatOfParseIsCanonical : Obligations.FormatOfParseIsCanonical := by
  intro s ds rest hr hp hl hb hd hi hfits hready
  obtain ⟨m, hval, e⟩ := exec_parse_completes hr hb hd hi (.inl rfl)
  rw [Nat.mod_eq_of_lt hfits] at hval
  obtain ⟨_, hfault, hterm⟩ := hr
  set t := parseDone ds.length (decide (2 ^ (64 * s.args.len.toNat) ≤ numeralValue ds)) ((s.setBufram m).setInput rest)
  have hvt : t.val s.args.a.toNat s.args.len.toNat = numeralValue ds := by
    rw [← hval]
    exact State.val_congr' rfl rfl
  obtain ⟨m', f, _, e'⟩ := exec_format_completes (s := t) (nl := false) ⟨rfl, hfault, hterm⟩ hp
    (check_format hl hb false) (by exact hvt) hready
  exact ⟨t, _, e, e', congrArg (s.output ++ ·) (List.append_nil _), rfl⟩

end Sys2Proof.Machine
end

section
/-!
PROOFS. The driver program up to its two PARSE lines (R302, R305): a line whose command may terminate is followed by the
host's test of `TERM`, and a numeral that fails stops the run with the code in `EXIT` (R303, R306, R310).
-/
namespace Sys2Proof.Machine

/-! ### Runs of a host that does nothing beside its program -/

/-- Some number of turns of a host that does nothing beside its program lead from `h` to `h1`. -/
def HostReaches (h h1 : HostRun) : Prop := ∃ k, hostRun (List.replicate k []) h = .next h1

theorem HostReaches.refl (h : HostRun) : HostReaches h h := ⟨0, rfl⟩

theorem HostReaches.trans {h h1 h2 : HostRun} (r1 : HostReaches h h1) (r2 : HostReaches h1 h2) : HostReaches h h2 := by
  obtain ⟨k1, e1⟩ := r1
  obtain ⟨k2, e2⟩ := r2
  exact ⟨k1 + k2, by rw [List.replicate_add, hostRun_append e1, e2]⟩

theorem HostReaches.head {h h1 h2 : HostRun} (ht : hostTurn h = .next h1) (r : HostReaches h1 h2) :
    HostReaches h h2 := HostReaches.trans ⟨1, hostRun_turn ht 0⟩ r

/-! ### Turns of the program -/

/-- The block after the host has read the value `v` from it. -/
def State.answered (s : State) (v : Word) : State := (s.setAgenda []).setReply (.data v)

theorem hostTurn_readStatus (s : State) (rest : List HostOp) (e : Option Byte) :
    hostTurn { ops := .access (readReg s.params.mmioBase .status) :: rest, exit := e, block := s }
      = .next { ops := rest, exit := e, block := s.answered s.status.word } := by
  refine hostTurn_access ((hostDoes_eq ..).symm.trans ?_) rest e
  exact (registerReads (s.setAgenda [.now (readReg s.params.mmioBase .status)]) 0x008 rfl).1 rfl

theorem hostTurn_readExit (s : State) (rest : List HostOp) (e : Option Byte) :
    hostTurn { ops := .access (readReg s.params.mmioBase .exit) :: rest, exit := e, block := s }
      = .next { ops := rest, exit := e, block := s.answered (s.exit.setWidth 64) } := by
  refine hostTurn_access (t := s.answered (s.exit.setWidth 64)) ((hostDoes_eq ..).symm.trans ?_) rest e
  exact step_read_register (s := s.setAgenda [.now (readReg s.params.mmioBase .exit)]) rfl (by decide) (by decide) rfl
    rfl

/-- The program stops with the code read from `EXIT` (R302). -/
theorem hostTurn_stopWithExit (s : State) (rest : List HostOp) (e : Option Byte) :
    hostTurn { ops := .stopWithExit :: rest, exit := e, block := s.answered (s.exit.setWidth 64) }
      = .next { ops := [], exit := some s.exit, block := s.answered (s.exit.setWidth 64) } := by
  have hcode : (s.answered (s.exit.setWidth 64)).reply.lowByte = s.exit :=
    (BitVec.setWidth_setWidth_of_le _ (by decide)).trans (BitVec.setWidth_eq _)
  simp only [hostTurn, hcode]

/-- After `RD STATUS` the program goes on while `TERM` is 0 (R302). -/
theorem hostTurn_stopIfTerm_no {s : State} (h : s.status.term = false) (rest : List HostOp) (e : Option Byte) :
    hostTurn { ops := .stopIfTerm :: rest, exit := e, block := s.answered s.status.word }
      = .next { ops := rest, exit := e, block := s.answered s.status.word } := by
  have hbit : (s.answered s.status.word).reply.bit 3 = false := (Reply.bit_term _).trans h
  simp only [hostTurn, hbit, Bool.false_eq_true, if_false]

/-- After `RD STATUS` the program stops with `EXIT.CODE` where `TERM` is 1 (R302). -/
theorem stopIfTerm_reaches {s : State} (h : s.status.term = true) (rest : List HostOp) (e : Option Byte) :
    HostReaches { ops := .stopIfTerm :: rest, exit := e, block := s.answered s.status.word }
      { ops := [], exit := some s.exit, block := s.answered (s.exit.setWidth 64) } := by
  have hbit : (s.answered s.status.word).reply.bit 3 = true := (Reply.bit_term _).trans h
  have hstop : hostTurn { ops := .stopIfTerm :: rest, exit := e, block := s.answered s.status.word }
      = .next { ops := [.access (readReg s.params.mmioBase .exit), .stopWithExit], exit := e,
                block := s.answered s.status.word } := by
    simp only [hostTurn, hbit, if_true]
    rfl
  exact .head hstop (.head (hostTurn_readExit (s.answered s.status.word) _ _)
    (.head (hostTurn_stopWithExit s [] e) (.refl _)))

/-! ### A line whose command may terminate -/

/-- The block as the `CMD` write of line `c` finds it (R108). -/
def State.atLine (s : State) (c : CommandLine) : State := s.acked.setArgs (c.args s.args)

/-- A command line with its WAIT, and the test of `TERM` (R302). -/
def checkedLine (c : CommandLine) : List HostLine := [.command c, .rd .status, .stopIfTerm]

/-- A command keeps the parameters (R8). -/
theorem exec_params {i : Instr} {s t : State} (h : exec i s = .next t) : t.params = s.params := by
  rw [exec_eq] at h
  injection h with h
  rw [← h]
  refine command_params (fun r u hr => ?_) s
  obtain ⟨w, hw, he⟩ := runBody_effect i r hr u
  exact he.params_eq.trans hw.params_eq

section
variable {c : CommandLine} {s t : State} (hb : s.status.busy = false) (hc : exec c.instr (s.atLine c) = .next t)
  (ht : t.status.busy = false) (rest : List HostOp) (e : Option Byte)
include hb hc ht

/-- A command line whose command is not held runs its command and waits for it (R108, R109). -/
theorem commandLine_reaches :
    HostReaches { ops := (HostLine.command c).expand s.params.mmioBase ++ rest, exit := e, block := s }
      { ops := rest, exit := e, block := t.answered t.status.word } := by
  have hbit : (t.answered t.status.word).reply.bit 0 = false := (Reply.bit_busy _).trans ht
  rw [HostLine.expand, List.append_assoc]
  exact .trans ⟨_, commandLineRunsItsCommand c s t _ e hb hc⟩
    (.head (hostTurn_wait t rest e) (.head (hostTurn_waitCheck_idle hbit rest e) (.refl _)))

/-- A checked line up to the host's decision. -/
theorem checkedLine_decides :
    HostReaches { ops := assemble s.params.mmioBase (checkedLine c) ++ rest, exit := e, block := s }
      { ops := .stopIfTerm :: rest, exit := e, block := t.answered t.status.word } := by
  have hbase : t.params.mmioBase = s.params.mmioBase := by rw [exec_params hc]; rfl
  have hops : assemble s.params.mmioBase (checkedLine c) ++ rest = (HostLine.command c).expand s.params.mmioBase
      ++ .access (readReg t.params.mmioBase .status) :: .stopIfTerm :: rest := by
    rw [hbase]
    simp [assemble, checkedLine, HostLine.expand]
  rw [hops]
  exact (commandLine_reaches hb hc ht _ e).trans
    (.head (hostTurn_readStatus (t.answered t.status.word) _ e) (.refl _))

theorem checkedLine_goes_on (hterm : t.status.term = false) :
    HostReaches { ops := assemble s.params.mmioBase (checkedLine c) ++ rest, exit := e, block := s }
      { ops := rest, exit := e, block := t.answered t.status.word } :=
  (checkedLine_decides hb hc ht rest e).trans (.head (hostTurn_stopIfTerm_no hterm rest e) (.refl _))

theorem checkedLine_stops (hterm : t.status.term = true) :
    HostReaches { ops := assemble s.params.mmioBase (checkedLine c) ++ rest, exit := e, block := s }
      { ops := [], exit := some t.exit, block := t.answered (t.exit.setWidth 64) } :=
  (checkedLine_decides hb hc ht rest e).trans (stopIfTerm_reaches hterm rest e)

end

/-! ### PARSE in the driver -/

/-- `u` is a ready block of the build of `s` and with its streams, but for `items` in `IN`. -/
structure ReadyWith (s : State) (items : List InItem) (u : State) : Prop where
  ready : u.ready
  params : u.params = s.params
  input : u.input = items
  output : u.output = s.output
  diag : u.diag = s.diag
  diagReady : u.diagReady = s.diagReady

/-- `t` is terminated with exit code `code`, with nothing emitted on `OUT` after `s` (R340). -/
structure TerminatedWith (s : State) (code : Byte) (diag : List Byte) (input : List InItem) (t : State) : Prop where
  idle : t.status.busy = false
  noFault : t.status.fault = false
  term : t.status.term = true
  exit : t.exit = code
  output : t.output = s.output
  diag : t.diag = diag
  input : t.input = input

/-- With `items` in `IN`, PARSE terminates the block, whatever its destination (R225, R227). -/
def ParseTerminates (s : State) (items : List InItem) (code : Byte) (diag : List Byte) (input : List InItem) : Prop :=
  ∀ u, ReadyWith s items u → u.args.a.toNat + u.args.len.toNat ≤ u.params.bufWords →
    ∃ t, exec .parse u = .next t ∧ TerminatedWith s code diag input t

theorem parseTerminates_end (s : State) (rest : List InItem) :
    ParseTerminates s (.endItem :: rest) 2 s.diag (.endItem :: rest) := by
  intro u hu hb
  obtain ⟨m, e⟩ := exec_parse_exhausted hu.ready hb hu.input
  exact ⟨_, e, rfl, hu.ready.2.1, rfl, rfl, hu.output, hu.diag, hu.input⟩

theorem parseTerminates_invalid {s : State} {ds : List Nat} {x : Byte} {junk : List Byte} {tail after : List InItem}
    (hd : ∀ d ∈ ds, d ≤ 9) (hx : x ≠ newline) (hx' : x.toNat < 0x30 ∨ 0x39 < x.toNat) (hj : newline ∉ junk)
    (hdiag : 21 ≤ s.diagReady)
    (ht : tail = .byte newline :: after ∨ (tail = after ∧ after.head? = some .endItem)) :
    ParseTerminates s (digitItems ds ++ .byte x :: (junk.map .byte ++ tail)) 1 (s.diag ++ diagnostic x) after := by
  intro u hu hb
  obtain ⟨m, e⟩ := exec_parse_invalid hu.ready hb hd hx hx' hj (hu.diagReady ▸ hdiag) hu.input ht
  exact ⟨_, e, rfl, hu.ready.2.1, rfl, rfl, hu.output, congrArg (· ++ diagnostic x) hu.diag, rfl⟩

/-- How the statement says that a run from `h` stops with `code`, nothing being emitted on `OUT` after `s` (R306,
R310). -/
def StopsWith (h : HostRun) (s : State) (code : Byte) (diag : List Byte) (input : List InItem) : Prop :=
  ∃ k h1, hostRun (List.replicate k []) h = .next h1 ∧ h1.ops = [] ∧ h1.exit = some code ∧
    h1.ended = some (.terminated code) ∧ h1.block.output = s.output ∧ h1.block.diag = diag ∧ h1.block.input = input

theorem StopsWith.of_reaches {h h1 : HostRun} {s : State} {code : Byte} {diag : List Byte} {input : List InItem}
    (r : HostReaches h h1) (hs : StopsWith h1 s code diag input) : StopsWith h s code diag input := by
  obtain ⟨k, h2, e, hend⟩ := hs
  obtain ⟨k', e'⟩ := r.trans ⟨k, e⟩
  exact ⟨k', h2, e', hend⟩

section
variable {s u : State} {items after : List InItem} {code : Byte} {diag : List Byte} {a n : Half}

theorem ReadyWith.atLine (h : ReadyWith s items u) (c : CommandLine) : ReadyWith s items (u.atLine c) :=
  ⟨h.ready, h.params, h.input, h.output, h.diag, h.diagReady⟩

theorem ReadyWith.answered (h : ReadyWith s items u) (v : Word) : ReadyWith s items (u.answered v) :=
  ⟨h.ready, h.params, h.input, h.output, h.diag, h.diagReady⟩

/-- A PARSE that completes leaves the block ready. -/
theorem ReadyWith.parsed (h : ReadyWith s items u) (m : List Host.Cell) (after : List InItem) (k : Nat) (f : Bool) :
    ReadyWith s after (parseDone k f ((u.setBufram m).setInput after)) := by
  obtain ⟨_, hfault, hterm⟩ := h.ready
  exact ⟨⟨rfl, hfault, hterm⟩, h.params, rfl, h.output, h.diag, h.diagReady⟩

/-- A checked PARSE line stops the run where PARSE terminates (R303). -/
theorem parseLine_stops (hf : ParseTerminates s items code diag after) (hu : ReadyWith s items u)
    (hb : a.toNat + n.toNat ≤ s.params.bufWords) (rest : List HostOp) (e : Option Byte) :
    StopsWith { ops := assemble s.params.mmioBase (checkedLine (.parse a n)) ++ rest, exit := e, block := u }
      s code diag after := by
  have hline := hu.atLine (.parse a n)
  obtain ⟨t, hc, ht⟩ := hf _ hline (by rw [hline.params]; exact hb)
  obtain ⟨k, hk⟩ := checkedLine_stops (c := .parse a n) hu.ready.1 hc ht.idle rest e ht.term
  rw [hu.params] at hk
  refine ⟨k, _, hk, rfl, congrArg some ht.exit, ?_, ht.output, ht.diag, ht.input⟩
  have hfault : (t.answered (t.exit.setWidth 64)).status.fault = false := ht.noFault
  have hterm : (t.answered (t.exit.setWidth 64)).status.term = true := ht.term
  simp only [HostRun.ended, hfault, hterm, Bool.false_eq_true, if_false, if_true]
  exact congrArg (some ∘ RunEnd.terminated) ht.exit

/-- A checked PARSE line goes on after a whole numeral, which it takes from `IN` (R303). -/
theorem parseLine_goes_on {ds : List Nat} {tail : List InItem} (hu : ReadyWith s (digitItems ds ++ tail) u)
    (hb : a.toNat + n.toNat ≤ s.params.bufWords) (hd : ∀ d ∈ ds, d ≤ 9)
    (ht : tail = .byte newline :: after ∨ (ds ≠ [] ∧ tail = after ∧ after.head? = some .endItem))
    (rest : List HostOp) (e : Option Byte) :
    ∃ u', ReadyWith s after u' ∧
      HostReaches { ops := assemble s.params.mmioBase (checkedLine (.parse a n)) ++ rest, exit := e, block := u }
        { ops := rest, exit := e, block := u' } := by
  have hline := hu.atLine (.parse a n)
  obtain ⟨m, _, hc⟩ := exec_parse_completes hline.ready (by rw [hline.params]; exact hb) hd hline.input ht
  have hdone := hline.parsed m after ds.length (decide (2 ^ (64 * n.toNat) ≤ numeralValue ds))
  obtain ⟨hbusy, _, hterm⟩ := hdone.ready
  have hgo := checkedLine_goes_on (c := .parse a n) hu.ready.1 hc hbusy rest e hterm
  rw [hu.params] at hgo
  exact ⟨_, hdone.answered _, hgo⟩

end

/-! ### The driver -/

/-- The driver's lines after the two PARSE lines (R302). -/
def driverProduct (p : Params) : List HostLine :=
  let n : Half := BitVec.ofNat 16 p.n
  let n2 : Half := BitVec.ofNat 16 (2 * p.n)
  [.command (.mulLong n2 0 n n), .command (.formatNl n2 n2), .stop 0]

theorem driver_eq (p : Params) :
    driver p = checkedLine (.parse 0 (BitVec.ofNat 16 p.n))
      ++ (checkedLine (.parse (BitVec.ofNat 16 p.n) (BitVec.ofNat 16 p.n)) ++ driverProduct p) := rfl

theorem assemble_append (base : Nat) (l l' : List HostLine) :
    assemble base (l ++ l') = assemble base l ++ assemble base l' := List.flatMap_append

/-- The destinations of the two PARSE lines are in bounds (R301, R8). -/
theorem driver_bounds {p : Params} (h : p.wellFormed = true) :
    (0 : Half).toNat + (BitVec.ofNat 16 p.n : Half).toNat ≤ p.bufWords ∧
    (BitVec.ofNat 16 p.n : Half).toNat + (BitVec.ofNat 16 p.n : Half).toNat ≤ p.bufWords := by
  simp only [Params.wellFormed, Bool.and_eq_true, decide_eq_true_eq] at h
  obtain ⟨⟨⟨_, hn⟩, hb⟩, _⟩ := h
  have hsize : (BitVec.ofNat 16 p.n : Half).toNat = p.n := by
    rw [BitVec.toNat_ofNat, Nat.mod_eq_of_lt (by omega)]
  have hzero : (0 : Half).toNat = 0 := rfl
  omega

section
variable {s : State} (hr : s.ready) (hp : s.params.wellFormed = true) {items after : List InItem} {code : Byte}
  {diag : List Byte}
include hr hp

/-- A multiplicand that fails stops the driver (R303). -/
theorem driver_stops_at_first (hf : ParseTerminates s items code diag after) (hi : s.input = items) :
    StopsWith (driverStart s) s code diag after := by
  rw [driverStart, driver_eq, assemble_append]
  exact parseLine_stops hf ⟨hr, rfl, hi, rfl, rfl, rfl⟩ (driver_bounds hp).1 _ _

/-- A multiplier that fails after a whole multiplicand stops the driver (R303). -/
theorem driver_stops_at_second (hf : ParseTerminates s items code diag after) {xs : List Nat} {tail : List InItem}
    (hd : ∀ d ∈ xs, d ≤ 9) (hi : s.input = digitItems xs ++ tail)
    (ht : tail = .byte newline :: items ∨ (xs ≠ [] ∧ tail = items ∧ items.head? = some .endItem)) :
    StopsWith (driverStart s) s code diag after := by
  obtain ⟨hb1, hb2⟩ := driver_bounds hp
  rw [driverStart, driver_eq, assemble_append, assemble_append]
  obtain ⟨u, hu, hgo⟩ := parseLine_goes_on ⟨hr, rfl, hi, rfl, rfl, rfl⟩ hb1 hd ht _ _
  exact .of_reaches hgo (parseLine_stops hf hu hb2 _ _)

/-- A numeral that fails stops the driver as the multiplicand, and as the multiplier after a line of digits (R303,
R305). -/
theorem driver_stops (hf : ParseTerminates s items code diag after) {before : List InItem} {xs : List Nat}
    (hd : ∀ d ∈ xs, d ≤ 9) (hbefore : before = [] ∨ before = digitItems xs ++ [.byte newline])
    (hi : s.input = before ++ items) : StopsWith (driverStart s) s code diag after := by
  rcases hbefore with rfl | rfl
  · exact driver_stops_at_first hr hp hf hi
  · rw [List.append_assoc] at hi
    exact driver_stops_at_second hr hp hf hd hi (.inl rfl)

end

/-- Settles O60: each of these numerals makes its PARSE terminate. Digits before `End` are a whole multiplicand, and the
`End` that stays fails as the multiplier. -/
theorem driverStopsOnInputErrors : Obligations.DriverStopsOnInputErrors := by
  intro s before xs ds hr hp hxs hds hbefore stops
  refine ⟨fun rest hi => ?_, fun rest hi => ?_, fun x junk tail after hx hx' hj hdiag hi ht => ?_⟩
  · exact driver_stops hr hp (parseTerminates_end s rest) hxs hbefore hi
  · by_cases hnone : ds = []
    · exact driver_stops_at_first hr hp (parseTerminates_end s rest) (by rw [hi, hnone]; rfl)
    · exact driver_stops_at_second hr hp (parseTerminates_end s rest) hds hi (.inr ⟨hnone, rfl, rfl⟩)
  · exact driver_stops hr hp (parseTerminates_invalid hds hx hx' hj hdiag ht) hxs hbefore hi

end Sys2Proof.Machine
end

section
/-!
PROOFS. The buffer utilities: IS_ZERO tests its buffer and writes no word (R271), COPY copies the words of its source
(R275), and ZERO_FILL clears its buffer (R280).
-/
namespace Sys2Proof.Machine

/-! ### Words and numbers -/

@[simp] theorem State.begin_readWord (s : State) (r : Running) (k : Nat) : (s.begin r).readWord k = s.readWord k :=
  State.readWord_congr' rfl rfl k

@[simp] theorem State.begin_setBufram_readWord (s : State) (r : Running) (m : List Host.Cell) (k : Nat) :
    ((s.begin r).setBufram m).readWord k = (s.setBufram m).readWord k :=
  State.readWord_congr' rfl rfl k

@[simp] theorem State.complete_readWord (s : State) (v : Word) (f z : Bool) (k : Nat) :
    (s.complete v f z).readWord k = s.readWord k :=
  State.readWord_congr' rfl rfl k

/-- Two buffers of the same words, at any two places, hold the same number (R12). -/
theorem State.val_eq_of_readWord {s t : State} {a b n : Nat}
    (h : ∀ k, k < n → t.readWord (a + k) = s.readWord (b + k)) : t.val a n = s.val b n := by
  induction n generalizing a b with
  | zero => rfl
  | succ n ih =>
    have hrest : t.val (a + 1) n = s.val (b + 1) n := ih fun k hk => by
      simpa only [Nat.add_assoc, Nat.add_comm 1] using h (k + 1) (by omega)
    have hfirst : t.readWord a = s.readWord b := h 0 n.succ_pos
    rw [State.val, State.val, hfirst, hrest]

/-! ### What each command leaves -/

/-- The arguments of COPY pass when its two ranges are in bounds and apart (R120, R276). -/
theorem check_copy {x : Args} {p : Params} (ha : x.a.toNat + x.len.toNat ≤ p.bufWords)
    (hb : x.b.toNat + x.len.toNat ≤ p.bufWords) (hab : apart x.a.toNat x.len.toNat x.b.toNat x.len.toNat) :
    check .copy x p = none := by
  rw [check_eq_none_iff]
  simp only [← Bool.not_eq_true, boundsFails_iff, aliasFails_iff]
  exact ⟨nofun, by simp [ha, hb], by simp [hab], nofun⟩

/-- COPY completes; its destination holds the source words, and every other word is as it was (R275). -/
theorem exec_copy {s : State} (hr : s.ready) (ha : s.args.a.toNat + s.args.len.toNat ≤ s.params.bufWords)
    (hb : s.args.b.toNat + s.args.len.toNat ≤ s.params.bufWords)
    (hab : apart s.args.a.toNat s.args.len.toNat s.args.b.toNat s.args.len.toNat) :
    ∃ m, exec .copy s = .next ((s.setBufram m).complete 0 false false) ∧
      ∀ k, (s.setBufram m).readWord k
        = if s.args.a.toNat ≤ k ∧ k < s.args.a.toNat + s.args.len.toNat
          then s.readWord (s.args.b.toNat + (k - s.args.a.toNat)) else s.readWord k := by
  obtain ⟨c, m, hloop, he⟩ := exec_oneLoop (word := copyArgsWord) hr (check_copy ha hb hab) rfl
    fun k c u => ⟨_, State.writeWord_eq u _ _⟩
  refine ⟨m, he, fun k => ?_⟩
  have hwords := forWords_copyWord (dst := s.args.a.toNat) (src := s.args.b.toNat) (n := s.args.len.toNat) (i := 0)
    (by unfold apart at hab; omega) 0 (s.begin (Running.start .copy s.args)) k
  rw [show forWords (copyWord s.args.a.toNat s.args.b.toNat) _ 0 0 _ = _ from hloop] at hwords
  simpa only [Nat.add_zero, State.begin_readWord, State.begin_setBufram_readWord] using hwords

/-- ZERO_FILL completes; every word of its range is 0, whatever it held (R280). -/
theorem exec_zeroFill {s : State} (hr : s.ready) (ha : s.args.a.toNat + s.args.len.toNat ≤ s.params.bufWords) :
    ∃ m, exec .zeroFill s = .next ((s.setBufram m).complete 0 false false) ∧
      (s.setBufram m).val s.args.a.toNat s.args.len.toNat = 0 := by
  obtain ⟨c, m, hloop, he⟩ := exec_oneLoop (i := .zeroFill) (word := zeroFillWord) hr
    (check_oneRange (by decide) ha nofun) rfl fun k c u => ⟨_, State.writeWord_eq u _ _⟩
  refine ⟨m, he, (State.val_eq_zero_iff ..).mpr fun k hlo hhi => ?_⟩
  have hword := forWords_zeroWord s.args.a.toNat s.args.len.toNat 0 0 (s.begin (Running.start .zeroFill s.args)) k
  rwa [show forWords (zeroWord s.args.a.toNat) _ 0 0 _ = _ from hloop, Nat.add_zero, if_pos ⟨hlo, hhi⟩,
    State.begin_setBufram_readWord] at hword

/-! ### The obligations -/

/-- Settles O27: the loop only tests words, and the flag it ends with is the result and `ZERO`. -/
theorem isZeroTestsTheBuffer : Obligations.IsZeroTestsTheBuffer := by
  intro s hr ha
  refine ⟨_, exec_isZero hr ha, ?_⟩
  by_cases hz : s.val s.args.a.toNat s.args.len.toNat = 0
  · rw [if_pos hz]
    exact ⟨rfl, iff_of_true rfl hz, .inr rfl, by rw [decide_eq_true hz]; rfl⟩
  · rw [if_neg hz]
    exact ⟨rfl, iff_of_false (by decide : (0 : Word) ≠ 1) hz, .inl rfl, by rw [decide_eq_false hz]; rfl⟩

/-- Settles O28: a destination word is the source word at its offset, and the source is apart from the words written. -/
theorem copyCopiesTheWords : Obligations.CopyCopiesTheWords := by
  intro s hr ha hb hab
  obtain ⟨m, he, hwords⟩ := exec_copy hr ha hb hab
  have hdst : ∀ k, k < s.args.len.toNat →
      ((s.setBufram m).complete 0 false false).readWord (s.args.a.toNat + k) = s.readWord (s.args.b.toNat + k) :=
    fun k hk => by rw [State.complete_readWord, hwords, if_pos (by omega), Nat.add_sub_cancel_left]
  have hsrc : ∀ k, k < s.args.len.toNat →
      ((s.setBufram m).complete 0 false false).readWord (s.args.b.toNat + k) = s.readWord (s.args.b.toNat + k) :=
    fun k hk => by rw [State.complete_readWord, hwords, if_neg (by unfold apart at hab; omega)]
  exact ⟨_, he, fun k hk => ⟨hdst k hk, hsrc k hk⟩, State.val_eq_of_readWord hdst, rfl, rfl⟩

/-- Settles O29: every word of the range is cleared. -/
theorem zeroFillClearsTheBuffer : Obligations.ZeroFillClearsTheBuffer := by
  intro s hr ha
  obtain ⟨m, he, hzero⟩ := exec_zeroFill hr ha
  exact ⟨_, he, (State.complete_val ..).trans hzero, rfl, rfl⟩

end Sys2Proof.Machine
end

section
/-!
PROOFS. The driver program over two whole numerals (R302, R304, R308): what each of its command lines leaves in `BUFRAM`
and in the streams, and the end of its run in success (R310).
-/
namespace Sys2Proof.Machine

/-! ### The block between two lines -/

/-- `u` is as `ReadyWith` says, and the host is as ready for `OUT` bytes as at `s` (R91). -/
structure AcceptingWith (s : State) (items : List InItem) (u : State) : Prop extends ReadyWith s items u where
  outReady : u.outReady = s.outReady

/-- A command that completes leaves the block ready, with `DONE` = 1 (R123). -/
theorem completed_ready {s t : State} {f z : Bool} (hr : s.ready) (ht : t.status = s.status.completed f z) :
    t.ready ∧ t.status.done = true := by
  obtain ⟨_, hfault, hterm⟩ := hr
  rw [State.ready, ht]
  exact ⟨⟨rfl, hfault, hterm⟩, rfl⟩

section
variable {s u : State} {items after : List InItem} {a b p n : Half}

theorem AcceptingWith.atLine (h : AcceptingWith s items u) (c : CommandLine) : AcceptingWith s items (u.atLine c) :=
  ⟨h.toReadyWith.atLine c, h.outReady⟩

theorem AcceptingWith.answered (h : AcceptingWith s items u) (v : Word) : AcceptingWith s items (u.answered v) :=
  ⟨h.toReadyWith.answered v, h.outReady⟩

@[simp] theorem State.atLine_val (u : State) (c : CommandLine) (k m : Nat) : (u.atLine c).val k m = u.val k m :=
  State.val_congr' rfl rfl

@[simp] theorem State.answered_val (u : State) (v : Word) (k m : Nat) : (u.answered v).val k m = u.val k m :=
  State.val_congr' rfl rfl

/-! ### The lines of the driver -/

/-- A checked PARSE line over a whole numeral stores its value, keeps every buffer apart from its destination, and goes
on (R223, R303). -/
theorem parseLine_stores {ds : List Nat} {tail : List InItem} (hu : AcceptingWith s (digitItems ds ++ tail) u)
    (hb : a.toNat + n.toNat ≤ s.params.bufWords) (hd : ∀ d ∈ ds, d ≤ 9)
    (ht : tail = .byte newline :: after ∨ (ds ≠ [] ∧ tail = after ∧ after.head? = some .endItem))
    (rest : List HostOp) (e : Option Byte) :
    ∃ u', AcceptingWith s after u' ∧ u'.val a.toNat n.toNat = numeralValue ds % 2 ^ (64 * n.toNat) ∧
      (∀ k m, apart a.toNat n.toNat k m → u'.val k m = u.val k m) ∧
      HostReaches { ops := assemble s.params.mmioBase (checkedLine (.parse a n)) ++ rest, exit := e, block := u }
        { ops := rest, exit := e, block := u' } := by
  have hline := hu.atLine (.parse a n)
  obtain ⟨m, hval, hc⟩ := exec_parse_completes hline.ready (by rw [hline.params]; exact hb) hd hline.input ht
  obtain ⟨_, _, hterm⟩ := hline.ready
  have hgo := checkedLine_goes_on (c := .parse a n) hu.ready.1 hc rfl rest e hterm
  rw [hu.params] at hgo
  refine ⟨_, ⟨(hline.toReadyWith.parsed m after ds.length _).answered _, hline.outReady⟩, ?_, fun k l hapart => ?_, hgo⟩
  · rw [State.answered_val, parseDone, State.complete_val, State.setInput_val]
    exact hval
  · rw [State.answered_val, exec_val_of_apart hc hapart, State.atLine_val]

/-- A MUL_LONG line leaves the product of its factors in its product range and the streams as they were (R191, R304). -/
theorem mulLongLine_multiplies (hu : AcceptingWith s items u) (hlen : n.toNat ≤ s.params.n)
    (ha : a.toNat + n.toNat ≤ s.params.bufWords) (hb : b.toNat + n.toNat ≤ s.params.bufWords)
    (hp : p.toNat + 2 * n.toNat ≤ s.params.bufWords) (hpa : apart p.toNat (2 * n.toNat) a.toNat n.toNat)
    (hpb : apart p.toNat (2 * n.toNat) b.toNat n.toNat) (rest : List HostOp) (e : Option Byte) :
    ∃ u', AcceptingWith s items u' ∧
      u'.val p.toNat (2 * n.toNat) = u.val a.toNat n.toNat * u.val b.toNat n.toNat ∧
      HostReaches
        { ops := (HostLine.command (.mulLong p a b n)).expand s.params.mmioBase ++ rest, exit := e, block := u }
        { ops := rest, exit := e, block := u' } := by
  have hline := hu.atLine (.mulLong p a b n)
  rw [← hline.params] at hlen ha hb hp
  obtain ⟨t, hc, hprod, _, _, _, hstatus⟩ := mulLongMultipliesTheBuffers _ hline.ready hlen ha hb hp hpa hpb
  obtain ⟨hready, _⟩ := completed_ready hline.ready hstatus
  obtain ⟨hframe, _⟩ := mulLongFrame _ t hc
  have hdone : AcceptingWith s items t :=
    { ready := hready
      params := (exec_params hc).trans hline.params
      input := (congrArg State.input hframe).trans hline.input
      output := (congrArg State.output hframe).trans hline.output
      diag := (congrArg State.diag hframe).trans hline.diag
      diagReady := (congrArg State.diagReady hframe).trans hline.diagReady
      outReady := (congrArg State.outReady hframe).trans hline.outReady }
  have hgo := commandLine_reaches (c := .mulLong p a b n) hu.ready.1 hc hready.1 rest e
  rw [hu.params] at hgo
  rw [State.atLine_val, State.atLine_val] at hprod
  exact ⟨_, hdone.answered _, (State.answered_val ..).trans hprod, hgo⟩

/-- A FORMAT.NL line for whose text the host is ready writes the decimal text of its buffer and a newline, leaves `DIAG`
and `IN` as they were, and completes (R241, R304). -/
theorem formatNlLine_writes (hu : AcceptingWith s items u) (hp : s.params.wellFormed = true)
    (hlen : n.toNat ≤ 2 * s.params.n) (hb : a.toNat + n.toNat ≤ s.params.bufWords)
    (hready : (decimalBytes (u.val a.toNat n.toNat)).length + 1 ≤ s.outReady) (rest : List HostOp) (e : Option Byte) :
    ∃ u', u'.ready ∧ u'.status.done = true ∧
      u'.output = s.output ++ decimalBytes (u.val a.toNat n.toNat) ++ [newline] ∧ u'.diag = s.diag ∧
      u'.input = items ∧
      HostReaches { ops := (HostLine.command (.formatNl a n)).expand s.params.mmioBase ++ rest, exit := e, block := u }
        { ops := rest, exit := e, block := u' } := by
  have hline := hu.atLine (.formatNl a n)
  rw [← hline.params] at hp hlen hb
  rw [← hline.outReady, ← State.atLine_val u (.formatNl a n)] at hready
  obtain ⟨t, hc, hout, _, _, hstatus⟩ := formatWritesTheDecimalText _ true hline.ready hp hlen hb hready
  obtain ⟨ht, hdone⟩ := completed_ready hline.ready hstatus
  obtain ⟨hframe, _⟩ := formatFrame true _ t hc
  have hgo := commandLine_reaches (c := .formatNl a n) hu.ready.1 hc ht.1 rest e
  rw [hu.params] at hgo
  refine ⟨t.answered t.status.word, ht, hdone, ?_, (congrArg State.diag hframe).trans hline.diag,
    (congrArg State.input hframe).trans hline.input, hgo⟩
  rw [← hline.output, ← State.atLine_val u (.formatNl a n)]
  exact hout

end

/-! ### The driver -/

/-- The operands of the driver's lines are `N` and `2 N`, and its four buffers are in bounds (R301, R8). -/
theorem driver_layout {p : Params} (h : p.wellFormed = true) :
    (BitVec.ofNat 16 p.n : Half).toNat = p.n ∧ (BitVec.ofNat 16 (2 * p.n) : Half).toNat = 2 * p.n ∧
      4 * p.n ≤ p.bufWords := by
  simp only [Params.wellFormed, Bool.and_eq_true, decide_eq_true_eq] at h
  obtain ⟨⟨⟨_, hn⟩, hb⟩, _⟩ := h
  rw [BitVec.toNat_ofNat, BitVec.toNat_ofNat, Nat.mod_eq_of_lt (by omega), Nat.mod_eq_of_lt (by omega)]
  exact ⟨rfl, rfl, hb⟩

theorem assemble_driverProduct (base : Nat) (p : Params) :
    assemble base (driverProduct p)
      = (HostLine.command (.mulLong (.ofNat 16 (2 * p.n)) 0 (.ofNat 16 p.n) (.ofNat 16 p.n))).expand base
        ++ ((HostLine.command (.formatNl (.ofNat 16 (2 * p.n)) (.ofNat 16 (2 * p.n)))).expand base ++ [.stop 0]) := rfl

/-- The two PARSE lines of the driver store the multiplicand in word 0 and the multiplier in word `N` (R301, R303). -/
theorem driver_parses {s : State} (hr : s.ready) (hp : s.params.wellFormed = true) {xs ys : List Nat}
    (hxs : ∀ d ∈ xs, d ≤ 9) (hys : ∀ d ∈ ys, d ≤ 9) {tail after : List InItem}
    (hi : s.input = digitItems xs ++ .byte newline :: (digitItems ys ++ tail))
    (ht : tail = .byte newline :: after ∨ (ys ≠ [] ∧ tail = after ∧ after.head? = some .endItem)) :
    ∃ u, AcceptingWith s after u ∧ u.val 0 s.params.n = numeralValue xs % 2 ^ (64 * s.params.n) ∧
      u.val s.params.n s.params.n = numeralValue ys % 2 ^ (64 * s.params.n) ∧
      HostReaches (driverStart s)
        { ops := assemble s.params.mmioBase (driverProduct s.params), exit := none, block := u } := by
  obtain ⟨hn, _, _⟩ := driver_layout hp
  obtain ⟨hb1, hb2⟩ := driver_bounds hp
  rw [driverStart, driver_eq, assemble_append, assemble_append]
  obtain ⟨u1, hu1, hx, _, hgo1⟩ := parseLine_stores ⟨⟨hr, rfl, hi, rfl, rfl, rfl⟩, rfl⟩ hb1 hxs (.inl rfl) _ _
  obtain ⟨u2, hu2, hy, hkeep, hgo2⟩ := parseLine_stores hu1 hb2 hys ht _ _
  rw [hn] at hx hy hkeep
  exact ⟨u2, hu2, (hkeep 0 s.params.n (.inr (.inr (.inr (Nat.zero_add _).le)))).trans hx, hy, hgo1.trans hgo2⟩

/-- From two factors in `BUFRAM` the rest of the driver writes the decimal text of their product and a newline, and
stops with exit code 0 (R304, R306). -/
theorem driverProduct_writes {s u : State} {items : List InItem} (hp : s.params.wellFormed = true)
    (hu : AcceptingWith s items u) {v : Nat} (hv : u.val 0 s.params.n * u.val s.params.n s.params.n = v)
    (hready : (decimalBytes v).length + 1 ≤ s.outReady) :
    ∃ t, t.ready ∧ t.status.done = true ∧ t.output = s.output ++ decimalBytes v ++ [newline] ∧ t.diag = s.diag ∧
      t.input = items ∧
      HostReaches { ops := assemble s.params.mmioBase (driverProduct s.params), exit := none, block := u }
        { ops := [], exit := some 0, block := t } := by
  obtain ⟨hn, hn2, hfit⟩ := driver_layout hp
  rw [assemble_driverProduct]
  generalize BitVec.ofNat 16 s.params.n = n at hn ⊢
  generalize BitVec.ofNat 16 (2 * s.params.n) = n2 at hn2 ⊢
  have hzero : (0 : Half).toNat = 0 := rfl
  obtain ⟨u1, hu1, hprod, hgo1⟩ := mulLongLine_multiplies (a := 0) (b := n) (p := n2) (n := n) hu (by omega) (by omega)
    (by omega) (by omega) (by unfold apart; omega) (by unfold apart; omega) _ _
  rw [hn, hn2, hzero, hv] at hprod
  obtain ⟨t, ht, hdone, hout, hdiag, hin, hgo2⟩ :=
    formatNlLine_writes (a := n2) (n := n2) hu1 hp (by omega) (by omega) (by rwa [hn2, hprod]) _ _
  rw [hn2, hprod] at hout
  exact ⟨t, ht, hdone, hout, hdiag, hin, hgo1.trans (hgo2.trans (.head rfl (.refl _)))⟩

/-- A run whose program has stopped with code 0 on a ready block with `DONE` = 1 has ended in success (R310). -/
theorem HostRun.ended_success {h : HostRun} (hr : h.block.ready) (hd : h.block.status.done = true)
    (he : h.exit = some 0) : h.ended = some .success := by
  obtain ⟨_, hfault, hterm⟩ := hr
  simp only [HostRun.ended, hfault, hterm, hd, he, Bool.false_eq_true, if_false, and_self, if_true]

/-- Settles O59: the PARSE lines store the two values, and the lines after them write the text of their product. -/
theorem driverMultipliesTheNumerals : Obligations.DriverMultipliesTheNumerals := by
  intro s xs ys tail after hr hp hxs hys hi ht x y hready
  obtain ⟨u, hu, hx, hy, hgo1⟩ := driver_parses hr hp hxs hys hi ht
  obtain ⟨t, hready, hdone, hout, hdiag, hin, hgo2⟩ := driverProduct_writes hp hu (by rw [hx, hy]) hready
  obtain ⟨k, hk⟩ := hgo1.trans hgo2
  exact ⟨k, _, hk, rfl, rfl, HostRun.ended_success hready hdone rfl, hout, hdiag, hin⟩

end Sys2Proof.Machine
end

section
/-!
PROOFS. The faults and the progress of the block under its invariant: every step has a next state (R333), and `FAULT`
stays until the host clears it or resets the block (R335).
-/
namespace Sys2Proof.Machine

/-! ### Every step has a next state -/

/-- The record of a running command is one of an accepted command, so its turn never meets the model's one fault. -/
theorem sequencerTurn_next {s : State} (h : s.inv = true) : ∃ t, sequencerTurn s = .next t := by
  obtain ⟨_, hq, _⟩ := s.inv_iff.mp h
  cases hs : s.seq with
  | idle => exact ⟨s, by rw [sequencerTurn, hs]⟩
  | busy r =>
    obtain ⟨_, _, _, hw⟩ := (s.sequencerConsistent_busy hs).mp hq
    exact ⟨if r.held s then s else turn r s, by rw [sequencerTurn, hs]; exact if_pos hw⟩
  | terminated => exact ⟨s, by rw [sequencerTurn, hs]⟩

/-- Settles O11: a step is a host action, which always has its effect, or a turn of the sequencer. -/
theorem everyStepHasANextState : Obligations.EveryStepHasANextState := by
  intro s h
  rcases step_cases s with ⟨a, _, e⟩ | ⟨_, g, e⟩ <;> rw [SafeStep, e]
  · exact act_next a s.popped
  · exact sequencerTurn_next (s := s.setAgenda g) h

/-! ### FAULT stays -/

/-- `FAULT` and `FAULT_CODE` stand as they were (R335). -/
def SameFault (s t : State) : Prop := t.status.fault = s.status.fault ∧ t.status.faultCode = s.status.faultCode

/-- A write to `STATUS` without bit 2 clears no fault (R34). -/
theorem Status.write_keeps_fault (t : Status) {v : Word} (h : v.getLsbD 2 = false) :
    (t.write v).fault = t.fault ∧ (t.write v).faultCode = t.faultCode := by
  rw [t.write_eq, h]
  exact ⟨Bool.and_true _, rfl⟩

/-- A faulted block is blocked (R122). -/
theorem Status.blocked_of_fault {t : Status} (h : t.fault = true) : t.blocked = true := by
  simp [Status.blocked, h]

/-- A faulted block runs no command (R39), so the sequencer waits. -/
theorem sequencerTurn_of_fault {s t : State} (h : s.inv = true) (hf : s.status.fault = true)
    (ht : sequencerTurn s = .next t) : t = s := by
  rcases sequencerTurn_cases ht with rfl | ⟨r, hs, _⟩
  · rfl
  · obtain ⟨hst, hq, _⟩ := s.inv_iff.mp h
    obtain ⟨hb, _⟩ := (s.sequencerConsistent_busy hs).mp hq
    obtain ⟨hn, _⟩ := Status.consistent_running hst hb
    exact absurd (hf.symm.trans hn) nofun

/-- Of the host's accesses and deliveries only a write to `STATUS` with bit 2 set touches a fault (R34). -/
theorem HostEffect.sameFault {a : HostAction} {s t : State} (h : HostEffect a s t) :
    SameFault s t ∨ ∃ v : Word, v.getLsbD 2 = true ∧ a = .write (s.params.mmioBase + 0x008) 64 v := by
  obtain ⟨⟨_, _, _, _, _, _, _, rfl, hst⟩, _⟩ := h
  rcases hst with rfl | rfl | ⟨v, ha, rfl⟩
  · exact .inl ⟨rfl, rfl⟩
  · exact .inl ⟨rfl, rfl⟩
  · cases hv : v.getLsbD 2 with
    | true => exact .inr ⟨v, hv, ha⟩
    | false => exact .inl (s.status.write_keeps_fault hv)

/-- A `CMD` write to a faulted block is dropped (R122), so that of the host's actions only a reset and a write to
`STATUS` touch the fault. -/
theorem act_sameFault {a : HostAction} {s t : State} (hf : s.status.fault = true) (h : act exec a s = .next t) :
    SameFault s t ∨ a = .reset ∨ ∃ v : Word, v.getLsbD 2 = true ∧ a = .write (s.params.mmioBase + 0x008) 64 v := by
  have hb : (s.setReply .ack).status.blocked = true := Status.blocked_of_fault hf
  rcases act_cases h with ⟨ha, _⟩ | ⟨_, _, _, _, _, rfl, _⟩ | ⟨_, rfl⟩ | he
  · exact .inr (.inl ha)
  · rw [command, if_pos hb]
    exact .inl ⟨rfl, rfl⟩
  · rw [rejectWord, if_pos hb]
    exact .inl ⟨rfl, rfl⟩
  · exact he.sameFault.imp_right .inr

/-- Settles O14: a faulted block runs nothing, and of the host's actions only the two named here touch the fault. -/
theorem faultStaysUntilCleared : Obligations.FaultStaysUntilCleared := by
  intro s t h hf ht
  rcases step_cases s with ⟨a, ha, e⟩ | ⟨_, g, e⟩ <;> rw [e] at ht
  · rcases act_sameFault (s := s.popped) hf ht with ⟨hfault, hcode⟩ | rfl | ⟨v, hv, rfl⟩
    · exact .inl ⟨hfault.trans hf, hcode⟩
    · exact .inr (.inl ha)
    · exact .inr (.inr ⟨v, hv, ha⟩)
  · rw [sequencerTurn_of_fault (s := s.setAgenda g) h hf ht]
    exact .inl ⟨hf, rfl⟩

end Sys2Proof.Machine
end

section
/-!
PROOFS. Reset (R370, R371), and the terminated state it alone leaves (R341, R372).
-/
namespace Sys2Proof.Machine

/-! ### The state after a reset -/

/-- With no flag set and no fault code, `STATUS` reads 0 (R34, R370). -/
theorem State.afterReset_status_word (s : State) : s.afterReset.status.word = 0 := by
  simp [State.afterReset, State.reset, Status.word]

/-- No `BUFRAM` byte is listed after a reset, so each one is free (R370). -/
theorem State.afterReset_readByte (s : State) (a : Nat) :
    s.afterReset.readByte a = Config.freeRam (s.fresh + 1) a := rfl

theorem State.afterReset_readScr (s : State) (k : Nat) :
    s.afterReset.readScr k = Config.freeScr (s.fresh + 1) k := rfl

theorem State.afterReset_readFmt (s : State) (k : Nat) :
    s.afterReset.readFmt k = Config.freeFmt (s.fresh + 1) k := rfl

/-- A reset on the agenda takes effect in the very next step, in any state (R371). -/
theorem step_reset {s : State} (h : s.nextAction = some .reset) : step s = .next s.popped.afterReset := step_action h

/-- Settles O7: the step is the reset, whose state lists no cell of a memory and keeps what is the host's. -/
theorem resetValues : Obligations.ResetValues := by
  refine ⟨⟨?_, rfl, rfl, rfl, rfl, rfl, rfl, rfl⟩, fun s h => ⟨s.popped.afterReset, step_reset h, ?_⟩⟩
  · exact State.reset.afterReset_status_word
  · exact ⟨s.popped.afterReset_status_word, rfl, rfl, rfl, rfl, rfl, s.popped.afterReset_readByte,
      s.popped.afterReset_readScr, s.popped.afterReset_readFmt, rfl, rfl, rfl, rfl, rfl, rfl⟩

/-! ### The terminated state -/

/-- The sequencer, `TERM` and `EXIT` stand as they were (R372). -/
def SameTermination (s t : State) : Prop := t.seq = s.seq ∧ t.status.term = s.status.term ∧ t.exit = s.exit

/-- Under the invariant `TERM` shows that the sequencer is terminated (R341). -/
theorem State.terminated_of_term {s : State} (h : s.inv = true) (ht : s.status.term = true) : s.seq = .terminated := by
  obtain ⟨_, hq, _⟩ := s.inv_iff.mp h
  cases hs : s.seq with
  | idle => exact absurd (ht.symm.trans ((s.sequencerConsistent_idle hs).mp hq).2.1) nofun
  | busy r => exact absurd (ht.symm.trans ((s.sequencerConsistent_busy hs).mp hq).2.1) nofun
  | terminated => rfl

/-- A terminated block is blocked (R122). -/
theorem Status.blocked_of_term {t : Status} (h : t.term = true) : t.blocked = true := by
  simp [Status.blocked, h]

/-- A terminated sequencer waits (R341). -/
theorem sequencerTurn_of_terminated {s t : State} (h : s.seq = .terminated) (ht : sequencerTurn s = .next t) :
    t = s := by
  rcases sequencerTurn_cases ht with rfl | ⟨r, hr, _⟩
  · rfl
  · exact absurd (h.symm.trans hr) nofun

/-- No access and no delivery touches the sequencer, `TERM` or `EXIT`: a write to `STATUS` clears other bits (R34). -/
theorem HostEffect.sameTermination {a : HostAction} {s t : State} (h : HostEffect a s t) : SameTermination s t := by
  obtain ⟨⟨_, _, _, _, _, _, _, rfl, hst⟩, _⟩ := h
  rcases hst with rfl | rfl | ⟨v, _, rfl⟩
  · exact ⟨rfl, rfl, rfl⟩
  · exact ⟨rfl, rfl, rfl⟩
  · exact ⟨rfl, s.status.write_term v, rfl⟩

/-- A `CMD` write to a terminated block is dropped (R122), so that a reset is the only host action that touches the
termination. -/
theorem act_sameTermination {a : HostAction} {s t : State} (ht : s.status.term = true) (h : act exec a s = .next t)
    (ha : a ≠ .reset) : SameTermination s t := by
  have hb : (s.setReply .ack).status.blocked = true := Status.blocked_of_term ht
  rcases act_cases h with ⟨rfl, _⟩ | ⟨_, _, _, _, _, rfl, _⟩ | ⟨_, rfl⟩ | he
  · exact absurd rfl ha
  · rw [command, if_pos hb]
    exact ⟨rfl, rfl, rfl⟩
  · rw [rejectWord, if_pos hb]
    exact ⟨rfl, rfl, rfl⟩
  · exact he.sameTermination

/-- The steps of a terminated block that are no reset: another host action, or a turn of the waiting sequencer. -/
theorem step_sameTermination {s t : State} (h : s.inv = true) (ht : s.status.term = true) (hs : step s = .next t)
    (hr : s.nextAction ≠ some .reset) : SameTermination s t := by
  rcases step_cases s with ⟨a, ha, e⟩ | ⟨_, g, e⟩ <;> rw [e] at hs
  · exact act_sameTermination (s := s.popped) ht hs fun hreset => hr (hreset ▸ ha)
  · rw [sequencerTurn_of_terminated (s := s.setAgenda g) (State.terminated_of_term h ht) hs]
    exact ⟨rfl, rfl, rfl⟩

/-- Settles O13: every step but a reset keeps the terminated state, and a reset leaves the reset values. -/
theorem onlyResetLeavesTermination : Obligations.OnlyResetLeavesTermination := by
  intro s t h ht hs
  refine ⟨fun hr => ?_, fun hr => ?_⟩
  · obtain ⟨hseq, hterm, hexit⟩ := step_sameTermination h ht hs hr
    exact ⟨hseq.trans (State.terminated_of_term h ht), hterm.trans ht, hexit⟩
  · injection (step_reset hr).symm.trans hs with e
    subst e
    exact ⟨rfl, rfl, rfl⟩

end Sys2Proof.Machine
end
